-- ==== Sys2Proof/Word.lean ====
section
/-! DEFINITION. The word types of the block: 32-bit bus words and 8-bit stream bytes (00_scope.md R8, R9). -/

namespace Sys2Proof

/-- One word of the 32-bit host bus (R9). -/
abbrev Word := BitVec 32

/-- One byte of a stream; also a symbol of the alphabet (R8). -/
abbrev Byte := BitVec 8

/-- A 9-bit node index of the arena (NODE_IDX_BITS of R9). -/
abbrev NodeIdx := BitVec 9

end Sys2Proof
end

