-- ==== Sys2Proof/Syntax.lean ====
section
/-! DEFINITION. The instructions of the block: one constructor per row of spec/opcode_table.json, and the two encoded
forms they come in, command words (30_encoding.md R120) and host bus accesses (R123). -/

namespace Sys2Proof

/-- A host access `(WE, ADDR, WDATA)`; a read has no WDATA (R123). Every access moves one 32-bit word; narrower accesses
"are not part of the interface" (20_memory.md R86) and cannot be written here. -/
inductive Access
  | read (addr : BitVec 8)
  | write (addr : BitVec 8) (wdata : Word)
deriving DecidableEq, Repr

/-- An encoded instruction: a 32-bit command word, or a host access. -/
inductive Encoded
  | command (w : Word)
  | access (a : Access)
deriving DecidableEq, Repr

/-- The rows of the opcode table. A command instruction is the engine's execution of a latched command word (R121, R122);
`rdX` and `wrX w` are the host's read of X and its write of `w` to X (R124). -/
inductive Instr
  /-- NOP (R198). -/
  | nop
  /-- CLEAR (R199). -/
  | clear
  /-- LUT_WRITE (R225). -/
  | lutWrite
  /-- LUT_READ (R230). -/
  | lutRead
  /-- LUT_BUILD (R240). -/
  | lutBuild
  /-- TREE_LOAD (R262). -/
  | treeLoad
  /-- TREE_STORE (R280). -/
  | treeStore
  /-- ENCODE (R303). -/
  | encode
  /-- READ_BIT (R340). -/
  | readBit
  /-- BR_DISCARD (R345). -/
  | brDiscard
  /-- MAGIC_CHECK (R362). -/
  | magicCheck
  /-- DECODE (R365). -/
  | decode
  /-- DECODE_STREAM (R380). -/
  | decodeStream
  /-- A reserved command word (R122, R197). -/
  | reserved (w : Word)
  | rdCmd
  | wrCmd (w : Word)
  | rdStatus
  | wrStatus (w : Word)
  | rdErrcode
  | wrErrcode (w : Word)
  | rdErrpos
  | wrErrpos (w : Word)
  | rdCtrl
  | wrCtrl (w : Word)
  | rdIrqStatus
  | wrIrqStatus (w : Word)
  | rdTreeSize
  | wrTreeSize (w : Word)
  | rdFileSizeLo
  | wrFileSizeLo (w : Word)
  | rdFileSizeHi
  | wrFileSizeHi (w : Word)
  | rdHdrMagic
  | wrHdrMagic (w : Word)
  | rdSymcountLo
  | wrSymcountLo (w : Word)
  | rdSymcountHi
  | wrSymcountHi (w : Word)
  | rdOutbytesLo
  | wrOutbytesLo (w : Word)
  | rdOutbytesHi
  | wrOutbytesHi (w : Word)
  | rdTreeInfo
  | wrTreeInfo (w : Word)
  | rdDecState
  | wrDecState (w : Word)
  | rdBrState
  | wrBrState (w : Word)
  | rdBitResult
  | wrBitResult (w : Word)
  | rdLutSym
  | wrLutSym (w : Word)
  | rdLutLen
  | wrLutLen (w : Word)
  | rdLutBits0
  | wrLutBits0 (w : Word)
  | rdLutBits1
  | wrLutBits1 (w : Word)
  | rdLutBits2
  | wrLutBits2 (w : Word)
  | rdLutBits3
  | wrLutBits3 (w : Word)
  | rdLutBits4
  | wrLutBits4 (w : Word)
  | rdLutBits5
  | wrLutBits5 (w : Word)
  | rdLutBits6
  | wrLutBits6 (w : Word)
  | rdLutBits7
  | wrLutBits7 (w : Word)
  | rdInData
  | wrInData (w : Word)
  | rdInCtrl
  | wrInCtrl (w : Word)
  | rdOutData
  | wrOutData (w : Word)
  | rdFifoStatus
  | wrFifoStatus (w : Word)
  | rdNodeAddr
  | wrNodeAddr (w : Word)
  | rdNodeData
  | wrNodeData (w : Word)
  | rd0x88
  | wr0x88 (w : Word)
  | rd0x8C
  | wr0x8C (w : Word)
  | rd0x90
  | wr0x90 (w : Word)
  | rd0x94
  | wr0x94 (w : Word)
  | rd0x98
  | wr0x98 (w : Word)
  | rd0x9C
  | wr0x9C (w : Word)
  | rd0xA0
  | wr0xA0 (w : Word)
  | rd0xA4
  | wr0xA4 (w : Word)
  | rd0xA8
  | wr0xA8 (w : Word)
  | rd0xAC
  | wr0xAC (w : Word)
  | rd0xB0
  | wr0xB0 (w : Word)
  | rd0xB4
  | wr0xB4 (w : Word)
  | rd0xB8
  | wr0xB8 (w : Word)
  | rd0xBC
  | wr0xBC (w : Word)
  | rd0xC0
  | wr0xC0 (w : Word)
  | rd0xC4
  | wr0xC4 (w : Word)
  | rd0xC8
  | wr0xC8 (w : Word)
  | rd0xCC
  | wr0xCC (w : Word)
  | rd0xD0
  | wr0xD0 (w : Word)
  | rd0xD4
  | wr0xD4 (w : Word)
  | rd0xD8
  | wr0xD8 (w : Word)
  | rd0xDC
  | wr0xDC (w : Word)
  | rd0xE0
  | wr0xE0 (w : Word)
  | rd0xE4
  | wr0xE4 (w : Word)
  | rd0xE8
  | wr0xE8 (w : Word)
  | rd0xEC
  | wr0xEC (w : Word)
  | rd0xF0
  | wr0xF0 (w : Word)
  | rd0xF4
  | wr0xF4 (w : Word)
  | rd0xF8
  | wr0xF8 (w : Word)
  | rd0xFC
  | wr0xFC (w : Word)
deriving DecidableEq, Repr

end Sys2Proof
end

