-- ==== Sys2Proof/WellFormed.lean ====
section
/-! DEFINITION. Which terms of Instr are instructions: a reserved command is one whose word is reserved. -/

namespace Sys2Proof

/-- A command word is illegal "when OPCODE ≥ 0x0D or RSVD ≠ 0" (30_encoding.md R122). -/
def reservedWord (w : Word) : Bool :=
  decide (0x0D ≤ (w.extractLsb' 0 8).toNat) || w.extractLsb' 8 24 != 0

/-- The well-formed instructions: every other constructor takes every operand. -/
def Instr.wf : Instr → Bool
  | .reserved w => reservedWord w
  | _ => true

end Sys2Proof
end

