-- ==== Sys2Proof/Decode.lean ====
section
/-! DEFINITION. The two decoders of the block, command words (30_encoding.md R121, R122) and bus transactions (R124),
the encoder, and the decoder in the opcode table's own bit numbering. -/

namespace Sys2Proof

/-- Why bits are no instruction: a host access whose address is not word-aligned (20_memory.md R86). Every command word is
an instruction, a reserved one too (R122). -/
inductive DecodeError
  | misaligned (addr : BitVec 8)
deriving DecidableEq, Repr

/-- A row of the opcode map (R121). -/
structure CommandRow where
  opcode : Byte
  instr  : Instr

/-- The opcode map (R121). -/
def commandRows : List CommandRow := [
  ⟨0x00, .nop⟩,
  ⟨0x01, .clear⟩,
  ⟨0x02, .lutWrite⟩,
  ⟨0x03, .lutRead⟩,
  ⟨0x04, .lutBuild⟩,
  ⟨0x05, .treeLoad⟩,
  ⟨0x06, .treeStore⟩,
  ⟨0x07, .encode⟩,
  ⟨0x08, .readBit⟩,
  ⟨0x09, .brDiscard⟩,
  ⟨0x0A, .magicCheck⟩,
  ⟨0x0B, .decode⟩,
  ⟨0x0C, .decodeStream⟩]

/-- Decode a command word: RSVD (bits 31 to 8) must be 0 and OPCODE (bits 7 to 0) in the map; every other word is a
reserved one (R120, R121, R122). -/
def decodeCommand (w : Word) : Instr :=
  if w.extractLsb' 8 24 = 0 then
    match commandRows.find? (fun r => r.opcode == w.extractLsb' 0 8) with
    | some r => r.instr
    | none => .reserved w
  else .reserved w

/-- The transaction word `TW = {WE, ADDR}` (R123). -/
def Access.tw : Access → BitVec 9
  | .read a => 0#1 ++ a
  | .write a _ => 1#1 ++ a

/-- The address of an access. -/
def Access.addr : Access → BitVec 8
  | .read a => a
  | .write a _ => a

/-- WDATA; 0 for a read, which has none. -/
def Access.wdata : Access → Word
  | .read _ => 0
  | .write _ w => w

/-- A bus row: its TW, and the instruction it makes of WDATA (which a read ignores). -/
structure AccessRow where
  tw    : BitVec 9
  instr : Word → Instr

/-- The read transactions by ascending TW (40_host_interface.md R171 to R187), part 0. -/
def readRows0 : List AccessRow := [
  ⟨0x000, fun _ => .rdCmd⟩,
  ⟨0x004, fun _ => .rdStatus⟩,
  ⟨0x008, fun _ => .rdErrcode⟩,
  ⟨0x00C, fun _ => .rdErrpos⟩,
  ⟨0x010, fun _ => .rdCtrl⟩,
  ⟨0x014, fun _ => .rdIrqStatus⟩,
  ⟨0x018, fun _ => .rdTreeSize⟩,
  ⟨0x01C, fun _ => .rdFileSizeLo⟩,
  ⟨0x020, fun _ => .rdFileSizeHi⟩,
  ⟨0x024, fun _ => .rdHdrMagic⟩,
  ⟨0x028, fun _ => .rdSymcountLo⟩,
  ⟨0x02C, fun _ => .rdSymcountHi⟩,
  ⟨0x030, fun _ => .rdOutbytesLo⟩,
  ⟨0x034, fun _ => .rdOutbytesHi⟩,
  ⟨0x038, fun _ => .rdTreeInfo⟩,
  ⟨0x03C, fun _ => .rdDecState⟩]

/-- The read transactions by ascending TW (40_host_interface.md R171 to R187), part 1. -/
def readRows1 : List AccessRow := [
  ⟨0x040, fun _ => .rdBrState⟩,
  ⟨0x044, fun _ => .rdBitResult⟩,
  ⟨0x048, fun _ => .rdLutSym⟩,
  ⟨0x04C, fun _ => .rdLutLen⟩,
  ⟨0x050, fun _ => .rdLutBits0⟩,
  ⟨0x054, fun _ => .rdLutBits1⟩,
  ⟨0x058, fun _ => .rdLutBits2⟩,
  ⟨0x05C, fun _ => .rdLutBits3⟩,
  ⟨0x060, fun _ => .rdLutBits4⟩,
  ⟨0x064, fun _ => .rdLutBits5⟩,
  ⟨0x068, fun _ => .rdLutBits6⟩,
  ⟨0x06C, fun _ => .rdLutBits7⟩,
  ⟨0x070, fun _ => .rdInData⟩,
  ⟨0x074, fun _ => .rdInCtrl⟩,
  ⟨0x078, fun _ => .rdOutData⟩,
  ⟨0x07C, fun _ => .rdFifoStatus⟩]

/-- The read transactions by ascending TW (40_host_interface.md R171 to R187), part 2. -/
def readRows2 : List AccessRow := [
  ⟨0x080, fun _ => .rdNodeAddr⟩,
  ⟨0x084, fun _ => .rdNodeData⟩,
  ⟨0x088, fun _ => .rd0x88⟩,
  ⟨0x08C, fun _ => .rd0x8C⟩,
  ⟨0x090, fun _ => .rd0x90⟩,
  ⟨0x094, fun _ => .rd0x94⟩,
  ⟨0x098, fun _ => .rd0x98⟩,
  ⟨0x09C, fun _ => .rd0x9C⟩,
  ⟨0x0A0, fun _ => .rd0xA0⟩,
  ⟨0x0A4, fun _ => .rd0xA4⟩,
  ⟨0x0A8, fun _ => .rd0xA8⟩,
  ⟨0x0AC, fun _ => .rd0xAC⟩,
  ⟨0x0B0, fun _ => .rd0xB0⟩,
  ⟨0x0B4, fun _ => .rd0xB4⟩,
  ⟨0x0B8, fun _ => .rd0xB8⟩,
  ⟨0x0BC, fun _ => .rd0xBC⟩]

/-- The read transactions by ascending TW (40_host_interface.md R171 to R187), part 3. -/
def readRows3 : List AccessRow := [
  ⟨0x0C0, fun _ => .rd0xC0⟩,
  ⟨0x0C4, fun _ => .rd0xC4⟩,
  ⟨0x0C8, fun _ => .rd0xC8⟩,
  ⟨0x0CC, fun _ => .rd0xCC⟩,
  ⟨0x0D0, fun _ => .rd0xD0⟩,
  ⟨0x0D4, fun _ => .rd0xD4⟩,
  ⟨0x0D8, fun _ => .rd0xD8⟩,
  ⟨0x0DC, fun _ => .rd0xDC⟩,
  ⟨0x0E0, fun _ => .rd0xE0⟩,
  ⟨0x0E4, fun _ => .rd0xE4⟩,
  ⟨0x0E8, fun _ => .rd0xE8⟩,
  ⟨0x0EC, fun _ => .rd0xEC⟩,
  ⟨0x0F0, fun _ => .rd0xF0⟩,
  ⟨0x0F4, fun _ => .rd0xF4⟩,
  ⟨0x0F8, fun _ => .rd0xF8⟩,
  ⟨0x0FC, fun _ => .rd0xFC⟩]

/-- The write transactions by ascending TW (40_host_interface.md R171 to R187), part 0. -/
def writeRows0 : List AccessRow := [
  ⟨0x100, .wrCmd⟩,
  ⟨0x104, .wrStatus⟩,
  ⟨0x108, .wrErrcode⟩,
  ⟨0x10C, .wrErrpos⟩,
  ⟨0x110, .wrCtrl⟩,
  ⟨0x114, .wrIrqStatus⟩,
  ⟨0x118, .wrTreeSize⟩,
  ⟨0x11C, .wrFileSizeLo⟩,
  ⟨0x120, .wrFileSizeHi⟩,
  ⟨0x124, .wrHdrMagic⟩,
  ⟨0x128, .wrSymcountLo⟩,
  ⟨0x12C, .wrSymcountHi⟩,
  ⟨0x130, .wrOutbytesLo⟩,
  ⟨0x134, .wrOutbytesHi⟩,
  ⟨0x138, .wrTreeInfo⟩,
  ⟨0x13C, .wrDecState⟩]

/-- The write transactions by ascending TW (40_host_interface.md R171 to R187), part 1. -/
def writeRows1 : List AccessRow := [
  ⟨0x140, .wrBrState⟩,
  ⟨0x144, .wrBitResult⟩,
  ⟨0x148, .wrLutSym⟩,
  ⟨0x14C, .wrLutLen⟩,
  ⟨0x150, .wrLutBits0⟩,
  ⟨0x154, .wrLutBits1⟩,
  ⟨0x158, .wrLutBits2⟩,
  ⟨0x15C, .wrLutBits3⟩,
  ⟨0x160, .wrLutBits4⟩,
  ⟨0x164, .wrLutBits5⟩,
  ⟨0x168, .wrLutBits6⟩,
  ⟨0x16C, .wrLutBits7⟩,
  ⟨0x170, .wrInData⟩,
  ⟨0x174, .wrInCtrl⟩,
  ⟨0x178, .wrOutData⟩,
  ⟨0x17C, .wrFifoStatus⟩]

/-- The write transactions by ascending TW (40_host_interface.md R171 to R187), part 2. -/
def writeRows2 : List AccessRow := [
  ⟨0x180, .wrNodeAddr⟩,
  ⟨0x184, .wrNodeData⟩,
  ⟨0x188, .wr0x88⟩,
  ⟨0x18C, .wr0x8C⟩,
  ⟨0x190, .wr0x90⟩,
  ⟨0x194, .wr0x94⟩,
  ⟨0x198, .wr0x98⟩,
  ⟨0x19C, .wr0x9C⟩,
  ⟨0x1A0, .wr0xA0⟩,
  ⟨0x1A4, .wr0xA4⟩,
  ⟨0x1A8, .wr0xA8⟩,
  ⟨0x1AC, .wr0xAC⟩,
  ⟨0x1B0, .wr0xB0⟩,
  ⟨0x1B4, .wr0xB4⟩,
  ⟨0x1B8, .wr0xB8⟩,
  ⟨0x1BC, .wr0xBC⟩]

/-- The write transactions by ascending TW (40_host_interface.md R171 to R187), part 3. -/
def writeRows3 : List AccessRow := [
  ⟨0x1C0, .wr0xC0⟩,
  ⟨0x1C4, .wr0xC4⟩,
  ⟨0x1C8, .wr0xC8⟩,
  ⟨0x1CC, .wr0xCC⟩,
  ⟨0x1D0, .wr0xD0⟩,
  ⟨0x1D4, .wr0xD4⟩,
  ⟨0x1D8, .wr0xD8⟩,
  ⟨0x1DC, .wr0xDC⟩,
  ⟨0x1E0, .wr0xE0⟩,
  ⟨0x1E4, .wr0xE4⟩,
  ⟨0x1E8, .wr0xE8⟩,
  ⟨0x1EC, .wr0xEC⟩,
  ⟨0x1F0, .wr0xF0⟩,
  ⟨0x1F4, .wr0xF4⟩,
  ⟨0x1F8, .wr0xF8⟩,
  ⟨0x1FC, .wr0xFC⟩]

/-- The bus rows of the opcode table: every aligned address, read and write. -/
def accessRows : List AccessRow :=
  readRows0 ++ readRows1 ++ readRows2 ++ readRows3 ++ writeRows0 ++ writeRows1 ++ writeRows2 ++ writeRows3

/-- Decode a host access by exact match on all 9 bits of TW (R124); the unmatched ones are the misaligned (R86). -/
def decodeAccess (a : Access) : Except DecodeError Instr :=
  match accessRows.find? (fun r => r.tw == a.tw) with
  | some r => .ok (r.instr a.wdata)
  | none => .error (.misaligned a.addr)

/-- Decode either form. -/
def decode : Encoded → Except DecodeError Instr
  | .command w => .ok (decodeCommand w)
  | .access a => decodeAccess a

/-- The encoding of an instruction: its command word (R121), or its access (R123). -/
def encode : Instr → Encoded
  | .nop => .command 0x00000000
  | .clear => .command 0x00000001
  | .lutWrite => .command 0x00000002
  | .lutRead => .command 0x00000003
  | .lutBuild => .command 0x00000004
  | .treeLoad => .command 0x00000005
  | .treeStore => .command 0x00000006
  | .encode => .command 0x00000007
  | .readBit => .command 0x00000008
  | .brDiscard => .command 0x00000009
  | .magicCheck => .command 0x0000000A
  | .decode => .command 0x0000000B
  | .decodeStream => .command 0x0000000C
  | .reserved w => .command w
  | .rdCmd => .access (.read 0x00)
  | .wrCmd w => .access (.write 0x00 w)
  | .rdStatus => .access (.read 0x04)
  | .wrStatus w => .access (.write 0x04 w)
  | .rdErrcode => .access (.read 0x08)
  | .wrErrcode w => .access (.write 0x08 w)
  | .rdErrpos => .access (.read 0x0C)
  | .wrErrpos w => .access (.write 0x0C w)
  | .rdCtrl => .access (.read 0x10)
  | .wrCtrl w => .access (.write 0x10 w)
  | .rdIrqStatus => .access (.read 0x14)
  | .wrIrqStatus w => .access (.write 0x14 w)
  | .rdTreeSize => .access (.read 0x18)
  | .wrTreeSize w => .access (.write 0x18 w)
  | .rdFileSizeLo => .access (.read 0x1C)
  | .wrFileSizeLo w => .access (.write 0x1C w)
  | .rdFileSizeHi => .access (.read 0x20)
  | .wrFileSizeHi w => .access (.write 0x20 w)
  | .rdHdrMagic => .access (.read 0x24)
  | .wrHdrMagic w => .access (.write 0x24 w)
  | .rdSymcountLo => .access (.read 0x28)
  | .wrSymcountLo w => .access (.write 0x28 w)
  | .rdSymcountHi => .access (.read 0x2C)
  | .wrSymcountHi w => .access (.write 0x2C w)
  | .rdOutbytesLo => .access (.read 0x30)
  | .wrOutbytesLo w => .access (.write 0x30 w)
  | .rdOutbytesHi => .access (.read 0x34)
  | .wrOutbytesHi w => .access (.write 0x34 w)
  | .rdTreeInfo => .access (.read 0x38)
  | .wrTreeInfo w => .access (.write 0x38 w)
  | .rdDecState => .access (.read 0x3C)
  | .wrDecState w => .access (.write 0x3C w)
  | .rdBrState => .access (.read 0x40)
  | .wrBrState w => .access (.write 0x40 w)
  | .rdBitResult => .access (.read 0x44)
  | .wrBitResult w => .access (.write 0x44 w)
  | .rdLutSym => .access (.read 0x48)
  | .wrLutSym w => .access (.write 0x48 w)
  | .rdLutLen => .access (.read 0x4C)
  | .wrLutLen w => .access (.write 0x4C w)
  | .rdLutBits0 => .access (.read 0x50)
  | .wrLutBits0 w => .access (.write 0x50 w)
  | .rdLutBits1 => .access (.read 0x54)
  | .wrLutBits1 w => .access (.write 0x54 w)
  | .rdLutBits2 => .access (.read 0x58)
  | .wrLutBits2 w => .access (.write 0x58 w)
  | .rdLutBits3 => .access (.read 0x5C)
  | .wrLutBits3 w => .access (.write 0x5C w)
  | .rdLutBits4 => .access (.read 0x60)
  | .wrLutBits4 w => .access (.write 0x60 w)
  | .rdLutBits5 => .access (.read 0x64)
  | .wrLutBits5 w => .access (.write 0x64 w)
  | .rdLutBits6 => .access (.read 0x68)
  | .wrLutBits6 w => .access (.write 0x68 w)
  | .rdLutBits7 => .access (.read 0x6C)
  | .wrLutBits7 w => .access (.write 0x6C w)
  | .rdInData => .access (.read 0x70)
  | .wrInData w => .access (.write 0x70 w)
  | .rdInCtrl => .access (.read 0x74)
  | .wrInCtrl w => .access (.write 0x74 w)
  | .rdOutData => .access (.read 0x78)
  | .wrOutData w => .access (.write 0x78 w)
  | .rdFifoStatus => .access (.read 0x7C)
  | .wrFifoStatus w => .access (.write 0x7C w)
  | .rdNodeAddr => .access (.read 0x80)
  | .wrNodeAddr w => .access (.write 0x80 w)
  | .rdNodeData => .access (.read 0x84)
  | .wrNodeData w => .access (.write 0x84 w)
  | .rd0x88 => .access (.read 0x88)
  | .wr0x88 w => .access (.write 0x88 w)
  | .rd0x8C => .access (.read 0x8C)
  | .wr0x8C w => .access (.write 0x8C w)
  | .rd0x90 => .access (.read 0x90)
  | .wr0x90 w => .access (.write 0x90 w)
  | .rd0x94 => .access (.read 0x94)
  | .wr0x94 w => .access (.write 0x94 w)
  | .rd0x98 => .access (.read 0x98)
  | .wr0x98 w => .access (.write 0x98 w)
  | .rd0x9C => .access (.read 0x9C)
  | .wr0x9C w => .access (.write 0x9C w)
  | .rd0xA0 => .access (.read 0xA0)
  | .wr0xA0 w => .access (.write 0xA0 w)
  | .rd0xA4 => .access (.read 0xA4)
  | .wr0xA4 w => .access (.write 0xA4 w)
  | .rd0xA8 => .access (.read 0xA8)
  | .wr0xA8 w => .access (.write 0xA8 w)
  | .rd0xAC => .access (.read 0xAC)
  | .wr0xAC w => .access (.write 0xAC w)
  | .rd0xB0 => .access (.read 0xB0)
  | .wr0xB0 w => .access (.write 0xB0 w)
  | .rd0xB4 => .access (.read 0xB4)
  | .wr0xB4 w => .access (.write 0xB4 w)
  | .rd0xB8 => .access (.read 0xB8)
  | .wr0xB8 w => .access (.write 0xB8 w)
  | .rd0xBC => .access (.read 0xBC)
  | .wr0xBC w => .access (.write 0xBC w)
  | .rd0xC0 => .access (.read 0xC0)
  | .wr0xC0 w => .access (.write 0xC0 w)
  | .rd0xC4 => .access (.read 0xC4)
  | .wr0xC4 w => .access (.write 0xC4 w)
  | .rd0xC8 => .access (.read 0xC8)
  | .wr0xC8 w => .access (.write 0xC8 w)
  | .rd0xCC => .access (.read 0xCC)
  | .wr0xCC w => .access (.write 0xCC w)
  | .rd0xD0 => .access (.read 0xD0)
  | .wr0xD0 w => .access (.write 0xD0 w)
  | .rd0xD4 => .access (.read 0xD4)
  | .wr0xD4 w => .access (.write 0xD4 w)
  | .rd0xD8 => .access (.read 0xD8)
  | .wr0xD8 w => .access (.write 0xD8 w)
  | .rd0xDC => .access (.read 0xDC)
  | .wr0xDC w => .access (.write 0xDC w)
  | .rd0xE0 => .access (.read 0xE0)
  | .wr0xE0 w => .access (.write 0xE0 w)
  | .rd0xE4 => .access (.read 0xE4)
  | .wr0xE4 w => .access (.write 0xE4 w)
  | .rd0xE8 => .access (.read 0xE8)
  | .wr0xE8 w => .access (.write 0xE8 w)
  | .rd0xEC => .access (.read 0xEC)
  | .wr0xEC w => .access (.write 0xEC w)
  | .rd0xF0 => .access (.read 0xF0)
  | .wr0xF0 w => .access (.write 0xF0 w)
  | .rd0xF4 => .access (.read 0xF4)
  | .wr0xF4 w => .access (.write 0xF4 w)
  | .rd0xF8 => .access (.read 0xF8)
  | .wr0xF8 w => .access (.write 0xF8 w)
  | .rd0xFC => .access (.read 0xFC)
  | .wr0xFC w => .access (.write 0xFC w)

/-- The access whose TW is the low 9 bits of `w`, with WDATA 0: the opcode table gives WDATA no bits. -/
def accessOfTableWord (w : Nat) : Access :=
  if w < 256 then .read (BitVec.ofNat 8 w) else .write (BitVec.ofNat 8 w) 0

/-- The encoded form of an opcode-table row's bits: a BUS row has the 9 bits of TW (two whole bytes), a CMD row the 32 bits
of a command word (log entry 13). -/
def encodedOfTableWord (nbits w : Nat) : Option Encoded :=
  if nbits ≤ 16 then
    if w < 512 then some (.access (accessOfTableWord w)) else none
  else if nbits ≤ 32 then
    if w < 2 ^ 32 then some (.command (BitVec.ofNat 32 w)) else none
  else none

/-- The instruction the decoder reads from an opcode-table row's bits. -/
def decodeTableWord (nbits w : Nat) : Option Instr :=
  match encodedOfTableWord nbits w with
  | some e => (decode e).toOption
  | none => none

end Sys2Proof
end

