-- ==== Sys2Proof/Machine/Types.lean ====
section
/-! DEFINITION. The kinds of data State is made of: arena nodes, codes, error codes, decoder states, engine control
points, the open parameters and the events of the outside world. -/

namespace Sys2Proof.Machine

/-- A node record of the arena, `{LEAF, SYM, LEFT, RIGHT}` (10_state.md R50). -/
structure Node where
  leaf  : Bool
  sym   : Byte
  left  : NodeIdx
  right : NodeIdx
deriving DecidableEq, Repr, Inhabited

/-- The leaf node of a symbol: LEFT and RIGHT are 0 (R50, 92_eei_decisions.md D31). -/
def Node.mkLeaf (s : Byte) : Node := ⟨true, s, 0, 0⟩

/-- The interior node over two children: SYM is 0, the placeholder (R50, D31). -/
def Node.mkInterior (l r : NodeIdx) : Node := ⟨false, 0, l, r⟩

/-- The node word `{LEAF[31], 0[30:26], SYM[25:18], RIGHT[17:9], LEFT[8:0]}` (30_encoding.md R133). -/
def Node.word (n : Node) : Word :=
  BitVec.ofBool n.leaf ++ (0 : BitVec 5) ++ n.sym ++ n.right ++ n.left

/-- A code table entry `{LEN, BITS}`; code bit `i` is `BITS[i]` (10_state.md R55). -/
structure Code where
  len  : BitVec 9
  bits : BitVec 256
deriving DecidableEq, Repr

/-- The entry of a symbol without code (R55). -/
def Code.empty : Code := ⟨0, 0⟩

/-- The code bits of an entry in code order, `[BITS[0], ..., BITS[LEN - 1]]` (41_code_table.md R220). -/
def Code.toBits (c : Code) : List Bool := (List.range c.len.toNat).map c.bits.getLsbD

/-- The value whose bit `i` is 1 exactly when `i < n` (41_code_table.md R225). -/
def mask (n : Nat) : BitVec 256 := BitVec.ofNat 256 (2 ^ n - 1)

/-- The entry of a path: its length, and its steps as bits, step `k` at bit `k`, zero-extended (41_code_table.md R240). -/
def Code.ofPath (path : List Bool) : Code :=
  ⟨BitVec.ofNat 9 path.length, (BitVec.ofBoolListLE path).setWidth 256⟩

/-- The code table as sparse data: the symbols that have a code, in rising order, none listed with the empty entry.
An unlisted symbol reads as the empty entry, the reset value of every entry (10_state.md R55). -/
abbrev CodeTable := List (Byte × Code)

/-- `LUT[s]`. -/
def CodeTable.get : CodeTable → Byte → Code
  | [], _ => Code.empty
  | (k, d) :: rest, s => if k = s then d else CodeTable.get rest s

/-- `LUT[s] <- c`; writing the empty entry removes the listing, so that equal tables are equal lists. -/
def CodeTable.set : CodeTable → Byte → Code → CodeTable
  | [], s, c => if c = Code.empty then [] else [(s, c)]
  | (k, d) :: rest, s, c =>
    if s = k then
      if c = Code.empty then rest else (s, c) :: rest
    else if s.toNat < k.toNat then
      if c = Code.empty then (k, d) :: rest else (s, c) :: (k, d) :: rest
    else (k, d) :: CodeTable.set rest s c

/-- The canonical form: symbols strictly rising, no empty entry listed. -/
def CodeTable.wf : CodeTable → Bool
  | [] => true
  | (k, d) :: rest => d != Code.empty && rest.all (fun e => decide (k.toNat < e.1.toNat)) && CodeTable.wf rest

/-- The error codes of 60_exceptions.md R401. The values 0x0F to 0xFF are never produced, so they are no values here. -/
inductive ErrCode
  | none
  | badCommand
  | badMagic
  | treeEos
  | treeBadToken
  | treeLeafTruncated
  | treeStackUnderflow
  | treeStackOverflow
  | treeNodeOverflow
  | treeNotSingleRoot
  | noTree
  | degenerateTree
  | decodeEos
  | lutMiss
  | lutBadLen
deriving DecidableEq, Repr

/-- The ERRCODE value of an error (60_exceptions.md R401). -/
def ErrCode.code : ErrCode → Byte
  | .none => 0x00
  | .badCommand => 0x01
  | .badMagic => 0x02
  | .treeEos => 0x03
  | .treeBadToken => 0x04
  | .treeLeafTruncated => 0x05
  | .treeStackUnderflow => 0x06
  | .treeStackOverflow => 0x07
  | .treeNodeOverflow => 0x08
  | .treeNotSingleRoot => 0x09
  | .noTree => 0x0A
  | .degenerateTree => 0x0B
  | .decodeEos => 0x0C
  | .lutMiss => 0x0D
  | .lutBadLen => 0x0E

/-- DSTATE of the tree-walk decoder (10_state.md R59). -/
inductive DState
  | atRoot
  | descending
  | done
deriving DecidableEq, Repr

/-- The DSTATE value of DEC_STATE: 0 AtRoot, 1 Descending, 2 Done (10_state.md R45, R59). -/
def DState.code : DState → BitVec 2
  | .atRoot => 0
  | .descending => 1
  | .done => 2

/-- The control points of the commands' pseudocode (10_state.md R62, 40_host_interface.md R195): `start`, and the
position immediately before each `InPop` and `OutPush`, with the local variables the rest of the pseudocode uses. -/
inductive Point
  /-- Accepted; the first engine step is still to come. -/
  | start
  /-- TREE_LOAD's `t <- InPop()` with tree byte index `k` (42_tree_codec.md R262). -/
  | treeTag (k : Nat)
  /-- TREE_LOAD's `s <- InPop()` of the Leaf token whose tag stood at index `k` (R262). -/
  | treeSym (k : Nat)
  /-- TREE_STORE's `OutPush` of `b`, with `rest` the bytes its walk pushes after it (42_tree_codec.md R280). -/
  | treeOut (b : Byte) (rest : List Byte)
  /-- ENCODE's `c <- InPop()` (43_encoder_bitpacker.md R303). -/
  | encIn
  /-- ENCODE's `OutPush(WBYTE)` inside `put_bit`, with `rest` the code bits still to be put (R301, R303). -/
  | encOut (rest : List Bool)
  /-- ENCODE's final `OutPush(WBYTE)` (R305). -/
  | encFlush
  /-- READ_BIT's `InPop` inside `read_bit` (44_bitstream_reader.md R331, R340). -/
  | bitIn
  /-- DECODE's `InPop` inside `read_bit` (45_decoder.md R365). -/
  | decodeIn
  /-- DECODE's `OutPush(ARENA[CUR].SYM)` (R365). -/
  | decodeOut
deriving DecidableEq, Repr

/-- The primitive at the point is an `InPop`. -/
def Point.isIn : Point → Bool
  | .treeTag _ | .treeSym _ | .encIn | .bitIn | .decodeIn => true
  | .start | .treeOut _ _ | .encOut _ | .encFlush | .decodeOut => false

/-- The primitive at the point is an `OutPush`. -/
def Point.isOut : Point → Bool
  | .treeOut _ _ | .encOut _ | .encFlush | .decodeOut => true
  | .start | .treeTag _ | .treeSym _ | .encIn | .bitIn | .decodeIn => false

/-- The engine sequencer (10_state.md R62): Idle, or at a control point of the command whose word is latched.
BlockedIn and BlockedOut are the views `State.waitIn` and `State.waitOut`. -/
inductive Engine
  | idle
  | running (p : Point)
deriving DecidableEq, Repr

/-- The open parameters (00_scope.md R10). A depth of 1 to 65535 bytes is held less one, so that every value is legal. -/
structure Params where
  magic         : Word
  inDepthLess1  : Fin 65535
  outDepthLess1 : Fin 65535
deriving DecidableEq, Repr

/-- What the outside world does next (20_memory.md R92, R93; 70_reset_and_hazards.md R451): a host access, the engine's
turn in the interleaving, or the platform's reset. -/
inductive Input
  | access (a : Access)
  | engine
  | reset
deriving DecidableEq, Repr

end Sys2Proof.Machine
end

