-- ==== Sys2Proof/Config.lean ====
section
/-! DEFINITION. The open parameters of the block and its free values, as constants without a body: nothing in Lean can
evaluate one, so what is proved holds whatever they are. -/

namespace Sys2Proof.Config

open Sys2Proof.Machine

/-- MAGIC, "any 32-bit value" (00_scope.md R10, 91_not_in_source.md N1). -/
opaque magic : Word

/-- IN_DEPTH less one; IN_DEPTH is 1 to 65535 (00_scope.md R10). -/
opaque inDepthLess1 : Fin 65535

/-- OUT_DEPTH less one; OUT_DEPTH is 1 to 65535 (00_scope.md R10). -/
opaque outDepthLess1 : Fin 65535

/-- The parameters a machine has after reset (log entry 3). -/
def params : Params := ⟨magic, inDepthLess1, outDepthLess1⟩

/-- FREE VALUE: the `n`-th unspecified value an engine-owned register reads as while BUSY = 1
(40_host_interface.md R183, 93_implementation_defined.md U5; log entry 4). -/
opaque busyRead : Nat → Word

/-- FREE VALUE: what an arena node at an index at or above NODE_COUNT holds; no rule reads one
(10_state.md R50, 93_implementation_defined.md U7; log entry 5). -/
opaque unwrittenNode : Nat → Node

end Sys2Proof.Config
end

