-- ==== Sys2Proof/Machine/State.lean ====
section
/-! DEFINITION. The state of the block (10_state.md), why a step can stop, and the state after reset
(70_reset_and_hazards.md R450). -/

namespace Sys2Proof.Machine

/-- Everything the spec gives the block, and the model's own fields at the end. -/
structure State where
  /-- CMDWORD, the latched command word; its low byte is STATUS.CUR_OP (40_host_interface.md R175). -/
  cmdword    : Word
  /-- The engine sequencer (10_state.md R62); STATUS.BUSY is "not Idle". -/
  engine     : Engine
  /-- STATUS.DONE (R34). -/
  done       : Bool
  /-- STATUS.ERR (R34). -/
  err        : Bool
  /-- STATUS.TREE_VALID (R34, R51). -/
  treeValid  : Bool
  /-- STATUS.OUT_INVALID (R34, R61). -/
  outInvalid : Bool
  /-- STATUS.CMD_OVR (R34, R61). -/
  cmdOvr     : Bool
  /-- STATUS.IN_OVF (R34, R61). -/
  inOvf      : Bool
  /-- STATUS.IN_EOS (R34, R60). -/
  inEos      : Bool
  /-- ERRCODE (R35). -/
  errcode    : ErrCode
  /-- ERRPOS (R36). -/
  errpos     : Word
  /-- CTRL.IRQ_EN (R37). -/
  irqEn      : Bool
  /-- IRQ_STATUS.IRQ_PEND (R38). -/
  irqPend    : Bool
  /-- TREE_SIZE (R39). -/
  treeSize   : BitVec 16
  /-- FILE_SIZE_LO (R40). -/
  fileSizeLo : Word
  /-- FILE_SIZE_HI (R40). -/
  fileSizeHi : Word
  /-- HDR_MAGIC (R41). -/
  hdrMagic   : Word
  /-- SYMCOUNT (R42). -/
  symcount   : BitVec 64
  /-- OUTBYTES (R43). -/
  outbytes   : BitVec 64
  /-- The arena nodes below NODE_COUNT, node 0 first; NODE_COUNT is its length (R50, R51). -/
  arena      : List Node
  /-- ROOT (R51). -/
  root       : NodeIdx
  /-- The auxiliary stack below SP, top first; SP is its length (R52). -/
  stk        : List NodeIdx
  /-- DSTATE (R59). -/
  dstate     : DState
  /-- CUR (R59). -/
  cur        : NodeIdx
  /-- BR_BYTE (R57). -/
  brByte     : Byte
  /-- BR_POS, 0 to 8 (R57). -/
  brPos      : Fin 9
  /-- BIT_RESULT.BIT (R47). -/
  bitVal     : Bool
  /-- BIT_RESULT.EOS (R47). -/
  bitEos     : Bool
  /-- LUT_SYM (R48). -/
  lutSym     : Byte
  /-- LUT_LEN (R48). -/
  lutLen     : BitVec 9
  /-- LUT_BITS7 to LUT_BITS0 as the one 256-bit value R48 makes of them. -/
  lutBits    : BitVec 256
  /-- The code table (R55). -/
  lut        : CodeTable
  /-- WBYTE (R58). -/
  wbyte      : Byte
  /-- WPOS, 0 to 7 (R58). -/
  wpos       : Fin 8
  /-- NODE_ADDR (R49). -/
  nodeAddr   : BitVec 9
  /-- INQ, oldest byte first (R60). -/
  inq        : List Byte
  /-- OUTQ, oldest byte first (R60). -/
  outq       : List Byte
  /-- THE MODEL'S OWN: the open parameters (00_scope.md R10); no step changes them (log entry 3). -/
  params     : Params
  /-- THE MODEL'S OWN: RDATA of the last bus read (30_encoding.md R123; log entry 10). -/
  rdata      : Word
  /-- THE MODEL'S OWN: how many unspecified values have been read (40_host_interface.md R183; log entry 4). -/
  draws      : Nat
  /-- THE MODEL'S OWN: what the outside world does next, first event first (log entry 1). -/
  inputs     : List Input
deriving DecidableEq, Repr

/-- Why the machine could stop with a fault: never. The spec gives every command an end by `finish()` or `raise` and
calls an unmet host duty "a hang, not a fault" (40_host_interface.md R201; 60_exceptions.md R425), so no constructor. -/
inductive Fault
deriving DecidableEq, Repr

/-- Why a step has no meaning. -/
inductive Refusal
  /-- Raised by no arm of this model: the instruction has no meaning yet. Safe. -/
  | notModelled (mnemonic : String)
  /-- Raised by `step` for a host access with `addr[1:0]` not 0, which "a model refuses (gives them no meaning)"
  (20_memory.md R86; 93_implementation_defined.md U6). Safe. -/
  | misalignedAccess (addr : BitVec 8)
deriving DecidableEq, Repr

/-- The state after reset (70_reset_and_hazards.md R450). -/
def State.reset : State where
  cmdword    := 0
  engine     := .idle
  done       := false
  err        := false
  treeValid  := false
  outInvalid := false
  cmdOvr     := false
  inOvf      := false
  inEos      := false
  errcode    := .none
  errpos     := 0
  irqEn      := false
  irqPend    := false
  treeSize   := 0
  fileSizeLo := 0
  fileSizeHi := 0
  hdrMagic   := 0
  symcount   := 0
  outbytes   := 0
  arena      := []
  root       := 0
  stk        := []
  dstate     := .atRoot
  cur        := 0
  brByte     := 0
  brPos      := 8
  bitVal     := false
  bitEos     := false
  lutSym     := 0
  lutLen     := 0
  lutBits    := 0
  lut        := []
  wbyte      := 0
  wpos       := 0
  nodeAddr   := 0
  inq        := []
  outq       := []
  params     := Config.params
  rdata      := 0
  draws      := 0
  inputs     := []

end Sys2Proof.Machine
end

