-- ==== Sys2Proof/Machine/Ops.lean ====
section
/-! DEFINITION. The named operations every meaning is built from: command acceptance and the two ends of a command, the
stream primitives, the tree-load primitives, and the host's read and write forms. -/

namespace Sys2Proof.Machine

/-- What a meaning answers. -/
abbrev Result := Host.Outcome State Fault Refusal

/-! ## Views of the state -/

/-- STATUS.BUSY: the engine is not Idle (10_state.md R62). -/
def State.busy (s : State) : Bool :=
  match s.engine with
  | .idle => false
  | .running _ => true

/-- STATUS.CUR_OP: the OPCODE field of the last accepted command word (10_state.md R34). -/
def State.curOp (s : State) : Byte := s.cmdword.extractLsb' 0 8

/-- IN_DEPTH (00_scope.md R10). -/
def State.inDepth (s : State) : Nat := s.params.inDepthLess1.val + 1

/-- OUT_DEPTH (00_scope.md R10). -/
def State.outDepth (s : State) : Nat := s.params.outDepthLess1.val + 1

/-- NODE_COUNT (10_state.md R51). -/
def State.nodeCount (s : State) : Nat := s.arena.length

/-- SP (10_state.md R52). -/
def State.sp (s : State) : Nat := s.stk.length

/-- `ARENA[i]`; at or above NODE_COUNT an unspecified node (10_state.md R50). -/
def State.node (s : State) (i : NodeIdx) : Node := s.arena.getD i.toNat (Config.unwrittenNode i.toNat)

/-- FILE_SIZE = {FILE_SIZE_HI, FILE_SIZE_LO} (10_state.md R40). -/
def State.fileSize (s : State) : BitVec 64 := s.fileSizeHi ++ s.fileSizeLo

/-- The interrupt output (10_state.md R63). -/
def State.irq (s : State) : Bool := s.irqEn && s.irqPend

/-- STATUS.WAIT_IN: blocked in `InPop` on an empty input FIFO with IN_EOS = 0 (10_state.md R34, R62). -/
def State.waitIn (s : State) : Bool :=
  match s.engine with
  | .idle => false
  | .running p => p.isIn && s.inq.isEmpty && !s.inEos

/-- STATUS.WAIT_OUT: blocked in `OutPush` on a full output FIFO (10_state.md R34, R62). -/
def State.waitOut (s : State) : Bool :=
  match s.engine with
  | .idle => false
  | .running p => p.isOut && decide (s.outDepth ≤ s.outq.length)

/-! ## The engine: acceptance, the two ends of a command, control points -/

/-- A command word is accepted (40_host_interface.md R175). -/
def accept (w : Word) (s : State) : State :=
  { s with
    cmdword := w, engine := .running .start, done := false, err := false,
    errcode := .none, errpos := 0, outbytes := 0 }

/-- `finish()`: the command ends without error (40_host_interface.md R196). -/
def finish (s : State) : State :=
  { s with engine := .idle, done := true, irqPend := true }

/-- `raise E(pos)`: the command ends with an error; nothing of it runs after (60_exceptions.md R402, R403). -/
def raise (e : ErrCode) (pos : Word) (s : State) : State :=
  { s with
    errcode := e, errpos := pos, outInvalid := s.outInvalid || s.outbytes != 0,
    engine := .idle, err := true, irqPend := true }

/-- The engine stops before the primitive at control point `p` (40_host_interface.md R195). -/
def atPoint (p : Point) (s : State) : State := { s with engine := .running p }

/-- The one engine step of a command without control points: it runs from the start to its end. -/
def fromStart (f : State → State) (s : State) : State :=
  match s.engine with
  | .running .start => f s
  | _ => s

/-! ## Stream primitives -/

/-- `InPop()` and what runs after it: `eos` at end of stream, `byte b` with the popped byte. When it is not enabled the
engine has no step and the state stays (40_host_interface.md R192, R194). -/
def onInPop (s : State) (eos : State → State) (byte : Byte → State → State) : State :=
  match s.inq with
  | b :: q => byte b { s with inq := q }
  | [] => if s.inEos then eos s else s

/-- `OutPush(b)` and what runs after it. When it is not enabled the engine has no step and the state stays
(40_host_interface.md R193, R194). -/
def onOutPush (b : Byte) (s : State) (cont : State → State) : State :=
  if s.outq.length < s.outDepth then
    cont { s with outq := s.outq ++ [b], outbytes := s.outbytes + 1 }
  else s

/-- The next buffered bit, `BR_BYTE[BR_POS]`, and what runs with it (44_bitstream_reader.md R331). -/
def takeBit (s : State) (cont : Bool → State → State) : State :=
  cont (s.brByte.getLsbD s.brPos.val) { s with brPos := s.brPos + 1 }

/-- `read_bit()` up to its `InPop`, the control point `p` (44_bitstream_reader.md R331). -/
def readBit (p : Point) (s : State) (cont : Bool → State → State) : State :=
  if s.brPos = 8 then atPoint p s else takeBit s cont

/-- `read_bit()` from its `InPop` on (44_bitstream_reader.md R331). -/
def refillBit (s : State) (eos : State → State) (cont : Bool → State → State) : State :=
  onInPop s eos fun b s => takeBit { s with brByte := b, brPos := 0 } cont

/-- How many bits the bitstream reader holds buffered (10_state.md R57). -/
def bufferedBits (s : State) : Nat := 8 - s.brPos.val

/-! ## Tree-load primitives (42_tree_codec.md R263) -/

/-- NODE_CAP (00_scope.md R9). -/
def nodeCap : Nat := 511

/-- STACK_CAP (00_scope.md R9). -/
def stackCap : Nat := 256

/-- A tree byte index as an ERRPOS value. -/
def treePos (k : Nat) : Word := BitVec.ofNat 32 k

/-- `alloc(node, k)`: the new node's index is the old NODE_COUNT. -/
def alloc (n : Node) (k : Nat) (s : State) (cont : NodeIdx → State → State) : State :=
  if s.nodeCount = nodeCap then raise .treeNodeOverflow (treePos k) s
  else cont (BitVec.ofNat 9 s.nodeCount) { s with arena := s.arena ++ [n] }

/-- `push(n, k)`. -/
def push (n : NodeIdx) (k : Nat) (s : State) (cont : State → State) : State :=
  if s.sp = stackCap then raise .treeStackOverflow (treePos k) s
  else cont { s with stk := n :: s.stk }

/-- `pop()` behind its check `SP = 0` (R262). -/
def pop (k : Nat) (s : State) (cont : NodeIdx → State → State) : State :=
  match s.stk with
  | [] => raise .treeStackUnderflow (treePos k) s
  | n :: rest => cont n { s with stk := rest }

/-! ## The host's reads -/

/-- A read that returns `v` and has no side effect (20_memory.md R88). -/
def readExact (v : Word) (s : State) : Result := .next { s with rdata := v }

/-- A read of a write-only register or of an unmapped word (40_host_interface.md R171, R187). -/
def readZero (s : State) : Result := readExact 0 s

/-- A read of an engine-owned register whose value is `v`: exact while Idle, unspecified and drawn anew while
BUSY = 1 (40_host_interface.md R183; log entry 4). -/
def readEngineOwned (v : Word) (s : State) : Result :=
  .next (if s.busy then { s with rdata := Config.busyRead s.draws, draws := s.draws + 1 }
    else { s with rdata := v })

/-- OUT_DATA: pops a byte as `0x100 | b`, or returns 0 from an empty FIFO (40_host_interface.md R184). -/
def popOutData (s : State) : Result :=
  .next (match s.outq with
    | b :: q => { s with outq := q, rdata := (0 : BitVec 23) ++ (1 : BitVec 1) ++ b }
    | [] => { s with rdata := 0 })

/-! ## The host's writes -/

/-- A write of a read-only register or of an unmapped word (40_host_interface.md R171, R187). -/
def writeIgnored (s : State) : Result := .next s

/-- A write of an operand register: `s'` while Idle, dropped silently while BUSY = 1
(40_host_interface.md R180, R181). -/
def writeOperand (s' s : State) : Result := .next (if s.busy then s else s')

/-- CMD: accepted while Idle, else dropped with CMD_OVR (40_host_interface.md R175, R176). -/
def writeCmd (w : Word) (s : State) : Result :=
  .next (if s.busy then { s with cmdOvr := true } else accept w s)

/-- IN_DATA: pushed, or dropped with IN_OVF after end of stream or on a full FIFO
(40_host_interface.md R177, R178). -/
def pushInData (w : Word) (s : State) : Result :=
  .next (if s.inEos || decide (s.inDepth ≤ s.inq.length) then { s with inOvf := true }
    else { s with inq := s.inq ++ [w.extractLsb' 0 8] })

/-- IN_CTRL's actions while Idle: FLUSH_IN, FLUSH_OUT, CLR_EOS (40_host_interface.md R179). -/
def inCtrlIdle (w : Word) (s : State) : State :=
  { s with
    inq := if w.getLsbD 2 then [] else s.inq
    outq := if w.getLsbD 3 then [] else s.outq
    outInvalid := s.outInvalid && !w.getLsbD 3
    inEos := s.inEos && !w.getLsbD 1 }

/-- IN_CTRL: SET_EOS acts at any time and after the others (40_host_interface.md R179). -/
def writeInCtrl (w : Word) (s : State) : Result :=
  let s' := if s.busy then s else inCtrlIdle w s
  .next { s' with inEos := s'.inEos || w.getLsbD 0 }

/-! ## Reset as an event -/

/-- The platform's reset (70_reset_and_hazards.md R450, R451): all of the block's state; the open parameters and the
model's record of the outside world stay (log entry 14). -/
def platformReset (s : State) : State :=
  { State.reset with params := s.params, rdata := s.rdata, draws := s.draws, inputs := s.inputs }

end Sys2Proof.Machine
end

