-- ==== Sys2Proof/Machine/BitReader.lean ====
section
/-! DEFINITION. The bitstream reader's commands READ_BIT and BR_DISCARD (44_bitstream_reader.md). -/

namespace Sys2Proof.Machine

/-- READ_BIT's end with a bit (R340). -/
def bitRead (b : Bool) (s : State) : State := finish { s with bitEos := false, bitVal := b }

/-- READ_BIT's end at end of stream, which is no error (R335, R340). -/
def bitAtEos (s : State) : State := finish { s with bitEos := true, bitVal := false }

/-- One engine step of READ_BIT (R340). -/
def readBitStep (s : State) : State :=
  match s.engine with
  | .running .start => readBit .bitIn s bitRead
  | .running .bitIn => refillBit s bitAtEos bitRead
  | _ => s

/-- READ_BIT (R340). -/
def execReadBit (s : State) : Result := .next (readBitStep s)

/-- BR_DISCARD: the buffered bits are dropped and BR_BYTE kept (R345). -/
def execBrDiscard (s : State) : Result := .next (fromStart (fun s => finish { s with brPos := 8 }) s)

end Sys2Proof.Machine
end

