-- ==== Sys2Proof/Machine/Flags.lean ====
section
/-! DEFINITION. The STATUS word (10_state.md R34, 40_host_interface.md R174). How each flag changes is said once, in Ops:
DONE, ERR, OUT_INVALID and IRQ_PEND in `accept`, `finish` and `raise`; CMD_OVR in `writeCmd`; IN_OVF in `pushInData`;
IN_EOS in `writeInCtrl`; TREE_VALID in TREE_LOAD and CLEAR. -/

namespace Sys2Proof.Machine

/-- STATUS = `{0[31:24], CUR_OP[23:16], 0[15:10], WAIT_OUT, WAIT_IN, IN_EOS, IN_OVF, CMD_OVR, OUT_INVALID, TREE_VALID,
ERR, DONE, BUSY}` (R174). -/
def State.statusWord (s : State) : Word :=
  (0 : BitVec 8) ++ s.curOp ++ (0 : BitVec 6) ++ BitVec.ofBool s.waitOut ++ BitVec.ofBool s.waitIn ++
    BitVec.ofBool s.inEos ++ BitVec.ofBool s.inOvf ++ BitVec.ofBool s.cmdOvr ++ BitVec.ofBool s.outInvalid ++
    BitVec.ofBool s.treeValid ++ BitVec.ofBool s.err ++ BitVec.ofBool s.done ++ BitVec.ofBool s.busy

end Sys2Proof.Machine
end

