-- ==== Sys2Proof/Machine/Operands.lean ====
section
/-! DEFINITION. Register layouts: what each register reads as (40_host_interface.md R182, R188; 10_state.md), and the
operands commands assemble from registers (30_encoding.md R132). -/

namespace Sys2Proof.Machine

/-- Bits [31:0] of a 64-bit value: its `_LO` register (20_memory.md R84). -/
def lo32 (v : BitVec 64) : Word := v.extractLsb' 0 32

/-- Bits [63:32] of a 64-bit value: its `_HI` register (20_memory.md R84). -/
def hi32 (v : BitVec 64) : Word := v.extractLsb' 32 32

/-- LUT_BITSn: code bits 32·n + 31 .. 32·n (10_state.md R48). -/
def lutWord (b : BitVec 256) (n : Nat) : Word := b.extractLsb' (32 * n) 32

/-- LUT_BITS with LUT_BITSn replaced (10_state.md R48). -/
def setLutWord (b : BitVec 256) (n : Nat) (w : Word) : BitVec 256 :=
  (b &&& ~~~((BitVec.allOnes 32).setWidth 256 <<< (32 * n))) ||| (w.setWidth 256 <<< (32 * n))

/-- The tree length operand, `zext(TREE_SIZE)` (30_encoding.md R132). -/
def State.treeLen (s : State) : Nat := s.treeSize.toNat

/-- CTRL reads as `zext_32(IRQ_EN)` (40_host_interface.md R172). -/
def State.ctrlWord (s : State) : Word := (BitVec.ofBool s.irqEn).setWidth 32

/-- IRQ_STATUS reads as `zext_32(IRQ_PEND)` (40_host_interface.md R173). -/
def State.irqStatusWord (s : State) : Word := (BitVec.ofBool s.irqPend).setWidth 32

/-- TREE_SIZE, zero-extended (R182). -/
def State.treeSizeWord (s : State) : Word := s.treeSize.setWidth 32

/-- LUT_SYM, zero-extended (R182). -/
def State.lutSymWord (s : State) : Word := s.lutSym.setWidth 32

/-- NODE_ADDR, zero-extended (R182). -/
def State.nodeAddrWord (s : State) : Word := s.nodeAddr.setWidth 32

/-- ERRCODE, zero-extended (R188). -/
def State.errcodeWord (s : State) : Word := s.errcode.code.setWidth 32

/-- TREE_INFO = `{0[31:25], ROOT[24:16], 0[15:10], NODE_COUNT[9:0]}` (R188). -/
def State.treeInfoWord (s : State) : Word :=
  (0 : BitVec 7) ++ s.root ++ (0 : BitVec 6) ++ BitVec.ofNat 10 s.nodeCount

/-- DEC_STATE = `{0[31:25], CUR[24:16], 0[15:2], DSTATE[1:0]}` (R188). -/
def State.decStateWord (s : State) : Word :=
  (0 : BitVec 7) ++ s.cur ++ (0 : BitVec 14) ++ s.dstate.code

/-- BR_STATE = `{0[31:12], BR_POS[11:8], BR_BYTE[7:0]}` (R188). -/
def State.brStateWord (s : State) : Word :=
  (0 : BitVec 20) ++ BitVec.ofNat 4 s.brPos.val ++ s.brByte

/-- BIT_RESULT = `{0[31:2], EOS, BIT}` (R188). -/
def State.bitResultWord (s : State) : Word :=
  (0 : BitVec 30) ++ BitVec.ofBool s.bitEos ++ BitVec.ofBool s.bitVal

/-- LUT_LEN, zero-extended (R188). -/
def State.lutLenWord (s : State) : Word := s.lutLen.setWidth 32

/-- NODE_DATA: the node at NODE_ADDR when it is below NODE_COUNT, else 0 (10_state.md R49). -/
def State.nodeDataWord (s : State) : Word :=
  if s.nodeAddr.toNat < s.nodeCount then (s.node s.nodeAddr).word else 0

/-- FIFO_STATUS = `{len(OUTQ)[15:0], len(INQ)[15:0]}` (R185). -/
def State.fifoStatusWord (s : State) : Word :=
  BitVec.ofNat 16 s.outq.length ++ BitVec.ofNat 16 s.inq.length

end Sys2Proof.Machine
end

