-- ==== Sys2Proof/Machine/BusRead.lean ====
section
/-! DEFINITION. The host's bus reads: one meaning per register and per unmapped word. -/

namespace Sys2Proof.Machine

/-- Read of CMD (0x00), write-only: 0 (R171). -/
def execRdCmd (s : State) : Result := readZero s

/-- Read of STATUS (0x04), exact at all times (R174). -/
def execRdStatus (s : State) : Result := readExact s.statusWord s

/-- Read of ERRCODE (0x08), engine-owned (R183, R188). -/
def execRdErrcode (s : State) : Result := readEngineOwned s.errcodeWord s

/-- Read of ERRPOS (0x0C), engine-owned (R183, R188). -/
def execRdErrpos (s : State) : Result := readEngineOwned s.errpos s

/-- Read of CTRL (0x10), exact at all times (R172). -/
def execRdCtrl (s : State) : Result := readExact s.ctrlWord s

/-- Read of IRQ_STATUS (0x14), exact at all times (R173). -/
def execRdIrqStatus (s : State) : Result := readExact s.irqStatusWord s

/-- Read of TREE_SIZE (0x18), exact at all times (R182). -/
def execRdTreeSize (s : State) : Result := readExact s.treeSizeWord s

/-- Read of FILE_SIZE_LO (0x1C), exact at all times (R182). -/
def execRdFileSizeLo (s : State) : Result := readExact s.fileSizeLo s

/-- Read of FILE_SIZE_HI (0x20), exact at all times (R182). -/
def execRdFileSizeHi (s : State) : Result := readExact s.fileSizeHi s

/-- Read of HDR_MAGIC (0x24), exact at all times (R182). -/
def execRdHdrMagic (s : State) : Result := readExact s.hdrMagic s

/-- Read of SYMCOUNT_LO (0x28), engine-owned (R183, R188). -/
def execRdSymcountLo (s : State) : Result := readEngineOwned (lo32 s.symcount) s

/-- Read of SYMCOUNT_HI (0x2C), engine-owned (R183, R188). -/
def execRdSymcountHi (s : State) : Result := readEngineOwned (hi32 s.symcount) s

/-- Read of OUTBYTES_LO (0x30), engine-owned (R183, R188). -/
def execRdOutbytesLo (s : State) : Result := readEngineOwned (lo32 s.outbytes) s

/-- Read of OUTBYTES_HI (0x34), engine-owned (R183, R188). -/
def execRdOutbytesHi (s : State) : Result := readEngineOwned (hi32 s.outbytes) s

/-- Read of TREE_INFO (0x38), engine-owned (R183, R188). -/
def execRdTreeInfo (s : State) : Result := readEngineOwned s.treeInfoWord s

/-- Read of DEC_STATE (0x3C), engine-owned (R183, R188). -/
def execRdDecState (s : State) : Result := readEngineOwned s.decStateWord s

/-- Read of BR_STATE (0x40), engine-owned (R183, R188). -/
def execRdBrState (s : State) : Result := readEngineOwned s.brStateWord s

/-- Read of BIT_RESULT (0x44), engine-owned (R183, R188). -/
def execRdBitResult (s : State) : Result := readEngineOwned s.bitResultWord s

/-- Read of LUT_SYM (0x48), exact at all times (R182). -/
def execRdLutSym (s : State) : Result := readExact s.lutSymWord s

/-- Read of LUT_LEN (0x4C), engine-owned (R183, R188). -/
def execRdLutLen (s : State) : Result := readEngineOwned s.lutLenWord s

/-- Read of LUT_BITS0 (0x50), engine-owned (R183, R188). -/
def execRdLutBits0 (s : State) : Result := readEngineOwned (lutWord s.lutBits 0) s

/-- Read of LUT_BITS1 (0x54), engine-owned (R183, R188). -/
def execRdLutBits1 (s : State) : Result := readEngineOwned (lutWord s.lutBits 1) s

/-- Read of LUT_BITS2 (0x58), engine-owned (R183, R188). -/
def execRdLutBits2 (s : State) : Result := readEngineOwned (lutWord s.lutBits 2) s

/-- Read of LUT_BITS3 (0x5C), engine-owned (R183, R188). -/
def execRdLutBits3 (s : State) : Result := readEngineOwned (lutWord s.lutBits 3) s

/-- Read of LUT_BITS4 (0x60), engine-owned (R183, R188). -/
def execRdLutBits4 (s : State) : Result := readEngineOwned (lutWord s.lutBits 4) s

/-- Read of LUT_BITS5 (0x64), engine-owned (R183, R188). -/
def execRdLutBits5 (s : State) : Result := readEngineOwned (lutWord s.lutBits 5) s

/-- Read of LUT_BITS6 (0x68), engine-owned (R183, R188). -/
def execRdLutBits6 (s : State) : Result := readEngineOwned (lutWord s.lutBits 6) s

/-- Read of LUT_BITS7 (0x6C), engine-owned (R183, R188). -/
def execRdLutBits7 (s : State) : Result := readEngineOwned (lutWord s.lutBits 7) s

/-- Read of IN_DATA (0x70), write-only: 0 (R171). -/
def execRdInData (s : State) : Result := readZero s

/-- Read of IN_CTRL (0x74), write-only: 0 (R171). -/
def execRdInCtrl (s : State) : Result := readZero s

/-- Read of OUT_DATA (0x78): pops a byte (R184). -/
def execRdOutData (s : State) : Result := popOutData s

/-- Read of FIFO_STATUS (0x7C), exact at all times (R185). -/
def execRdFifoStatus (s : State) : Result := readExact s.fifoStatusWord s

/-- Read of NODE_ADDR (0x80), exact at all times (R182). -/
def execRdNodeAddr (s : State) : Result := readExact s.nodeAddrWord s

/-- Read of NODE_DATA (0x84), engine-owned (R183, R188). -/
def execRdNodeData (s : State) : Result := readEngineOwned s.nodeDataWord s

/-- Read of 0x88 (0x88), an unmapped word: 0 (R187). -/
def execRd0x88 (s : State) : Result := readZero s

/-- Read of 0x8C (0x8C), an unmapped word: 0 (R187). -/
def execRd0x8C (s : State) : Result := readZero s

/-- Read of 0x90 (0x90), an unmapped word: 0 (R187). -/
def execRd0x90 (s : State) : Result := readZero s

/-- Read of 0x94 (0x94), an unmapped word: 0 (R187). -/
def execRd0x94 (s : State) : Result := readZero s

/-- Read of 0x98 (0x98), an unmapped word: 0 (R187). -/
def execRd0x98 (s : State) : Result := readZero s

/-- Read of 0x9C (0x9C), an unmapped word: 0 (R187). -/
def execRd0x9C (s : State) : Result := readZero s

/-- Read of 0xA0 (0xA0), an unmapped word: 0 (R187). -/
def execRd0xA0 (s : State) : Result := readZero s

/-- Read of 0xA4 (0xA4), an unmapped word: 0 (R187). -/
def execRd0xA4 (s : State) : Result := readZero s

/-- Read of 0xA8 (0xA8), an unmapped word: 0 (R187). -/
def execRd0xA8 (s : State) : Result := readZero s

/-- Read of 0xAC (0xAC), an unmapped word: 0 (R187). -/
def execRd0xAC (s : State) : Result := readZero s

/-- Read of 0xB0 (0xB0), an unmapped word: 0 (R187). -/
def execRd0xB0 (s : State) : Result := readZero s

/-- Read of 0xB4 (0xB4), an unmapped word: 0 (R187). -/
def execRd0xB4 (s : State) : Result := readZero s

/-- Read of 0xB8 (0xB8), an unmapped word: 0 (R187). -/
def execRd0xB8 (s : State) : Result := readZero s

/-- Read of 0xBC (0xBC), an unmapped word: 0 (R187). -/
def execRd0xBC (s : State) : Result := readZero s

/-- Read of 0xC0 (0xC0), an unmapped word: 0 (R187). -/
def execRd0xC0 (s : State) : Result := readZero s

/-- Read of 0xC4 (0xC4), an unmapped word: 0 (R187). -/
def execRd0xC4 (s : State) : Result := readZero s

/-- Read of 0xC8 (0xC8), an unmapped word: 0 (R187). -/
def execRd0xC8 (s : State) : Result := readZero s

/-- Read of 0xCC (0xCC), an unmapped word: 0 (R187). -/
def execRd0xCC (s : State) : Result := readZero s

/-- Read of 0xD0 (0xD0), an unmapped word: 0 (R187). -/
def execRd0xD0 (s : State) : Result := readZero s

/-- Read of 0xD4 (0xD4), an unmapped word: 0 (R187). -/
def execRd0xD4 (s : State) : Result := readZero s

/-- Read of 0xD8 (0xD8), an unmapped word: 0 (R187). -/
def execRd0xD8 (s : State) : Result := readZero s

/-- Read of 0xDC (0xDC), an unmapped word: 0 (R187). -/
def execRd0xDC (s : State) : Result := readZero s

/-- Read of 0xE0 (0xE0), an unmapped word: 0 (R187). -/
def execRd0xE0 (s : State) : Result := readZero s

/-- Read of 0xE4 (0xE4), an unmapped word: 0 (R187). -/
def execRd0xE4 (s : State) : Result := readZero s

/-- Read of 0xE8 (0xE8), an unmapped word: 0 (R187). -/
def execRd0xE8 (s : State) : Result := readZero s

/-- Read of 0xEC (0xEC), an unmapped word: 0 (R187). -/
def execRd0xEC (s : State) : Result := readZero s

/-- Read of 0xF0 (0xF0), an unmapped word: 0 (R187). -/
def execRd0xF0 (s : State) : Result := readZero s

/-- Read of 0xF4 (0xF4), an unmapped word: 0 (R187). -/
def execRd0xF4 (s : State) : Result := readZero s

/-- Read of 0xF8 (0xF8), an unmapped word: 0 (R187). -/
def execRd0xF8 (s : State) : Result := readZero s

/-- Read of 0xFC (0xFC), an unmapped word: 0 (R187). -/
def execRd0xFC (s : State) : Result := readZero s

end Sys2Proof.Machine
end

