-- ==== Sys2Proof/Machine/BusWrite.lean ====
section
/-! DEFINITION. The host's bus writes: one meaning per register and per unmapped word. -/

namespace Sys2Proof.Machine

/-- Write of CMD (0x00) (R175, R176). -/
def execWrCmd (w : Word) (s : State) : Result := writeCmd w s

/-- Write of STATUS (0x04), read-only: no effect (R171). -/
def execWrStatus (_w : Word) (s : State) : Result := writeIgnored s

/-- Write of ERRCODE (0x08), read-only: no effect (R171). -/
def execWrErrcode (_w : Word) (s : State) : Result := writeIgnored s

/-- Write of ERRPOS (0x0C), read-only: no effect (R171). -/
def execWrErrpos (_w : Word) (s : State) : Result := writeIgnored s

/-- Write of CTRL (0x10) (R172). -/
def execWrCtrl (w : Word) (s : State) : Result := .next { s with irqEn := w.getLsbD 0 }

/-- Write of IRQ_STATUS (0x14) (R173). -/
def execWrIrqStatus (w : Word) (s : State) : Result := .next { s with irqPend := s.irqPend && !w.getLsbD 0 }

/-- Write of TREE_SIZE (0x18) (R180, R181). -/
def execWrTreeSize (w : Word) (s : State) : Result := writeOperand { s with treeSize := w.extractLsb' 0 16 } s

/-- Write of FILE_SIZE_LO (0x1C) (R180, R181). -/
def execWrFileSizeLo (w : Word) (s : State) : Result := writeOperand { s with fileSizeLo := w } s

/-- Write of FILE_SIZE_HI (0x20) (R180, R181). -/
def execWrFileSizeHi (w : Word) (s : State) : Result := writeOperand { s with fileSizeHi := w } s

/-- Write of HDR_MAGIC (0x24) (R180, R181). -/
def execWrHdrMagic (w : Word) (s : State) : Result := writeOperand { s with hdrMagic := w } s

/-- Write of SYMCOUNT_LO (0x28), read-only: no effect (R171). -/
def execWrSymcountLo (_w : Word) (s : State) : Result := writeIgnored s

/-- Write of SYMCOUNT_HI (0x2C), read-only: no effect (R171). -/
def execWrSymcountHi (_w : Word) (s : State) : Result := writeIgnored s

/-- Write of OUTBYTES_LO (0x30), read-only: no effect (R171). -/
def execWrOutbytesLo (_w : Word) (s : State) : Result := writeIgnored s

/-- Write of OUTBYTES_HI (0x34), read-only: no effect (R171). -/
def execWrOutbytesHi (_w : Word) (s : State) : Result := writeIgnored s

/-- Write of TREE_INFO (0x38), read-only: no effect (R171). -/
def execWrTreeInfo (_w : Word) (s : State) : Result := writeIgnored s

/-- Write of DEC_STATE (0x3C), read-only: no effect (R171). -/
def execWrDecState (_w : Word) (s : State) : Result := writeIgnored s

/-- Write of BR_STATE (0x40), read-only: no effect (R171). -/
def execWrBrState (_w : Word) (s : State) : Result := writeIgnored s

/-- Write of BIT_RESULT (0x44), read-only: no effect (R171). -/
def execWrBitResult (_w : Word) (s : State) : Result := writeIgnored s

/-- Write of LUT_SYM (0x48) (R180, R181). -/
def execWrLutSym (w : Word) (s : State) : Result := writeOperand { s with lutSym := w.extractLsb' 0 8 } s

/-- Write of LUT_LEN (0x4C) (R180, R181). -/
def execWrLutLen (w : Word) (s : State) : Result := writeOperand { s with lutLen := w.extractLsb' 0 9 } s

/-- Write of LUT_BITS0 (0x50) (R180, R181). -/
def execWrLutBits0 (w : Word) (s : State) : Result := writeOperand { s with lutBits := setLutWord s.lutBits 0 w } s

/-- Write of LUT_BITS1 (0x54) (R180, R181). -/
def execWrLutBits1 (w : Word) (s : State) : Result := writeOperand { s with lutBits := setLutWord s.lutBits 1 w } s

/-- Write of LUT_BITS2 (0x58) (R180, R181). -/
def execWrLutBits2 (w : Word) (s : State) : Result := writeOperand { s with lutBits := setLutWord s.lutBits 2 w } s

/-- Write of LUT_BITS3 (0x5C) (R180, R181). -/
def execWrLutBits3 (w : Word) (s : State) : Result := writeOperand { s with lutBits := setLutWord s.lutBits 3 w } s

/-- Write of LUT_BITS4 (0x60) (R180, R181). -/
def execWrLutBits4 (w : Word) (s : State) : Result := writeOperand { s with lutBits := setLutWord s.lutBits 4 w } s

/-- Write of LUT_BITS5 (0x64) (R180, R181). -/
def execWrLutBits5 (w : Word) (s : State) : Result := writeOperand { s with lutBits := setLutWord s.lutBits 5 w } s

/-- Write of LUT_BITS6 (0x68) (R180, R181). -/
def execWrLutBits6 (w : Word) (s : State) : Result := writeOperand { s with lutBits := setLutWord s.lutBits 6 w } s

/-- Write of LUT_BITS7 (0x6C) (R180, R181). -/
def execWrLutBits7 (w : Word) (s : State) : Result := writeOperand { s with lutBits := setLutWord s.lutBits 7 w } s

/-- Write of IN_DATA (0x70) (R177, R178). -/
def execWrInData (w : Word) (s : State) : Result := pushInData w s

/-- Write of IN_CTRL (0x74) (R179). -/
def execWrInCtrl (w : Word) (s : State) : Result := writeInCtrl w s

/-- Write of OUT_DATA (0x78), read-only: no effect (R171). -/
def execWrOutData (_w : Word) (s : State) : Result := writeIgnored s

/-- Write of FIFO_STATUS (0x7C), read-only: no effect (R171). -/
def execWrFifoStatus (_w : Word) (s : State) : Result := writeIgnored s

/-- Write of NODE_ADDR (0x80) (R186). -/
def execWrNodeAddr (w : Word) (s : State) : Result := .next { s with nodeAddr := w.extractLsb' 0 9 }

/-- Write of NODE_DATA (0x84), read-only: no effect (R171). -/
def execWrNodeData (_w : Word) (s : State) : Result := writeIgnored s

/-- Write of 0x88, an unmapped word: no effect (R187). -/
def execWr0x88 (_w : Word) (s : State) : Result := writeIgnored s

/-- Write of 0x8C, an unmapped word: no effect (R187). -/
def execWr0x8C (_w : Word) (s : State) : Result := writeIgnored s

/-- Write of 0x90, an unmapped word: no effect (R187). -/
def execWr0x90 (_w : Word) (s : State) : Result := writeIgnored s

/-- Write of 0x94, an unmapped word: no effect (R187). -/
def execWr0x94 (_w : Word) (s : State) : Result := writeIgnored s

/-- Write of 0x98, an unmapped word: no effect (R187). -/
def execWr0x98 (_w : Word) (s : State) : Result := writeIgnored s

/-- Write of 0x9C, an unmapped word: no effect (R187). -/
def execWr0x9C (_w : Word) (s : State) : Result := writeIgnored s

/-- Write of 0xA0, an unmapped word: no effect (R187). -/
def execWr0xA0 (_w : Word) (s : State) : Result := writeIgnored s

/-- Write of 0xA4, an unmapped word: no effect (R187). -/
def execWr0xA4 (_w : Word) (s : State) : Result := writeIgnored s

/-- Write of 0xA8, an unmapped word: no effect (R187). -/
def execWr0xA8 (_w : Word) (s : State) : Result := writeIgnored s

/-- Write of 0xAC, an unmapped word: no effect (R187). -/
def execWr0xAC (_w : Word) (s : State) : Result := writeIgnored s

/-- Write of 0xB0, an unmapped word: no effect (R187). -/
def execWr0xB0 (_w : Word) (s : State) : Result := writeIgnored s

/-- Write of 0xB4, an unmapped word: no effect (R187). -/
def execWr0xB4 (_w : Word) (s : State) : Result := writeIgnored s

/-- Write of 0xB8, an unmapped word: no effect (R187). -/
def execWr0xB8 (_w : Word) (s : State) : Result := writeIgnored s

/-- Write of 0xBC, an unmapped word: no effect (R187). -/
def execWr0xBC (_w : Word) (s : State) : Result := writeIgnored s

/-- Write of 0xC0, an unmapped word: no effect (R187). -/
def execWr0xC0 (_w : Word) (s : State) : Result := writeIgnored s

/-- Write of 0xC4, an unmapped word: no effect (R187). -/
def execWr0xC4 (_w : Word) (s : State) : Result := writeIgnored s

/-- Write of 0xC8, an unmapped word: no effect (R187). -/
def execWr0xC8 (_w : Word) (s : State) : Result := writeIgnored s

/-- Write of 0xCC, an unmapped word: no effect (R187). -/
def execWr0xCC (_w : Word) (s : State) : Result := writeIgnored s

/-- Write of 0xD0, an unmapped word: no effect (R187). -/
def execWr0xD0 (_w : Word) (s : State) : Result := writeIgnored s

/-- Write of 0xD4, an unmapped word: no effect (R187). -/
def execWr0xD4 (_w : Word) (s : State) : Result := writeIgnored s

/-- Write of 0xD8, an unmapped word: no effect (R187). -/
def execWr0xD8 (_w : Word) (s : State) : Result := writeIgnored s

/-- Write of 0xDC, an unmapped word: no effect (R187). -/
def execWr0xDC (_w : Word) (s : State) : Result := writeIgnored s

/-- Write of 0xE0, an unmapped word: no effect (R187). -/
def execWr0xE0 (_w : Word) (s : State) : Result := writeIgnored s

/-- Write of 0xE4, an unmapped word: no effect (R187). -/
def execWr0xE4 (_w : Word) (s : State) : Result := writeIgnored s

/-- Write of 0xE8, an unmapped word: no effect (R187). -/
def execWr0xE8 (_w : Word) (s : State) : Result := writeIgnored s

/-- Write of 0xEC, an unmapped word: no effect (R187). -/
def execWr0xEC (_w : Word) (s : State) : Result := writeIgnored s

/-- Write of 0xF0, an unmapped word: no effect (R187). -/
def execWr0xF0 (_w : Word) (s : State) : Result := writeIgnored s

/-- Write of 0xF4, an unmapped word: no effect (R187). -/
def execWr0xF4 (_w : Word) (s : State) : Result := writeIgnored s

/-- Write of 0xF8, an unmapped word: no effect (R187). -/
def execWr0xF8 (_w : Word) (s : State) : Result := writeIgnored s

/-- Write of 0xFC, an unmapped word: no effect (R187). -/
def execWr0xFC (_w : Word) (s : State) : Result := writeIgnored s

end Sys2Proof.Machine
end

