-- ==== Sys2Proof/Machine/CodeTable.lean ====
section
/-! DEFINITION. The code table commands LUT_WRITE, LUT_READ and LUT_BUILD (41_code_table.md). -/

namespace Sys2Proof.Machine

/-- LUT_WRITE's step (R225). -/
def lutWriteBody (s : State) : State :=
  if s.lutLen.toNat ≤ 256 then
    finish { s with lut := s.lut.set s.lutSym ⟨s.lutLen, s.lutBits &&& mask s.lutLen.toNat⟩ }
  else raise .lutBadLen (s.lutLen.setWidth 32) s

/-- LUT_WRITE (R225). -/
def execLutWrite (s : State) : Result := .next (fromStart lutWriteBody s)

/-- LUT_READ's step (R230). -/
def lutReadBody (s : State) : State :=
  let c := s.lut.get s.lutSym
  finish { s with lutLen := c.len, lutBits := c.bits }

/-- LUT_READ (R230). -/
def execLutRead (s : State) : Result := .next (fromStart lutReadBody s)

/-- `walk(i, path)` of R240 on the table `t`: left subtree before right, so that a later leaf overwrites an earlier one
of the same symbol. `fuel` bounds the depth; NODE_CAP is enough for every held tree, since a child's index is below
its parent's (10_state.md R53; log entry 8). -/
def codeWalk (s : State) : Nat → NodeIdx → List Bool → CodeTable → CodeTable
  | 0, _, _, t => t
  | fuel + 1, i, path, t =>
    let n := s.node i
    if n.leaf then t.set n.sym (Code.ofPath path)
    else codeWalk s fuel n.right (path ++ [true]) (codeWalk s fuel n.left (path ++ [false]) t)

/-- LUT_BUILD's step: its checks come before the table is cleared (R240, 92_eei_decisions.md D22). -/
def lutBuildBody (s : State) : State :=
  if s.treeValid then
    if (s.node s.root).leaf then raise .degenerateTree 0 s
    else finish { s with lut := codeWalk s nodeCap s.root [] [] }
  else raise .noTree 0 s

/-- LUT_BUILD (R240). -/
def execLutBuild (s : State) : Result := .next (fromStart lutBuildBody s)

end Sys2Proof.Machine
end

