-- ==== Sys2Proof/Machine/Control.lean ====
section
/-! DEFINITION. The control commands NOP and CLEAR, and reserved command words (40_host_interface.md R197 to R199). -/

namespace Sys2Proof.Machine

/-- NOP: only `finish()` (R198). -/
def execNop (s : State) : Result := .next (fromStart finish s)

/-- What CLEAR clears before its `finish()` (R199). -/
def clearState (s : State) : State :=
  { s with
    treeValid := false, arena := [], root := 0, stk := [],
    lut := [], brByte := 0, brPos := 8, wbyte := 0, wpos := 0,
    dstate := .atRoot, cur := 0, symcount := 0, bitEos := false, bitVal := false,
    outInvalid := false, cmdOvr := false, inOvf := false }

/-- CLEAR (R199). -/
def execClear (s : State) : Result := .next (fromStart (fun s => finish (clearState s)) s)

/-- A reserved command word: its first step raises BAD_COMMAND with the whole word as position (R197). -/
def execReserved (w : Word) (s : State) : Result := .next (fromStart (raise .badCommand w) s)

end Sys2Proof.Machine
end

