-- ==== Sys2Proof/Machine/TreeCodec.lean ====
section
/-! DEFINITION. The tree serialization codec: TREE_LOAD and TREE_STORE (42_tree_codec.md). TREE_LOAD's parts take what
runs after a complete tree, `finish` or DECODE_STREAM's decode part (45_decoder.md R380). -/

namespace Sys2Proof.Machine

/-- TOKEN_LEAF, `'L'` (00_scope.md R9; log entry 16). -/
def tokenLeaf : Byte := 0x4C

/-- TOKEN_INTERIOR, `'I'` (00_scope.md R9; log entry 16). -/
def tokenInterior : Byte := 0x49

/-- After TREE_SIZE bytes: exactly one item must remain, and is the root (R262). -/
def treeLoadEnd (loaded : State → State) (s : State) : State :=
  match s.stk with
  | [r] => loaded { s with root := r, stk := [], treeValid := true }
  | _ => raise .treeNotSingleRoot (BitVec.ofNat 32 s.sp) s

/-- The loop head `while k < T` (R262). -/
def treeLoadLoop (loaded : State → State) (k : Nat) (s : State) : State :=
  if k < s.treeLen then atPoint (.treeTag k) s else treeLoadEnd loaded s

/-- TREE_LOAD from its start to its first control point (R261, R262). -/
def treeLoadBegin (loaded : State → State) (s : State) : State :=
  treeLoadLoop loaded 0 { s with brPos := 8, treeValid := false, arena := [], root := 0, stk := [] }

/-- An Interior token at index `k`: the first pop is the right child, the second the left (R262, R267). -/
def treeInterior (loaded : State → State) (k : Nat) (s : State) : State :=
  pop k s fun r s => pop k s fun l s =>
    alloc (Node.mkInterior l r) k s fun n s => push n k s (treeLoadLoop loaded (k + 1))

/-- The step at `t <- InPop()` with tree byte index `k` (R262). -/
def treeTagStep (loaded : State → State) (k : Nat) (s : State) : State :=
  onInPop s (raise .treeEos (treePos k)) fun t s =>
    if t = tokenLeaf then
      if k + 1 = s.treeLen then raise .treeLeafTruncated (treePos k) s else atPoint (.treeSym k) s
    else if t = tokenInterior then treeInterior loaded k s
    else raise .treeBadToken (treePos k) s

/-- The step at `s <- InPop()` of the Leaf token at index `k` (R262). -/
def treeSymStep (loaded : State → State) (k : Nat) (s : State) : State :=
  onInPop s (raise .treeEos (treePos (k + 1))) fun b s =>
    alloc (Node.mkLeaf b) k s fun n s => push n k s (treeLoadLoop loaded (k + 2))

/-- One engine step of TREE_LOAD. -/
def treeLoadStep (s : State) : State :=
  match s.engine with
  | .running .start => treeLoadBegin finish s
  | .running (.treeTag k) => treeTagStep finish k s
  | .running (.treeSym k) => treeSymStep finish k s
  | _ => s

/-- TREE_LOAD (R262). -/
def execTreeLoad (s : State) : Result := .next (treeLoadStep s)

/-- The bytes `post(i)` pushes, in order (R280). The tree cannot change while TREE_STORE runs (00_scope.md R7), so they
are listed once, at its first step, and the control points are the positions in the list (log entry 7). `fuel` bounds
the depth as in `codeWalk` (log entry 8). -/
def postBytes (s : State) : Nat → NodeIdx → List Byte
  | 0, _ => []
  | fuel + 1, i =>
    let n := s.node i
    if n.leaf then [tokenLeaf, n.sym]
    else postBytes s fuel n.left ++ postBytes s fuel n.right ++ [tokenInterior]

/-- Go on to the next `OutPush` of the walk, or to `finish()` (R280). -/
def treeStoreNext (bytes : List Byte) (s : State) : State :=
  match bytes with
  | [] => finish s
  | b :: rest => atPoint (.treeOut b rest) s

/-- One engine step of TREE_STORE (R280). -/
def treeStoreStep (s : State) : State :=
  match s.engine with
  | .running .start =>
    if s.treeValid then treeStoreNext (postBytes s nodeCap s.root) s else raise .noTree 0 s
  | .running (.treeOut b rest) => onOutPush b s (treeStoreNext rest)
  | _ => s

/-- TREE_STORE (R280). -/
def execTreeStore (s : State) : Result := .next (treeStoreStep s)

end Sys2Proof.Machine
end

