-- ==== Sys2Proof/Machine/Decoder.lean ====
section
/-! DEFINITION. The tree-walk decoder: MAGIC_CHECK, DECODE and DECODE_STREAM (45_decoder.md). -/

namespace Sys2Proof.Machine

/-- The magic check and what runs when it passes (R362). -/
def checkMagic (cont : State → State) (s : State) : State :=
  if s.hdrMagic = s.params.magic then cont s else raise .badMagic s.hdrMagic s

/-- MAGIC_CHECK (R362). -/
def execMagicCheck (s : State) : Result := .next (fromStart (checkMagic finish) s)

/-- The two tests at the head of DECODE's loop: the count is reached, or the current node is a leaf, which only a
degenerate tree's root can be (R365, R369). -/
def decodeCheck (s : State) (cont : State → State) : State :=
  if s.symcount = s.fileSize then finish { s with dstate := .done }
  else if (s.node s.cur).leaf then raise .degenerateTree 0 s
  else cont s

/-- A bit is read: descend to the child it selects; a leaf is emitted next, else the loop goes on (R365). -/
def descend (b : Bool) (s : State) (loop : State → State) : State :=
  let n := s.node s.cur
  let s := { s with cur := if b then n.right else n.left }
  if (s.node s.cur).leaf then atPoint .decodeOut s else loop { s with dstate := .descending }

/-- DECODE's loop from its head to its next control point. The number is that of the buffered bits, so that at 0
`read_bit` is at its `InPop` (R365). -/
def decodeLoop : Nat → State → State
  | 0, s => decodeCheck s (atPoint .decodeIn)
  | n + 1, s => decodeCheck s fun s => readBit .decodeIn s fun b s => descend b s (decodeLoop n)

/-- DECODE from its start to its first control point (R365). -/
def decodeBegin (s : State) : State :=
  if s.treeValid then
    decodeLoop (bufferedBits s) { s with symcount := 0, cur := s.root, dstate := .atRoot }
  else raise .noTree 0 s

/-- The step at DECODE's `InPop`; after it 7 bits stay buffered (R365). -/
def decodeInStep (s : State) : State :=
  refillBit s (fun s => raise .decodeEos (s.dstate.code.setWidth 32) s) fun b s => descend b s (decodeLoop 7)

/-- The step at DECODE's `OutPush` of the leaf's symbol (R365). -/
def decodeOutStep (s : State) : State :=
  onOutPush (s.node s.cur).sym s fun s =>
    decodeLoop (bufferedBits s) { s with symcount := s.symcount + 1, cur := s.root, dstate := .atRoot }

/-- One engine step of DECODE. -/
def decodeStep (s : State) : State :=
  match s.engine with
  | .running .start => decodeBegin s
  | .running .decodeIn => decodeInStep s
  | .running .decodeOut => decodeOutStep s
  | _ => s

/-- DECODE (R365). -/
def execDecode (s : State) : Result := .next (decodeStep s)

/-- One engine step of DECODE_STREAM: the magic check, TREE_LOAD's body without its `finish()`, DECODE's body (R380). -/
def decodeStreamStep (s : State) : State :=
  match s.engine with
  | .running .start => checkMagic (treeLoadBegin decodeBegin) s
  | .running (.treeTag k) => treeTagStep decodeBegin k s
  | .running (.treeSym k) => treeSymStep decodeBegin k s
  | .running .decodeIn => decodeInStep s
  | .running .decodeOut => decodeOutStep s
  | _ => s

/-- DECODE_STREAM (R380). -/
def execDecodeStream (s : State) : Result := .next (decodeStreamStep s)

end Sys2Proof.Machine
end

