-- ==== Sys2Proof/Machine/Encoder.lean ====
section
/-! DEFINITION. The encode path: the bit packer and ENCODE (43_encoder_bitpacker.md). -/

namespace Sys2Proof.Machine

/-- The bit packer emptied. -/
def clearPacker (s : State) : State := { s with wbyte := 0, wpos := 0 }

/-- `WBYTE OR (b << WPOS)` (R301). -/
def placeBit (b : Bool) (s : State) : State :=
  { s with wbyte := s.wbyte ||| ((BitVec.ofBool b).setWidth 8 <<< s.wpos.val) }

/-- `put_bit` of each bit of a code in order, up to the `OutPush` of a full byte; after the last bit the symbol is
counted and the next byte awaited (R301, R303). -/
def putBits : List Bool → State → State
  | [], s => atPoint .encIn { s with symcount := s.symcount + 1 }
  | b :: rest, s =>
    let s := placeBit b s
    if s.wpos = 7 then atPoint (.encOut rest) s else putBits rest { s with wpos := s.wpos + 1 }

/-- What ENCODE does with an input byte: its code's bits, or LUT_MISS with the partial byte discarded (R303, R306). -/
def encodeByte (c : Byte) (s : State) : State :=
  let e := s.lut.get c
  if e.len = 0 then raise .lutMiss (c.setWidth 32) (clearPacker s) else putBits e.toBits s

/-- What ENCODE does at end of stream: the final flush, if bits remain (R303, R305). -/
def encodeEnd (s : State) : State := if s.wpos = 0 then finish s else atPoint .encFlush s

/-- One engine step of ENCODE (R303). -/
def encodeStep (s : State) : State :=
  match s.engine with
  | .running .start => atPoint .encIn (clearPacker { s with brPos := 8, symcount := 0 })
  | .running .encIn => onInPop s encodeEnd encodeByte
  | .running (.encOut rest) => onOutPush s.wbyte s fun s => putBits rest (clearPacker s)
  | .running .encFlush => onOutPush s.wbyte s fun s => finish (clearPacker s)
  | _ => s

/-- ENCODE (R303). -/
def execEncode (s : State) : Result := .next (encodeStep s)

end Sys2Proof.Machine
end

