-- ==== Sys2Proof/Machine/Dispatch.lean ====
section
/-! DEFINITION. The meaning of every instruction, one arm per row of spec/opcode_table.json. -/

namespace Sys2Proof.Machine

def exec (i : Instr) (s : State) : Host.Outcome State Fault Refusal :=
  match i with
  | .nop => Sys2Proof.Machine.execNop s
  | .clear => Sys2Proof.Machine.execClear s
  | .lutWrite => Sys2Proof.Machine.execLutWrite s
  | .lutRead => Sys2Proof.Machine.execLutRead s
  | .lutBuild => Sys2Proof.Machine.execLutBuild s
  | .treeLoad => Sys2Proof.Machine.execTreeLoad s
  | .treeStore => Sys2Proof.Machine.execTreeStore s
  | .encode => Sys2Proof.Machine.execEncode s
  | .readBit => Sys2Proof.Machine.execReadBit s
  | .brDiscard => Sys2Proof.Machine.execBrDiscard s
  | .magicCheck => Sys2Proof.Machine.execMagicCheck s
  | .decode => Sys2Proof.Machine.execDecode s
  | .decodeStream => Sys2Proof.Machine.execDecodeStream s
  | .reserved w => Sys2Proof.Machine.execReserved w s
  | .rdCmd => Sys2Proof.Machine.execRdCmd s
  | .wrCmd w => Sys2Proof.Machine.execWrCmd w s
  | .rdStatus => Sys2Proof.Machine.execRdStatus s
  | .wrStatus w => Sys2Proof.Machine.execWrStatus w s
  | .rdErrcode => Sys2Proof.Machine.execRdErrcode s
  | .wrErrcode w => Sys2Proof.Machine.execWrErrcode w s
  | .rdErrpos => Sys2Proof.Machine.execRdErrpos s
  | .wrErrpos w => Sys2Proof.Machine.execWrErrpos w s
  | .rdCtrl => Sys2Proof.Machine.execRdCtrl s
  | .wrCtrl w => Sys2Proof.Machine.execWrCtrl w s
  | .rdIrqStatus => Sys2Proof.Machine.execRdIrqStatus s
  | .wrIrqStatus w => Sys2Proof.Machine.execWrIrqStatus w s
  | .rdTreeSize => Sys2Proof.Machine.execRdTreeSize s
  | .wrTreeSize w => Sys2Proof.Machine.execWrTreeSize w s
  | .rdFileSizeLo => Sys2Proof.Machine.execRdFileSizeLo s
  | .wrFileSizeLo w => Sys2Proof.Machine.execWrFileSizeLo w s
  | .rdFileSizeHi => Sys2Proof.Machine.execRdFileSizeHi s
  | .wrFileSizeHi w => Sys2Proof.Machine.execWrFileSizeHi w s
  | .rdHdrMagic => Sys2Proof.Machine.execRdHdrMagic s
  | .wrHdrMagic w => Sys2Proof.Machine.execWrHdrMagic w s
  | .rdSymcountLo => Sys2Proof.Machine.execRdSymcountLo s
  | .wrSymcountLo w => Sys2Proof.Machine.execWrSymcountLo w s
  | .rdSymcountHi => Sys2Proof.Machine.execRdSymcountHi s
  | .wrSymcountHi w => Sys2Proof.Machine.execWrSymcountHi w s
  | .rdOutbytesLo => Sys2Proof.Machine.execRdOutbytesLo s
  | .wrOutbytesLo w => Sys2Proof.Machine.execWrOutbytesLo w s
  | .rdOutbytesHi => Sys2Proof.Machine.execRdOutbytesHi s
  | .wrOutbytesHi w => Sys2Proof.Machine.execWrOutbytesHi w s
  | .rdTreeInfo => Sys2Proof.Machine.execRdTreeInfo s
  | .wrTreeInfo w => Sys2Proof.Machine.execWrTreeInfo w s
  | .rdDecState => Sys2Proof.Machine.execRdDecState s
  | .wrDecState w => Sys2Proof.Machine.execWrDecState w s
  | .rdBrState => Sys2Proof.Machine.execRdBrState s
  | .wrBrState w => Sys2Proof.Machine.execWrBrState w s
  | .rdBitResult => Sys2Proof.Machine.execRdBitResult s
  | .wrBitResult w => Sys2Proof.Machine.execWrBitResult w s
  | .rdLutSym => Sys2Proof.Machine.execRdLutSym s
  | .wrLutSym w => Sys2Proof.Machine.execWrLutSym w s
  | .rdLutLen => Sys2Proof.Machine.execRdLutLen s
  | .wrLutLen w => Sys2Proof.Machine.execWrLutLen w s
  | .rdLutBits0 => Sys2Proof.Machine.execRdLutBits0 s
  | .wrLutBits0 w => Sys2Proof.Machine.execWrLutBits0 w s
  | .rdLutBits1 => Sys2Proof.Machine.execRdLutBits1 s
  | .wrLutBits1 w => Sys2Proof.Machine.execWrLutBits1 w s
  | .rdLutBits2 => Sys2Proof.Machine.execRdLutBits2 s
  | .wrLutBits2 w => Sys2Proof.Machine.execWrLutBits2 w s
  | .rdLutBits3 => Sys2Proof.Machine.execRdLutBits3 s
  | .wrLutBits3 w => Sys2Proof.Machine.execWrLutBits3 w s
  | .rdLutBits4 => Sys2Proof.Machine.execRdLutBits4 s
  | .wrLutBits4 w => Sys2Proof.Machine.execWrLutBits4 w s
  | .rdLutBits5 => Sys2Proof.Machine.execRdLutBits5 s
  | .wrLutBits5 w => Sys2Proof.Machine.execWrLutBits5 w s
  | .rdLutBits6 => Sys2Proof.Machine.execRdLutBits6 s
  | .wrLutBits6 w => Sys2Proof.Machine.execWrLutBits6 w s
  | .rdLutBits7 => Sys2Proof.Machine.execRdLutBits7 s
  | .wrLutBits7 w => Sys2Proof.Machine.execWrLutBits7 w s
  | .rdInData => Sys2Proof.Machine.execRdInData s
  | .wrInData w => Sys2Proof.Machine.execWrInData w s
  | .rdInCtrl => Sys2Proof.Machine.execRdInCtrl s
  | .wrInCtrl w => Sys2Proof.Machine.execWrInCtrl w s
  | .rdOutData => Sys2Proof.Machine.execRdOutData s
  | .wrOutData w => Sys2Proof.Machine.execWrOutData w s
  | .rdFifoStatus => Sys2Proof.Machine.execRdFifoStatus s
  | .wrFifoStatus w => Sys2Proof.Machine.execWrFifoStatus w s
  | .rdNodeAddr => Sys2Proof.Machine.execRdNodeAddr s
  | .wrNodeAddr w => Sys2Proof.Machine.execWrNodeAddr w s
  | .rdNodeData => Sys2Proof.Machine.execRdNodeData s
  | .wrNodeData w => Sys2Proof.Machine.execWrNodeData w s
  | .rd0x88 => Sys2Proof.Machine.execRd0x88 s
  | .wr0x88 w => Sys2Proof.Machine.execWr0x88 w s
  | .rd0x8C => Sys2Proof.Machine.execRd0x8C s
  | .wr0x8C w => Sys2Proof.Machine.execWr0x8C w s
  | .rd0x90 => Sys2Proof.Machine.execRd0x90 s
  | .wr0x90 w => Sys2Proof.Machine.execWr0x90 w s
  | .rd0x94 => Sys2Proof.Machine.execRd0x94 s
  | .wr0x94 w => Sys2Proof.Machine.execWr0x94 w s
  | .rd0x98 => Sys2Proof.Machine.execRd0x98 s
  | .wr0x98 w => Sys2Proof.Machine.execWr0x98 w s
  | .rd0x9C => Sys2Proof.Machine.execRd0x9C s
  | .wr0x9C w => Sys2Proof.Machine.execWr0x9C w s
  | .rd0xA0 => Sys2Proof.Machine.execRd0xA0 s
  | .wr0xA0 w => Sys2Proof.Machine.execWr0xA0 w s
  | .rd0xA4 => Sys2Proof.Machine.execRd0xA4 s
  | .wr0xA4 w => Sys2Proof.Machine.execWr0xA4 w s
  | .rd0xA8 => Sys2Proof.Machine.execRd0xA8 s
  | .wr0xA8 w => Sys2Proof.Machine.execWr0xA8 w s
  | .rd0xAC => Sys2Proof.Machine.execRd0xAC s
  | .wr0xAC w => Sys2Proof.Machine.execWr0xAC w s
  | .rd0xB0 => Sys2Proof.Machine.execRd0xB0 s
  | .wr0xB0 w => Sys2Proof.Machine.execWr0xB0 w s
  | .rd0xB4 => Sys2Proof.Machine.execRd0xB4 s
  | .wr0xB4 w => Sys2Proof.Machine.execWr0xB4 w s
  | .rd0xB8 => Sys2Proof.Machine.execRd0xB8 s
  | .wr0xB8 w => Sys2Proof.Machine.execWr0xB8 w s
  | .rd0xBC => Sys2Proof.Machine.execRd0xBC s
  | .wr0xBC w => Sys2Proof.Machine.execWr0xBC w s
  | .rd0xC0 => Sys2Proof.Machine.execRd0xC0 s
  | .wr0xC0 w => Sys2Proof.Machine.execWr0xC0 w s
  | .rd0xC4 => Sys2Proof.Machine.execRd0xC4 s
  | .wr0xC4 w => Sys2Proof.Machine.execWr0xC4 w s
  | .rd0xC8 => Sys2Proof.Machine.execRd0xC8 s
  | .wr0xC8 w => Sys2Proof.Machine.execWr0xC8 w s
  | .rd0xCC => Sys2Proof.Machine.execRd0xCC s
  | .wr0xCC w => Sys2Proof.Machine.execWr0xCC w s
  | .rd0xD0 => Sys2Proof.Machine.execRd0xD0 s
  | .wr0xD0 w => Sys2Proof.Machine.execWr0xD0 w s
  | .rd0xD4 => Sys2Proof.Machine.execRd0xD4 s
  | .wr0xD4 w => Sys2Proof.Machine.execWr0xD4 w s
  | .rd0xD8 => Sys2Proof.Machine.execRd0xD8 s
  | .wr0xD8 w => Sys2Proof.Machine.execWr0xD8 w s
  | .rd0xDC => Sys2Proof.Machine.execRd0xDC s
  | .wr0xDC w => Sys2Proof.Machine.execWr0xDC w s
  | .rd0xE0 => Sys2Proof.Machine.execRd0xE0 s
  | .wr0xE0 w => Sys2Proof.Machine.execWr0xE0 w s
  | .rd0xE4 => Sys2Proof.Machine.execRd0xE4 s
  | .wr0xE4 w => Sys2Proof.Machine.execWr0xE4 w s
  | .rd0xE8 => Sys2Proof.Machine.execRd0xE8 s
  | .wr0xE8 w => Sys2Proof.Machine.execWr0xE8 w s
  | .rd0xEC => Sys2Proof.Machine.execRd0xEC s
  | .wr0xEC w => Sys2Proof.Machine.execWr0xEC w s
  | .rd0xF0 => Sys2Proof.Machine.execRd0xF0 s
  | .wr0xF0 w => Sys2Proof.Machine.execWr0xF0 w s
  | .rd0xF4 => Sys2Proof.Machine.execRd0xF4 s
  | .wr0xF4 w => Sys2Proof.Machine.execWr0xF4 w s
  | .rd0xF8 => Sys2Proof.Machine.execRd0xF8 s
  | .wr0xF8 w => Sys2Proof.Machine.execWr0xF8 w s
  | .rd0xFC => Sys2Proof.Machine.execRd0xFC s
  | .wr0xFC w => Sys2Proof.Machine.execWr0xFC w s

end Sys2Proof.Machine
end

