-- ==== Sys2Proof/Machine/Step.lean ====
section
/-! DEFINITION. One step of the block: the next event of the outside world, or the engine's turn
(20_memory.md R92, R93; 40_host_interface.md R195; log entries 1, 2). -/

namespace Sys2Proof.Machine

/-- The engine's turn: one engine step of the latched command, which is decoded at its first step and stays latched; an
Idle engine has none (R195, R197). -/
def engineTurn (s : State) : Host.Outcome State Fault Refusal :=
  if s.busy then exec (decodeCommand s.cmdword) s else .next s

/-- A host access: decoded, then executed as one event; a misaligned one is refused (20_memory.md R86, R89). -/
def hostAccess (a : Access) (s : State) : Host.Outcome State Fault Refusal :=
  match decodeAccess a with
  | .ok i => exec i s
  | .error (.misaligned addr) => .refused (.misalignedAccess addr)

/-- The first event of `inputs` happens and leaves the list; with none left only the engine moves. -/
def step (s : State) : Host.Outcome State Fault Refusal :=
  match s.inputs with
  | [] => engineTurn s
  | .engine :: rest => engineTurn { s with inputs := rest }
  | .access a :: rest => hostAccess a { s with inputs := rest }
  | .reset :: rest => .next (platformReset { s with inputs := rest })

/-- `s` about to run the instruction of an opcode-table row: a bus row as the host's next access, a command word as just
accepted by a CMD write and at the engine's turn (log entries 11, 13). -/
def State.withFetchWord (s : State) (nbits w : Nat) : State :=
  match encodedOfTableWord nbits w with
  | some (.access a) => { s with inputs := .access a :: s.inputs }
  | some (.command c) => { accept c s with inputs := .engine :: s.inputs }
  | none => s

end Sys2Proof.Machine
end

