-- ==== Sys2Proof/Safety.lean ====
section
/-! DEFINITION. The words claims are stated in: the invariant of the block, Huffman trees and how a state holds one, the
bitstream reader's bits, the packed bit stream, and runs of several steps. -/

namespace Sys2Proof.Machine

/-! ## The arena's invariants (10_state.md R50, R53) -/

/-- How many LEFT and RIGHT links of interior nodes lead to node `j`. -/
def childRefs (a : List Node) (j : Nat) : Nat :=
  (a.map fun n : Node =>
    if n.leaf then 0
    else (if n.left.toNat = j then 1 else 0) + (if n.right.toNat = j then 1 else 0)).sum

/-- How many leaves there are. -/
def leafCount (a : List Node) : Nat := a.countP (fun n : Node => n.leaf)

/-- Every node has the form its kind has, and an interior node's children stand below it (R50, R53 a). -/
structure NodesOk (a : List Node) : Prop where
  leaf_form  : ∀ n ∈ a, n.leaf = true → n.left = 0 ∧ n.right = 0
  inner_form : ∀ n ∈ a, n.leaf = false → n.sym = 0
  below      : ∀ (i : Nat) (n : Node), a[i]? = some n → n.leaf = false → n.left.toNat < i ∧ n.right.toNat < i

/-- While TREE_LOAD runs: every node is either on the stack, once, or the child of one interior node, once; the top of
the stack is the newest node (42_tree_codec.md R262, R264). -/
structure Forest (a : List Node) (stk : List NodeIdx) : Prop where
  once  : ∀ j, j < a.length → childRefs a j + (stk.map BitVec.toNat).count j = 1
  count : a.length + stk.length = 2 * leafCount a
  top   : ∀ n rest, stk = n :: rest → n.toNat + 1 = a.length

/-- A complete tree (R53): the root is the last node, every other node is the child of exactly one interior node, and
NODE_COUNT = 2·L − 1. -/
structure TreeOk (a : List Node) (root : NodeIdx) : Prop where
  root_last : root.toNat + 1 = a.length
  once      : ∀ j, j < a.length → childRefs a j = if j = root.toNat then 0 else 1
  count     : a.length + 1 = 2 * leafCount a

/-! ## The invariant of the block -/

/-- A code table entry as the table holds it: LEN at most 256, no bit at or above LEN (10_state.md R55). -/
def Code.ok (c : Code) : Bool := decide (c.len.toNat ≤ 256) && c.bits == c.bits &&& mask c.len.toNat

/-- The current node of a running DECODE is one of the held tree, and the count is not reached (45_decoder.md R365). -/
structure DecodeOk (s : State) : Prop where
  valid    : s.treeValid = true
  cur_lt   : s.cur.toNat < s.nodeCount
  below_n  : s.symcount.toNat < s.fileSize.toNat
  counted  : s.outbytes = s.symcount
  not_done : s.dstate ≠ .done
  /-- R369: a degenerate tree's DECODE has ended at its start. -/
  root_inner : (s.node s.root).leaf = false

/-- What holds at a control point of the command `i` (10_state.md R62). -/
def PointOk (i : Instr) (s : State) : Point → Prop
  | .start => s.outbytes = 0
  | .treeTag k =>
    (i = .treeLoad ∨ i = .decodeStream) ∧ k < s.treeLen ∧ s.treeValid = false ∧ s.outbytes = 0 ∧ Forest s.arena s.stk
  | .treeSym k =>
    (i = .treeLoad ∨ i = .decodeStream) ∧ k + 1 < s.treeLen ∧ s.treeValid = false ∧ s.outbytes = 0 ∧
      Forest s.arena s.stk
  | .treeOut _ _ => i = .treeStore ∧ s.treeValid = true
  | .encIn => i = .encode
  | .encOut _ => i = .encode ∧ s.wpos = 7
  | .encFlush => i = .encode ∧ s.wpos ≠ 0
  | .bitIn => i = .readBit ∧ s.brPos = 8 ∧ s.outbytes = 0
  | .decodeIn =>
    (i = .decode ∨ i = .decodeStream) ∧ s.brPos = 8 ∧ (s.node s.cur).leaf = false ∧ DecodeOk s
  | .decodeOut => (i = .decode ∨ i = .decodeStream) ∧ (s.node s.cur).leaf = true ∧ DecodeOk s

/-- The bit packer: empty outside ENCODE, no bit at or above WPOS while it fills (10_state.md R58,
43_encoder_bitpacker.md R301, R302). -/
def PackerOk (s : State) : Prop :=
  match s.engine with
  | .running .encIn | .running .encFlush => s.wbyte.toNat < 2 ^ s.wpos.val
  | .running (.encOut _) => True
  | _ => s.wbyte = 0 ∧ s.wpos = 0

/-- The invariant of the block. -/
structure BlockInv (s : State) : Prop where
  /-- R60: `len(INQ) ≤ IN_DEPTH`. -/
  inq_le    : s.inq.length ≤ s.inDepth
  /-- R60: `len(OUTQ) ≤ OUT_DEPTH`. -/
  outq_le   : s.outq.length ≤ s.outDepth
  /-- The code table is in canonical form. -/
  lut_wf    : s.lut.wf = true
  /-- R55. -/
  lut_codes : ∀ e ∈ s.lut, e.2.ok = true
  /-- R50: NODE_COUNT is at most 511. -/
  arena_le  : s.nodeCount ≤ nodeCap
  /-- R52: SP is at most 256. -/
  stk_le    : s.sp ≤ stackCap
  /-- The stack holds indices of nodes. -/
  stk_below : ∀ n ∈ s.stk, n.toNat < s.nodeCount
  /-- R50, R53 a. -/
  nodes     : NodesOk s.arena
  /-- R53. -/
  tree      : s.treeValid = true → TreeOk s.arena s.root
  /-- R61: DONE and ERR are never both 1. -/
  ends      : ¬ (s.done = true ∧ s.err = true)
  /-- R175, R401: ERRCODE is NONE exactly when ERR is 0, and then ERRPOS is 0. -/
  code      : s.errcode = .none ↔ s.err = false
  pos       : s.err = false → s.errpos = 0
  /-- R175: while a command runs, DONE and ERR are 0. -/
  running   : s.busy = true → s.done = false ∧ s.err = false
  /-- R62: the engine stands at a control point of the latched command. -/
  point     : ∀ p, s.engine = .running p → PointOk (decodeCommand s.cmdword) s p
  /-- R58. -/
  packer    : PackerOk s

/-! ## Walking the held tree -/

/-- The child of node `i` that bit `b` selects: 0 LEFT, 1 RIGHT (42_tree_codec.md R267). -/
def State.child (s : State) (i : NodeIdx) (b : Bool) : NodeIdx :=
  if b then (s.node i).right else (s.node i).left

/-- The node reached from `i` along `bits`, one level a bit (45_decoder.md R366). -/
def State.walk (s : State) : NodeIdx → List Bool → NodeIdx
  | i, [] => i
  | i, b :: bits => s.walk (s.child i b) bits

/-- The first `m` bits of a byte, least-significant first (20_memory.md R82). -/
def firstBits (b : Byte) (m : Nat) : List Bool := (List.range m).map b.getLsbD

/-- The bits the bitstream reader holds buffered, `BR_BYTE[BR_POS] .. BR_BYTE[7]` (10_state.md R57). -/
def State.buffered (s : State) : List Bool :=
  (List.range (8 - s.brPos.val)).map fun i => s.brByte.getLsbD (s.brPos.val + i)

/-- The bits before the bitstream reader: the buffered ones, then those of the bytes in INQ, least-significant first
(44_bitstream_reader.md R331, R333). -/
def State.pendingBits (s : State) : List Bool := s.buffered ++ s.inq.flatMap (firstBits · 8)

/-- The state after `m` bits are read and nothing else is done: the buffered bits go first, and a byte is taken from INQ
whenever none is buffered (44_bitstream_reader.md R331). -/
def State.afterBits (s : State) (m : Nat) : State :=
  let fresh := m - bufferedBits s
  let took := (fresh + 7) / 8
  { s with
    inq := s.inq.drop took, brByte := (s.inq.take took).getLastD s.brByte
    brPos := Fin.ofNat 9 (if m ≤ bufferedBits s then s.brPos.val + m else (fresh - 1) % 8 + 1) }

/-- `u` is where DECODE's loop stops when it begins at an interior node with the count not reached, in state `s`: each
buffered bit goes one level down, to the OutPush of the first leaf met, or to the InPop for the next byte when the
buffered bits are used up (45_decoder.md R365, R366). -/
structure WalksBuffered (s u : State) : Prop where
  empty : s.buffered = [] → u = { s with engine := .running .decodeIn }
  leaf  : ∀ m, 1 ≤ m → m ≤ s.buffered.length →
    (∀ n, 1 ≤ n → n < m → (s.node (s.walk s.cur (s.buffered.take n))).leaf = false) →
    (s.node (s.walk s.cur (s.buffered.take m))).leaf = true →
    u = { s with
      brPos := Fin.ofNat 9 (s.brPos.val + m), cur := s.walk s.cur (s.buffered.take m)
      dstate := if m = 1 then s.dstate else .descending, engine := .running .decodeOut }
  used  : s.buffered ≠ [] →
    (∀ n, 1 ≤ n → n ≤ s.buffered.length → (s.node (s.walk s.cur (s.buffered.take n))).leaf = false) →
    u = { s with
      brPos := 8, cur := s.walk s.cur s.buffered, dstate := .descending, engine := .running .decodeIn }

/-! ## Huffman trees -/

/-- A Huffman tree (00_scope.md R17: leaf and interior nodes). -/
inductive HuffTree
  | leaf (sym : Byte)
  | node (l r : HuffTree)
deriving DecidableEq, Repr

/-- L, the number of leaves. -/
def HuffTree.leaves : HuffTree → Nat
  | .leaf _ => 1
  | .node l r => l.leaves + r.leaves

/-- The number of nodes. -/
def HuffTree.size : HuffTree → Nat
  | .leaf _ => 1
  | .node l r => l.size + r.size + 1

/-- The post-order token stream (30_encoding.md R125). -/
def HuffTree.tokens : HuffTree → List Byte
  | .leaf s => [0x4C, s]
  | .node l r => l.tokens ++ r.tokens ++ [0x49]

/-- The leaves with their root-to-leaf paths, left to right: 0 (false) left, 1 (true) right (30_encoding.md R129). -/
def HuffTree.paths : HuffTree → List (Byte × List Bool)
  | .leaf s => [(s, [])]
  | .node l r => l.paths.map (fun p => (p.1, false :: p.2)) ++ r.paths.map (fun p => (p.1, true :: p.2))

/-- The arena nodes of the tree, numbered in token order from index `base` (42_tree_codec.md R264). -/
def HuffTree.nodes : HuffTree → Nat → List Node
  | .leaf s, _ => [⟨true, s, 0, 0⟩]
  | .node l r, base =>
    l.nodes base ++ r.nodes (base + l.size) ++
      [⟨false, 0, BitVec.ofNat 9 (base + l.size - 1), BitVec.ofNat 9 (base + l.size + r.size - 1)⟩]

/-- The block holds tree `t` (10_state.md R51, R53; 42_tree_codec.md R264). -/
structure Holds (s : State) (t : HuffTree) : Prop where
  valid  : s.treeValid = true
  arena  : s.arena = t.nodes 0
  root   : s.root = BitVec.ofNat 9 (t.size - 1)
  leaves : t.leaves ≤ 256

/-- The code LUT_BUILD records for a symbol: the path of its last leaf in the walk, none for a symbol not in the tree
(41_code_table.md R240). -/
def HuffTree.codeOf (t : HuffTree) (s : Byte) : Code :=
  match t.paths.reverse.find? (fun p => p.1 == s) with
  | some p => Code.ofPath p.2
  | none => Code.empty

/-! ## The packed bit stream (30_encoding.md R129) -/

/-- Byte `k` of the packed form of `bits`: bit `i` of it is bit `8·k + i` of the stream, 0 past the end. -/
def packedByte (bits : List Bool) (k : Nat) : Byte :=
  (BitVec.ofBoolListLE ((List.range 8).map fun i => bits.getD (8 * k + i) false)).setWidth 8

/-- The packer's byte with bit `k` of `bits` put at position `pos + k`; bits that would go past position 7 are left out
(43_encoder_bitpacker.md R301). -/
def placed (b : Byte) (pos : Nat) (bits : List Bool) : Byte := b ||| ((BitVec.ofBoolListLE bits).setWidth 8 <<< pos)

/-- The packed form of `bits`: `ceil(N / 8)` bytes, zero-padded (43_encoder_bitpacker.md R305). -/
def packed (bits : List Bool) : List Byte :=
  (List.range ((bits.length + 7) / 8)).map (packedByte bits)

/-! ## Runs -/

/-- `n` steps, one after the other, stopping where a step stops. -/
def steps : Nat → State → Result
  | 0, s => .next s
  | n + 1, s =>
    match step s with
    | .next t => steps n t
    | .fault r => .fault r
    | .refused r => .refused r

/-- The engine is to begin the command `w`, and the host does nothing more: only the engine moves. -/
def Begins (w : Word) (s : State) : Prop := s.engine = .running .start ∧ s.cmdword = w ∧ s.inputs = []

/-- The error codes a command may end with (60_exceptions.md R401, "raised by", and R410). -/
def mayRaise : Instr → List ErrCode
  | .reserved _ => [.badCommand]
  | .lutWrite => [.lutBadLen]
  | .lutBuild => [.noTree, .degenerateTree]
  | .treeStore => [.noTree]
  | .encode => [.lutMiss]
  | .magicCheck => [.badMagic]
  | .treeLoad =>
    [.treeEos, .treeBadToken, .treeLeafTruncated, .treeStackUnderflow, .treeStackOverflow, .treeNodeOverflow,
      .treeNotSingleRoot]
  | .decode => [.noTree, .degenerateTree, .decodeEos]
  | .decodeStream =>
    [.badMagic, .treeEos, .treeBadToken, .treeLeafTruncated, .treeStackUnderflow, .treeStackOverflow,
      .treeNodeOverflow, .treeNotSingleRoot, .degenerateTree, .decodeEos]
  | _ => []

/-- The instructions the engine executes (30_encoding.md R121, R122); the others are host accesses. -/
def isCommand (i : Instr) : Bool :=
  match encode i with
  | .command _ => true
  | .access _ => false

end Sys2Proof.Machine
end

