-- ==== Sys2Proof/Certificates/Slice0/Obligations.lean ====
section
/-! DEFINITION. The statements for the provers: the numbered rules of spec/ that say what an instruction or the block
does. An equation `exec i s = .next t` says that the instruction completes, its result and its frame at once: every
field that `t` does not name is as in `s`. -/

open Sys2Proof Sys2Proof.Machine

/-- For every well-formed instruction, with every operand, decoding its encoding gives exactly that instruction.
(30_encoding.md section 1 (R121, R122), 30_encoding.md section 2 (R123, R124)). -/
def Obligations.DecodeEncodeGivesTheInstructionBack : Prop :=
  ∀ i : Instr, i.wf = true → decode (encode i) = .ok i

/-- If a command word or a host access decodes to an instruction, the instruction is well-formed and its encoding is
that word or access: no encoded form has two meanings and no bit is dropped. (30_encoding.md section 1 (R121, R122),
30_encoding.md section 2 (R123, R124)). -/
def Obligations.EncodeDecodeGivesTheBitsBack : Prop :=
  ∀ (e : Encoded) (i : Instr), decode e = .ok i → i.wf = true ∧ encode i = e

/-- Decoding a host access fails exactly when addr[1:0] is not 0, and then names that address; every aligned access is
an instruction. (20_memory.md section 3 (R86), 30_encoding.md section 2 (R124)). -/
def Obligations.DecodeRefusesExactlyTheMisaligned : Prop :=
  ∀ a : Access,
    (a.addr.toNat % 4 ≠ 0 → decodeAccess a = .error (.misaligned a.addr)) ∧
    (a.addr.toNat % 4 = 0 → ∃ i, decodeAccess a = .ok i)

/-- A command word decodes to the reserved instruction of that word exactly when its OPCODE field is at least 0x0D or
its RSVD field is not 0. (30_encoding.md section 1 (R122)). -/
def Obligations.ReservedCommandWordsAreTheIllegalOnes : Prop :=
  ∀ w : Word,
    decodeCommand w = .reserved w ↔ (0x0D ≤ (w.extractLsb' 0 8).toNat ∨ w.extractLsb' 8 24 ≠ 0)

/-- The 13 opcodes of the opcode map (R121) and two reserved words, as command words, decode to their instructions.
Accesses of each family, given by their TW (R123), do too; that a row of 16 bits is an access and that its WDATA,
which the opcode table gives no bits, is 0 is the model's choice (log entry 13). (30_encoding.md section 1 (R121),
30_encoding.md section 2 (R123)). -/
def Obligations.SpecWordsDecodeToTheirInstructions : Prop :=
  [0x00000000, 0x00000001, 0x00000002, 0x00000003, 0x00000004, 0x00000005, 0x00000006, 0x00000007, 0x00000008,
      0x00000009, 0x0000000A, 0x0000000B, 0x0000000C, 0x0000000D, 0x00000105].map (fun w : Word => decodeCommand w) =
    [.nop, .clear, .lutWrite, .lutRead, .lutBuild, .treeLoad, .treeStore, .encode, .readBit,
      .brDiscard, .magicCheck, .decode, .decodeStream, .reserved 0x0000000D, .reserved 0x00000105] ∧
  [0x004, 0x100, 0x170, 0x078, 0x16C, 0x184, 0x1FC].map (decodeTableWord 16) =
    [some .rdStatus, some (.wrCmd 0), some (.wrInData 0), some .rdOutData, some (.wrLutBits7 0), some (.wrNodeData 0),
      some (.wr0xFC 0)]

/-- When the first input is a host access that decodes to an instruction, the step executes that instruction, as one
event, with the access taken off the inputs. That the interleaving of R93 is the list of inputs, whose first entry
moves next, is the model's choice (log entry 1). (20_memory.md section 3 (R89), 30_encoding.md section 2 (R124),
40_host_interface.md section 1 (R170)). -/
def Obligations.StepExecutesTheHostAccess : Prop :=
  ∀ (s : State) (a : Access) (rest : List Input) (i : Instr),
    s.inputs = .access a :: rest → decodeAccess a = .ok i → step s = exec i { s with inputs := rest }

/-- A step that is the engine's turn executes, while BUSY = 1, the instruction the latched command word decodes to, with
the turn taken off the inputs; while the engine is Idle it changes nothing else. The model's choices: the engine has
its turn when no input is left or an engine turn is first (log entry 1), and the turn of an Idle engine, which by
the spec has no step, is a next state that changes nothing (log entry 2). (40_host_interface.md section 2 (R190,
R195), 10_state.md section 7 (R62), 20_memory.md section 4 (R90)). -/
def Obligations.StepOnTheEnginesTurn : Prop :=
  ∀ s : State,
    (s.busy = true →
      (s.inputs = [] → step s = exec (decodeCommand s.cmdword) s) ∧
      (∀ rest, s.inputs = .engine :: rest →
        step s = exec (decodeCommand s.cmdword) { s with inputs := rest })) ∧
    (s.busy = false →
      (s.inputs = [] → step s = .next s) ∧
      (∀ rest, s.inputs = .engine :: rest → step s = .next { s with inputs := rest }))

/-- When the first input is a host access whose addr[1:0] is not 0 the step refuses it by name, with its address (R86,
U6); in every other state the step answers a next state: no access stalls the host (R170) and no command stops the
block (R425). The model's choices: the first input moves next (log entry 1), and the turn of an Idle or blocked
engine, which by R194 and U8 has no step, is a next state too (log entry 2). (20_memory.md section 3 (R86),
93_implementation_defined.md section 1 (U6), 40_host_interface.md section 1 (R170), 60_exceptions.md section 4
(R425), 40_host_interface.md section 2 (R194), 93_implementation_defined.md section 1 (U8)). -/
def Obligations.StepCompletesUnlessMisaligned : Prop :=
  ∀ s : State,
    (∀ (a : Access) (rest : List Input), s.inputs = .access a :: rest → a.addr.toNat % 4 ≠ 0 →
      step s = .refused (.misalignedAccess a.addr)) ∧
    ((∀ a rest, s.inputs = .access a :: rest → a.addr.toNat % 4 = 0) → ∃ t, step s = .next t)

/-- Right after reset every register, flag, memory and FIFO has its stated reset value, and the irq output is 0; ARENA
and STK, whose contents the rule leaves unspecified, list no entry. (R450). -/
def Obligations.ResetLeavesTheStatedValues : Prop :=
  let s := State.reset
  (s.busy = false ∧ s.done = false ∧ s.err = false ∧ s.treeValid = false ∧ s.outInvalid = false ∧ s.cmdOvr = false ∧
    s.inOvf = false ∧ s.inEos = false ∧ s.waitIn = false ∧ s.waitOut = false ∧ s.curOp = 0x00 ∧ s.cmdword = 0) ∧
  (s.errcode = .none ∧ s.errpos = 0 ∧ s.irqEn = false ∧ s.irqPend = false ∧ s.irq = false) ∧
  (s.treeSize = 0 ∧ s.fileSizeLo = 0 ∧ s.fileSizeHi = 0 ∧ s.hdrMagic = 0 ∧ s.symcount = 0 ∧ s.outbytes = 0) ∧
  (s.nodeCount = 0 ∧ s.root = 0 ∧ s.sp = 0 ∧ s.dstate = .atRoot ∧ s.cur = 0 ∧ s.brByte = 0x00 ∧ s.brPos = 8) ∧
  (s.bitVal = false ∧ s.bitEos = false ∧ s.lutSym = 0 ∧ s.lutLen = 0 ∧ s.lutBits = 0 ∧
    (∀ c, s.lut.get c = ⟨0, 0⟩)) ∧
  (s.wbyte = 0 ∧ s.wpos = 0 ∧ s.inq = [] ∧ s.outq = [] ∧ s.nodeAddr = 0 ∧ s.engine = .idle)

/-- When the first input is the platform's reset, whatever the engine does, the step gives the reset state; the
parameters stay, and so do the model's own records of the outside world (log entry 14, the model's choice).
(70_reset_and_hazards.md section 1 (R450, R451)). -/
def Obligations.ResetEventGivesTheResetState : Prop :=
  ∀ (s : State) (rest : List Input), s.inputs = .reset :: rest →
    step s = .next { State.reset with params := s.params, rdata := s.rdata, draws := s.draws, inputs := rest }

/-- The read of CMD, IN_DATA or IN_CTRL returns 0 and changes nothing; the write of any of the 14 read-only registers
changes nothing. (R171). -/
def Obligations.WriteOnlyReadsAndReadOnlyWritesDoNothing : Prop :=
  (∀ i ∈ [Instr.rdCmd, .rdInData, .rdInCtrl], ∀ s : State, exec i s = .next { s with rdata := 0 }) ∧
  (∀ f ∈ [Instr.wrStatus, .wrErrcode, .wrErrpos, .wrSymcountLo, .wrSymcountHi, .wrOutbytesLo, .wrOutbytesHi,
      .wrTreeInfo, .wrDecState, .wrBrState, .wrBitResult, .wrOutData, .wrFifoStatus, .wrNodeData],
    ∀ (w : Word) (s : State), exec (f w) s = .next s)

/-- A read of any of the 30 unmapped words returns 0 and changes nothing; a write of any of them changes nothing.
(R187). -/
def Obligations.UnmappedAddressesReadZeroAndIgnoreWrites : Prop :=
  (∀ i ∈ [Instr.rd0x88, .rd0x8C, .rd0x90, .rd0x94, .rd0x98, .rd0x9C, .rd0xA0, .rd0xA4, .rd0xA8, .rd0xAC, .rd0xB0, .rd0xB4, .rd0xB8, .rd0xBC, .rd0xC0, .rd0xC4, .rd0xC8, .rd0xCC, .rd0xD0, .rd0xD4, .rd0xD8, .rd0xDC, .rd0xE0, .rd0xE4, .rd0xE8, .rd0xEC, .rd0xF0, .rd0xF4, .rd0xF8, .rd0xFC],
    ∀ s : State, exec i s = .next { s with rdata := 0 }) ∧
  (∀ f ∈ [Instr.wr0x88, .wr0x8C, .wr0x90, .wr0x94, .wr0x98, .wr0x9C, .wr0xA0, .wr0xA4, .wr0xA8, .wr0xAC, .wr0xB0, .wr0xB4, .wr0xB8, .wr0xBC, .wr0xC0, .wr0xC4, .wr0xC8, .wr0xCC, .wr0xD0, .wr0xD4, .wr0xD8, .wr0xDC, .wr0xE0, .wr0xE4, .wr0xE8, .wr0xEC, .wr0xF0, .wr0xF4, .wr0xF8, .wr0xFC],
    ∀ (w : Word) (s : State), exec (f w) s = .next s)

/-- CTRL stores and returns IRQ_EN; a write of 1 to IRQ_STATUS bit 0 clears IRQ_PEND and a write of 0 leaves it, its
read returns IRQ_PEND; all in every engine state; irq is IRQ_EN and IRQ_PEND. (R172, R173, R63). -/
def Obligations.ControlAndInterruptRegisters : Prop :=
  ∀ (w : Word) (s : State),
    exec (.wrCtrl w) s = .next { s with irqEn := w.getLsbD 0 } ∧
    exec .rdCtrl s = .next { s with rdata := 0#31 ++ BitVec.ofBool s.irqEn } ∧
    (w.getLsbD 0 = true → exec (.wrIrqStatus w) s = .next { s with irqPend := false }) ∧
    (w.getLsbD 0 = false → exec (.wrIrqStatus w) s = .next s) ∧
    exec .rdIrqStatus s = .next { s with rdata := 0#31 ++ BitVec.ofBool s.irqPend } ∧
    (s.irq = true ↔ s.irqEn = true ∧ s.irqPend = true)

/-- The read of STATUS returns the word of its fields, in every engine state, with no side effect. (R174). -/
def Obligations.StatusReadReturnsItsFields : Prop :=
  ∀ s : State, exec .rdStatus s = .next { s with
    rdata := 0#8 ++ s.cmdword.extractLsb' 0 8 ++ 0#6 ++ BitVec.ofBool s.waitOut ++ BitVec.ofBool s.waitIn ++
      BitVec.ofBool s.inEos ++ BitVec.ofBool s.inOvf ++ BitVec.ofBool s.cmdOvr ++ BitVec.ofBool s.outInvalid ++
      BitVec.ofBool s.treeValid ++ BitVec.ofBool s.err ++ BitVec.ofBool s.done ++ BitVec.ofBool s.busy }

/-- WAIT_IN is 1 exactly when the engine stands at an InPop with INQ empty and IN_EOS = 0; in a state that keeps the
invariant WAIT_OUT is 1 exactly when it stands at an OutPush with len(OUTQ) = OUT_DEPTH; and while either is 1 a
step of any command leaves the state as it is. The model's choices: a blocked engine, which by R194 has no step, has
a turn that changes nothing (log entry 2), and so has a command that is not the latched one (log entry 9).
(10_state.md section 7 (R62), 10_state.md section 3 (R34), 40_host_interface.md section 2 (R194)). -/
def Obligations.WaitBitsShowTheBlockedEngine : Prop :=
  ∀ s : State,
    (s.waitIn = true ↔ ∃ p, s.engine = .running p ∧ p.isIn = true ∧ s.inq = [] ∧ s.inEos = false) ∧
    (BlockInv s → (s.waitOut = true ↔ ∃ p, s.engine = .running p ∧ p.isOut = true ∧ s.outq.length = s.outDepth)) ∧
    (s.waitIn = true ∨ s.waitOut = true → ∀ i, isCommand i = true → exec i s = .next s)

/-- While BUSY = 0 a write of CMD latches the word (and with it CUR_OP), starts the engine, clears DONE, ERR, ERRCODE,
ERRPOS and OUTBYTES, and changes nothing else; while BUSY = 1 it sets CMD_OVR and changes nothing else. (R175,
R176). -/
def Obligations.CmdWriteIsAcceptedOrDropped : Prop :=
  ∀ (w : Word) (s : State),
    (s.busy = false → exec (.wrCmd w) s = .next { s with
      cmdword := w, engine := .running .start, done := false, err := false,
      errcode := .none, errpos := 0, outbytes := 0 }) ∧
    (s.busy = true → exec (.wrCmd w) s = .next { s with cmdOvr := true }) ∧
    (accept w s).curOp = w.extractLsb' 0 8 ∧ (accept w s).busy = true

/-- With IN_EOS = 0 and INQ not full a write of IN_DATA appends its low byte to INQ; with IN_EOS = 1 or len(INQ) =
IN_DEPTH it sets IN_OVF and INQ stays; nothing else changes, in every engine state. (R177, R178). -/
def Obligations.InDataWritePushesOrDrops : Prop :=
  ∀ (w : Word) (s : State),
    (s.inEos = false → s.inq.length < s.inDepth →
      exec (.wrInData w) s = .next { s with inq := s.inq ++ [w.extractLsb' 0 8] }) ∧
    (s.inEos = true ∨ s.inq.length = s.inDepth → exec (.wrInData w) s = .next { s with inOvf := true })

/-- While BUSY = 0 a write of IN_CTRL empties INQ (bit 2), empties OUTQ and clears OUT_INVALID (bit 3), clears IN_EOS
(bit 1) and then sets it (bit 0); while BUSY = 1 only bit 0 acts; nothing else changes. (R179). -/
def Obligations.InCtrlWriteFlushesAndMarksTheEnd : Prop :=
  ∀ (w : Word) (s : State),
    (s.busy = false → exec (.wrInCtrl w) s = .next { s with
      inq := if w.getLsbD 2 = true then [] else s.inq
      outq := if w.getLsbD 3 = true then [] else s.outq
      outInvalid := if w.getLsbD 3 = true then false else s.outInvalid
      inEos := if w.getLsbD 0 = true then true else if w.getLsbD 1 = true then false else s.inEos }) ∧
    (s.busy = true → exec (.wrInCtrl w) s = .next { s with
      inEos := if w.getLsbD 0 = true then true else s.inEos })

/-- While BUSY = 0 a write of TREE_SIZE, FILE_SIZE_LO, FILE_SIZE_HI, HDR_MAGIC, LUT_SYM, LUT_LEN or LUT_BITS0 to 7
stores the field bits of the word and changes nothing else; LUT_BITSn is bits 32n to 32n + 31 of the one 256-bit
value LUT_BITS. While BUSY = 1 such a write changes nothing. (R180, R181). -/
def Obligations.OperandRegisterWrites : Prop :=
  (∀ f ∈ [Instr.wrTreeSize, .wrFileSizeLo, .wrFileSizeHi, .wrHdrMagic, .wrLutSym, .wrLutLen, .wrLutBits0, .wrLutBits1,
      .wrLutBits2, .wrLutBits3, .wrLutBits4, .wrLutBits5, .wrLutBits6, .wrLutBits7],
    ∀ (w : Word) (s : State), s.busy = true → exec (f w) s = .next s) ∧
  ∀ (w : Word) (s : State), s.busy = false →
    (exec (.wrTreeSize w) s = .next { s with treeSize := w.extractLsb' 0 16 } ∧
    exec (.wrFileSizeLo w) s = .next { s with fileSizeLo := w } ∧
    exec (.wrFileSizeHi w) s = .next { s with fileSizeHi := w } ∧
    exec (.wrHdrMagic w) s = .next { s with hdrMagic := w } ∧
    exec (.wrLutSym w) s = .next { s with lutSym := w.extractLsb' 0 8 } ∧
    exec (.wrLutLen w) s = .next { s with lutLen := w.extractLsb' 0 9 }) ∧
    (exec (.wrLutBits0 w) s = .next { s with lutBits := setLutWord s.lutBits 0 w } ∧
    exec (.wrLutBits1 w) s = .next { s with lutBits := setLutWord s.lutBits 1 w } ∧
    exec (.wrLutBits2 w) s = .next { s with lutBits := setLutWord s.lutBits 2 w } ∧
    exec (.wrLutBits3 w) s = .next { s with lutBits := setLutWord s.lutBits 3 w } ∧
    exec (.wrLutBits4 w) s = .next { s with lutBits := setLutWord s.lutBits 4 w } ∧
    exec (.wrLutBits5 w) s = .next { s with lutBits := setLutWord s.lutBits 5 w } ∧
    exec (.wrLutBits6 w) s = .next { s with lutBits := setLutWord s.lutBits 6 w } ∧
    exec (.wrLutBits7 w) s = .next { s with lutBits := setLutWord s.lutBits 7 w }) ∧
    ∀ n, n < 8 → ∀ m, m < 8 → ∀ j, j < 32 →
      (setLutWord s.lutBits n w).getLsbD (32 * m + j) =
        if m = n then w.getLsbD j else s.lutBits.getLsbD (32 * m + j)

/-- The read of TREE_SIZE, FILE_SIZE_LO, FILE_SIZE_HI, HDR_MAGIC, LUT_SYM or NODE_ADDR returns the stored field zero-
extended, in every engine state, with no side effect. (R182). -/
def Obligations.ConfigurationReadsAreExact : Prop :=
  ∀ s : State,
    exec .rdTreeSize s = .next { s with rdata := 0#16 ++ s.treeSize } ∧
    exec .rdFileSizeLo s = .next { s with rdata := s.fileSizeLo } ∧
    exec .rdFileSizeHi s = .next { s with rdata := s.fileSizeHi } ∧
    exec .rdHdrMagic s = .next { s with rdata := s.hdrMagic } ∧
    exec .rdLutSym s = .next { s with rdata := 0#24 ++ s.lutSym } ∧
    exec .rdNodeAddr s = .next { s with rdata := 0#23 ++ s.nodeAddr }

/-- While BUSY = 0 the read of each engine-owned register returns it in its format, with no side effect. (R188). -/
def Obligations.EngineOwnedReadsWhileIdle : Prop :=
  ∀ s : State, s.busy = false →
    (exec .rdErrcode s = .next { s with rdata := 0#24 ++ s.errcode.code } ∧
    exec .rdErrpos s = .next { s with rdata := s.errpos } ∧
    exec .rdSymcountLo s = .next { s with rdata := s.symcount.extractLsb' 0 32 } ∧
    exec .rdSymcountHi s = .next { s with rdata := s.symcount.extractLsb' 32 32 } ∧
    exec .rdOutbytesLo s = .next { s with rdata := s.outbytes.extractLsb' 0 32 } ∧
    exec .rdOutbytesHi s = .next { s with rdata := s.outbytes.extractLsb' 32 32 } ∧
    exec .rdTreeInfo s = .next { s with rdata := 0#7 ++ s.root ++ 0#6 ++ BitVec.ofNat 10 s.nodeCount } ∧
    exec .rdDecState s = .next { s with rdata := 0#7 ++ s.cur ++ 0#14 ++ s.dstate.code } ∧
    exec .rdBrState s = .next { s with rdata := 0#20 ++ BitVec.ofNat 4 s.brPos.val ++ s.brByte } ∧
    exec .rdBitResult s = .next { s with rdata := 0#30 ++ BitVec.ofBool s.bitEos ++ BitVec.ofBool s.bitVal } ∧
    exec .rdLutLen s = .next { s with rdata := 0#23 ++ s.lutLen }) ∧
    (exec .rdLutBits0 s = .next { s with rdata := lutWord s.lutBits 0 } ∧
    exec .rdLutBits1 s = .next { s with rdata := lutWord s.lutBits 1 } ∧
    exec .rdLutBits2 s = .next { s with rdata := lutWord s.lutBits 2 } ∧
    exec .rdLutBits3 s = .next { s with rdata := lutWord s.lutBits 3 } ∧
    exec .rdLutBits4 s = .next { s with rdata := lutWord s.lutBits 4 } ∧
    exec .rdLutBits5 s = .next { s with rdata := lutWord s.lutBits 5 } ∧
    exec .rdLutBits6 s = .next { s with rdata := lutWord s.lutBits 6 } ∧
    exec .rdLutBits7 s = .next { s with rdata := lutWord s.lutBits 7 }) ∧
    exec .rdNodeData s = .next { s with
      rdata := if s.nodeAddr.toNat < s.nodeCount then (s.node s.nodeAddr).word else 0 }

/-- While BUSY = 1 the read of each engine-owned register completes with an unspecified value and no side effect; the
count of drawn values, the model's own field, goes up by one. (40_host_interface.md section 1 (R183),
93_implementation_defined.md section 1 (U5)). -/
def Obligations.EngineOwnedReadsWhileBusyHaveNoSideEffect : Prop :=
  ∀ i ∈ [Instr.rdErrcode, .rdErrpos, .rdSymcountLo, .rdSymcountHi, .rdOutbytesLo, .rdOutbytesHi, .rdTreeInfo,
      .rdDecState, .rdBrState, .rdBitResult, .rdLutLen, .rdLutBits0, .rdLutBits1, .rdLutBits2, .rdLutBits3, .rdLutBits4,
      .rdLutBits5, .rdLutBits6, .rdLutBits7, .rdNodeData],
    ∀ s : State, s.busy = true →
      ∃ v : Word, exec i s = .next { s with rdata := v, draws := s.draws + 1 }

/-- The read of OUT_DATA pops the oldest byte b of OUTQ and returns 0x100 | b; from an empty OUTQ it returns 0 and pops
nothing; nothing else changes. The read of FIFO_STATUS returns len(OUTQ) in its high half and len(INQ) in its low
half, with no side effect. Both in every engine state. (R184, R185). -/
def Obligations.OutDataAndFifoStatusReads : Prop :=
  ∀ s : State,
    (∀ b q, s.outq = b :: q →
      exec .rdOutData s = .next { s with outq := q, rdata := 0x100#32 ||| b.setWidth 32 }) ∧
    (s.outq = [] → exec .rdOutData s = .next { s with rdata := 0 }) ∧
    exec .rdFifoStatus s = .next { s with
      rdata := BitVec.ofNat 16 s.outq.length ++ BitVec.ofNat 16 s.inq.length }

/-- A write of NODE_ADDR stores its low 9 bits in every engine state (R186); while BUSY = 0 NODE_DATA then reads as the
node word of the addressed node when the address is below NODE_COUNT and as 0 otherwise; the node word is {LEAF,
00000, SYM, RIGHT, LEFT} (R49). While BUSY = 1 the read of NODE_DATA completes with an unspecified value (R183);
that it is drawn from a counter, which goes up by one, is the model's choice (log entry 4). (10_state.md section 3
(R49), 40_host_interface.md section 1 (R183, R186)). -/
def Obligations.NodeWindowShowsTheAddressedNode : Prop :=
  ∀ (w : Word) (s : State),
    exec (.wrNodeAddr w) s = .next { s with nodeAddr := w.extractLsb' 0 9 } ∧
    (∀ n : Node, s.busy = false → s.arena[s.nodeAddr.toNat]? = some n → exec .rdNodeData s = .next { s with
      rdata := BitVec.ofBool n.leaf ++ 0#5 ++ n.sym ++ n.right ++ n.left }) ∧
    (s.busy = false → s.nodeCount ≤ s.nodeAddr.toNat → exec .rdNodeData s = .next { s with rdata := 0 }) ∧
    (s.busy = true → ∃ v : Word, exec .rdNodeData s = .next { s with rdata := v, draws := s.draws + 1 })

/-- The failure end of a command sets ERRCODE and ERRPOS, sets OUT_INVALID when OUTBYTES is not 0, sets ERR and
IRQ_PEND, makes the engine Idle, and changes nothing else. (R402). -/
def Obligations.RaiseRecordsTheError : Prop :=
  ∀ (e : ErrCode) (pos : Word) (s : State),
    raise e pos s = { s with
      errcode := e, errpos := pos, outInvalid := if s.outbytes ≠ 0 then true else s.outInvalid,
      engine := .idle, err := true, irqPend := true } ∧
    (raise e pos s).busy = false

/-- The step of NOP makes the engine Idle, sets DONE and IRQ_PEND, and changes nothing else; the step of BR_DISCARD does
that and sets BR_POS to 8. (R196, R198, R345). -/
def Obligations.NopAndBrDiscardFinish : Prop :=
  ∀ s : State, s.engine = .running .start →
    exec .nop s = .next { s with engine := .idle, done := true, irqPend := true } ∧
    exec .brDiscard s = .next { s with brPos := 8, engine := .idle, done := true, irqPend := true }

/-- The step of CLEAR sets exactly the state its rule lists and finishes; every other piece of state is unchanged.
(R199). -/
def Obligations.ClearEmptiesTheBlock : Prop :=
  ∀ s : State, s.engine = .running .start → ∃ t, exec .clear s = .next t ∧
    t = { s with
      treeValid := false, arena := [], root := 0, stk := [], lut := t.lut, brByte := 0x00, brPos := 8,
      wbyte := 0, wpos := 0, dstate := .atRoot, cur := 0, symcount := 0, bitEos := false, bitVal := false,
      outInvalid := false, cmdOvr := false, inOvf := false,
      engine := .idle, done := true, irqPend := true } ∧
    (∀ c, t.lut.get c = ⟨0, 0⟩) ∧ t.nodeCount = 0 ∧ t.sp = 0

/-- The first step of a latched word with OPCODE at least 0x0D or RSVD not 0 is BAD_COMMAND with ERRPOS the whole word;
no other state changes. (R197). -/
def Obligations.ReservedCommandEndsWithBadCommand : Prop :=
  ∀ s : State, s.engine = .running .start →
    (0x0D ≤ (s.cmdword.extractLsb' 0 8).toNat ∨ s.cmdword.extractLsb' 8 24 ≠ 0) →
    exec (.reserved s.cmdword) s = .next (raise .badCommand s.cmdword s) ∧
    engineTurn s = .next (raise .badCommand s.cmdword s)

/-- With n = LUT_LEN at most 256 LUT_WRITE makes the entry of LUT_SYM {n, LUT_BITS with the bits at or above n cleared},
leaves every other entry, and finishes; with n above 256 it raises LUT_BAD_LEN with ERRPOS = n; nothing else changes
and the table stays canonical. (R225). -/
def Obligations.LutWriteStoresTheMaskedCode : Prop :=
  ∀ s : State, s.engine = .running .start → s.lut.wf = true →
    (s.lutLen.toNat ≤ 256 → ∃ t, exec .lutWrite s = .next t ∧
      t = { s with lut := t.lut, engine := .idle, done := true, irqPend := true } ∧ t.lut.wf = true ∧
      (t.lut.get s.lutSym).len = s.lutLen ∧
      (∀ i, (t.lut.get s.lutSym).bits.getLsbD i = (decide (i < s.lutLen.toNat) && s.lutBits.getLsbD i)) ∧
      ∀ c, c ≠ s.lutSym → t.lut.get c = s.lut.get c) ∧
    (256 < s.lutLen.toNat → exec .lutWrite s = .next (raise .lutBadLen (s.lutLen.setWidth 32) s))

/-- The step of LUT_READ copies LEN and BITS of the entry of LUT_SYM to LUT_LEN and LUT_BITS, finishes, and changes
nothing else. (R230). -/
def Obligations.LutReadCopiesTheEntry : Prop :=
  ∀ s : State, s.engine = .running .start →
    exec .lutRead s = .next { s with
      lutLen := (s.lut.get s.lutSym).len, lutBits := (s.lut.get s.lutSym).bits,
      engine := .idle, done := true, irqPend := true }

/-- With TREE_VALID = 0 LUT_BUILD raises NO_TREE(0); with a leaf as root it raises DEGENERATE_TREE(0), the table
unchanged both times. For every held tree of 2 to 256 leaves it finishes with the table in which each symbol of the
tree has the root-to-leaf path of its last leaf (left before right) as its code and every other symbol has none;
nothing else changes and the table is canonical. (41_code_table.md section 2 (R240), 41_code_table.md section 1
(R220, R221), 92_eei_decisions.md D13). -/
def Obligations.LutBuildRecordsEveryLeafPath : Prop :=
  ∀ s : State, s.engine = .running .start →
    (s.treeValid = false → exec .lutBuild s = .next (raise .noTree 0 s)) ∧
    (s.treeValid = true → (s.node s.root).leaf = true → exec .lutBuild s = .next (raise .degenerateTree 0 s)) ∧
    ∀ t : HuffTree, Holds s t → 2 ≤ t.leaves →
      ∃ u, exec .lutBuild s = .next u ∧
        u = { s with lut := u.lut, engine := .idle, done := true, irqPend := true } ∧
        u.lut.wf = true ∧ ∀ c, u.lut.get c = t.codeOf c

/-- At the InPop of a tag with index k TREE_LOAD, and the tree part of DECODE_STREAM, raises TREE_EOS at end of stream,
TREE_LEAF_TRUNCATED for a Leaf tag in the last byte, TREE_STACK_UNDERFLOW for an Interior tag with fewer than two
items, TREE_NODE_OVERFLOW with 511 nodes, TREE_BAD_TOKEN for any other byte, each with position k; a Leaf tag before
the last byte leads to its symbol; an Interior tag before the last byte joins the two top items, the first popped as
RIGHT, and pushes the new node. The token that ends at TREE_SIZE is in TreeLoadBeginsAndEnds and
DecodeStreamRunsItsParts, the wait for a byte in WaitBitsShowTheBlockedEngine. (42_tree_codec.md section 1 (R262,
R263, R267), 60_exceptions.md section 2 (R410)). -/
def Obligations.TreeLoadTakesATag : Prop :=
  ∀ i ∈ [Instr.treeLoad, .decodeStream], ∀ (k : Nat) (s : State), s.engine = .running (.treeTag k) →
    (s.inq = [] → s.inEos = true → exec i s = .next (raise .treeEos (BitVec.ofNat 32 k) s)) ∧
    ∀ (b : Byte) (q : List Byte), s.inq = b :: q →
      (b = 0x4C → k + 1 = s.treeSize.toNat →
        exec i s = .next (raise .treeLeafTruncated (BitVec.ofNat 32 k) { s with inq := q })) ∧
      (b = 0x4C → k + 1 ≠ s.treeSize.toNat →
        exec i s = .next { s with inq := q, engine := .running (.treeSym k) }) ∧
      (b = 0x49 → s.stk.length < 2 →
        exec i s = .next (raise .treeStackUnderflow (BitVec.ofNat 32 k) { s with inq := q, stk := [] })) ∧
      (∀ r l rest, b = 0x49 → s.stk = r :: l :: rest → s.arena.length = 511 →
        exec i s = .next (raise .treeNodeOverflow (BitVec.ofNat 32 k) { s with inq := q, stk := rest })) ∧
      (∀ r l rest, b = 0x49 → s.stk = r :: l :: rest → s.arena.length < 511 → rest.length < 256 →
        k + 1 < s.treeSize.toNat →
        exec i s = .next { s with
          inq := q, arena := s.arena ++ [⟨false, 0, l, r⟩], stk := BitVec.ofNat 9 s.arena.length :: rest,
          engine := .running (.treeTag (k + 1)) }) ∧
      (b ≠ 0x4C → b ≠ 0x49 →
        exec i s = .next (raise .treeBadToken (BitVec.ofNat 32 k) { s with inq := q }))

/-- At the InPop of the symbol of the Leaf token at index k TREE_LOAD, and the tree part of DECODE_STREAM, raises
TREE_EOS(k+1) at end of stream, TREE_NODE_OVERFLOW(k) with 511 nodes, TREE_STACK_OVERFLOW(k) with 256 items (the
node stays allocated); else, before the last byte, it allocates and pushes the leaf and goes on at index k+2. The
symbol that ends at TREE_SIZE is in TreeLoadBeginsAndEnds and DecodeStreamRunsItsParts, the wait for a byte in
WaitBitsShowTheBlockedEngine. (42_tree_codec.md section 1 (R262, R263), 60_exceptions.md section 2 (R410)). -/
def Obligations.TreeLoadTakesASymbol : Prop :=
  ∀ i ∈ [Instr.treeLoad, .decodeStream], ∀ (k : Nat) (s : State), s.engine = .running (.treeSym k) →
    (s.inq = [] → s.inEos = true → exec i s = .next (raise .treeEos (BitVec.ofNat 32 (k + 1)) s)) ∧
    ∀ (b : Byte) (q : List Byte), s.inq = b :: q →
      (s.arena.length = 511 →
        exec i s = .next (raise .treeNodeOverflow (BitVec.ofNat 32 k) { s with inq := q })) ∧
      (s.arena.length < 511 → s.stk.length = 256 →
        exec i s = .next (raise .treeStackOverflow (BitVec.ofNat 32 k)
          { s with inq := q, arena := s.arena ++ [⟨true, b, 0, 0⟩] })) ∧
      (s.arena.length < 511 → s.stk.length < 256 → k + 2 < s.treeSize.toNat →
        exec i s = .next { s with
          inq := q, arena := s.arena ++ [⟨true, b, 0, 0⟩], stk := BitVec.ofNat 9 s.arena.length :: s.stk,
          engine := .running (.treeTag (k + 2)) })

/-- The first step of TREE_LOAD empties the bitstream reader, the tree and the stack and clears TREE_VALID; with
TREE_SIZE = 0 it ends with TREE_NOT_SINGLE_ROOT(0) having read nothing, else it stands at its first InPop. When the
token that ends at TREE_SIZE is the one that leaves a single item, TREE_LOAD makes that node the root, sets
TREE_VALID, empties the stack and finishes; when it leaves n other than 1 items it raises TREE_NOT_SINGLE_ROOT(n),
with the token taken. (42_tree_codec.md section 1 (R261, R262, R264, R265)). -/
def Obligations.TreeLoadBeginsAndEnds : Prop :=
  ∀ s : State,
    (s.engine = .running .start → s.treeSize ≠ 0 → exec .treeLoad s = .next { s with
      brPos := 8, treeValid := false, arena := [], root := 0, stk := [], engine := .running (.treeTag 0) }) ∧
    (s.engine = .running .start → s.treeSize = 0 → exec .treeLoad s = .next (raise .treeNotSingleRoot 0
      { s with brPos := 8, treeValid := false, arena := [], root := 0, stk := [] })) ∧
    ∀ (k : Nat) (b : Byte) (q : List Byte), s.inq = b :: q → s.arena.length < 511 →
    (∀ r l rest, s.engine = .running (.treeTag k) → b = 0x49 → k + 1 = s.treeSize.toNat →
      s.stk = r :: l :: rest → rest.length < 256 →
      (rest = [] → exec .treeLoad s = .next { s with
        inq := q, arena := s.arena ++ [⟨false, 0, l, r⟩], root := BitVec.ofNat 9 s.arena.length, stk := [],
        treeValid := true, engine := .idle, done := true, irqPend := true }) ∧
      (rest ≠ [] → exec .treeLoad s = .next (raise .treeNotSingleRoot (BitVec.ofNat 32 (rest.length + 1)) { s with
        inq := q, arena := s.arena ++ [⟨false, 0, l, r⟩], stk := BitVec.ofNat 9 s.arena.length :: rest }))) ∧
    (s.engine = .running (.treeSym k) → k + 2 = s.treeSize.toNat → s.stk.length < 256 →
      (s.stk = [] → exec .treeLoad s = .next { s with
        inq := q, arena := s.arena ++ [⟨true, b, 0, 0⟩], root := BitVec.ofNat 9 s.arena.length, stk := [],
        treeValid := true, engine := .idle, done := true, irqPend := true }) ∧
      (s.stk ≠ [] → exec .treeLoad s = .next (raise .treeNotSingleRoot (BitVec.ofNat 32 (s.stk.length + 1)) { s with
        inq := q, arena := s.arena ++ [⟨true, b, 0, 0⟩], stk := BitVec.ofNat 9 s.arena.length :: s.stk })))

/-- For every tree of at most 256 leaves, TREE_LOAD with TREE_SIZE the length of its token stream and that stream at the
head of INQ from the start, the host silent meanwhile (no inputs, log entry 1), finishes, having taken exactly those
bytes, with the tree's nodes in token order in the arena, ROOT the last node, TREE_VALID set, the bitstream reader
empty, and nothing else changed. (42_tree_codec.md section 1 (R262, R264, R265, R266), 30_encoding.md section 3
(R125, R128)). -/
def Obligations.TreeLoadAcceptsEveryDump : Prop :=
  ∀ (t : HuffTree) (s : State) (rest : List Byte), Begins 0x05 s → t.leaves ≤ 256 →
    s.treeSize.toNat = t.tokens.length → s.inq = t.tokens ++ rest →
    ∃ n, steps n s = .next { s with
      brPos := 8, treeValid := true, arena := t.nodes 0, root := BitVec.ofNat 9 (t.size - 1), stk := [], inq := rest,
      engine := .idle, done := true, irqPend := true }

/-- Whenever a TREE_LOAD with the host silent (no inputs, log entry 1) ends by finish, the bytes it took are the token
stream of some tree of at most 256 leaves, TREE_SIZE bytes long, and the block holds that tree. (42_tree_codec.md
section 1 (R260, R262, R265, R266)). -/
def Obligations.TreeLoadAcceptsOnlyDumps : Prop :=
  ∀ (s u : State) (n : Nat), Begins 0x05 s → s.done = false → steps n s = .next u → u.done = true →
    ∃ t : HuffTree, Holds u t ∧ s.inq = t.tokens ++ u.inq ∧ s.treeSize.toNat = t.tokens.length

/-- With TREE_VALID = 0 TREE_STORE raises NO_TREE(0) before any output; at an OutPush with room it appends its byte,
counts it, and goes on to the next byte or finishes after the last. (42_tree_codec.md section 2 (R280),
40_host_interface.md section 2 (R193)). -/
def Obligations.TreeStoreBeginsAndPushes : Prop :=
  ∀ (s : State) (b c : Byte) (rest : List Byte),
    (s.engine = .running .start → s.treeValid = false → exec .treeStore s = .next (raise .noTree 0 s)) ∧
    (s.engine = .running (.treeOut b (c :: rest)) → s.outq.length < s.outDepth →
      exec .treeStore s = .next { s with
        outq := s.outq ++ [b], outbytes := s.outbytes + 1, engine := .running (.treeOut c rest) }) ∧
    (s.engine = .running (.treeOut b []) → s.outq.length < s.outDepth →
      exec .treeStore s = .next { s with
        outq := s.outq ++ [b], outbytes := s.outbytes + 1, engine := .idle, done := true, irqPend := true })

/-- For every held tree, TREE_STORE with room in the output FIFO for the whole stream, the host silent meanwhile (no
inputs, log entry 1), finishes having appended exactly the tree's token stream, counted in OUTBYTES, and changed
nothing else. (42_tree_codec.md section 2 (R280, R281), 30_encoding.md section 3 (R125)). -/
def Obligations.TreeStoreWritesTheDump : Prop :=
  ∀ (t : HuffTree) (s : State), Begins 0x06 s → Holds s t → s.outq.length + t.tokens.length ≤ s.outDepth →
    ∃ n, steps n s = .next { s with
      outq := s.outq ++ t.tokens, outbytes := s.outbytes + BitVec.ofNat 64 t.tokens.length,
      engine := .idle, done := true, irqPend := true }

/-- ENCODE's first step empties reader and packer and zeroes SYMCOUNT. An input byte with a code has the code's bits put
above those WBYTE holds: if they leave it short of full the symbol is counted and the next byte awaited, else the
full byte stands at its OutPush with the bits that remain. That OutPush, with room, appends the byte and puts the
remaining bits into the emptied packer in the same way. An input byte with an empty entry raises LUT_MISS with that
byte and discards the partial byte. At end of stream with WPOS = 0 it finishes, with WPOS > 0 it flushes the partial
byte and finishes. (43_encoder_bitpacker.md (R301, R302, R303, R305, R306)). -/
def Obligations.EncodeBeginsMissesAndEnds : Prop :=
  ∀ s : State,
    (s.engine = .running .start → exec .encode s = .next { s with
      brPos := 8, symcount := 0, wbyte := 0, wpos := 0, engine := .running .encIn }) ∧
    (s.engine = .running .encIn → s.inq = [] → s.inEos = true → s.wpos = 0 →
      exec .encode s = .next { s with engine := .idle, done := true, irqPend := true }) ∧
    (s.engine = .running .encIn → s.inq = [] → s.inEos = true → s.wpos ≠ 0 →
      exec .encode s = .next { s with engine := .running .encFlush }) ∧
    (s.engine = .running .encFlush → s.outq.length < s.outDepth → exec .encode s = .next { s with
      outq := s.outq ++ [s.wbyte], outbytes := s.outbytes + 1, wbyte := 0, wpos := 0,
      engine := .idle, done := true, irqPend := true }) ∧
    (∀ c q, s.engine = .running .encIn → s.inq = c :: q → (s.lut.get c).len = 0 →
      exec .encode s = .next (raise .lutMiss (c.setWidth 32) { s with inq := q, wbyte := 0, wpos := 0 })) ∧
    (∀ c q, s.engine = .running .encIn → s.inq = c :: q → (s.lut.get c).len ≠ 0 →
      let bits := (s.lut.get c).toBits
      (s.wpos.val + bits.length < 8 → exec .encode s = .next { s with
        inq := q, wbyte := placed s.wbyte s.wpos.val bits, wpos := Fin.ofNat 8 (s.wpos.val + bits.length),
        symcount := s.symcount + 1 }) ∧
      (8 ≤ s.wpos.val + bits.length → exec .encode s = .next { s with
        inq := q, wbyte := placed s.wbyte s.wpos.val bits, wpos := 7,
        engine := .running (.encOut (bits.drop (8 - s.wpos.val))) })) ∧
    (∀ rest, s.engine = .running (.encOut rest) → s.outq.length < s.outDepth →
      (rest.length < 8 → exec .encode s = .next { s with
        outq := s.outq ++ [s.wbyte], outbytes := s.outbytes + 1, wbyte := placed 0 0 rest,
        wpos := Fin.ofNat 8 rest.length, symcount := s.symcount + 1, engine := .running .encIn }) ∧
      (8 ≤ rest.length → exec .encode s = .next { s with
        outq := s.outq ++ [s.wbyte], outbytes := s.outbytes + 1, wbyte := placed 0 0 rest,
        wpos := 7, engine := .running (.encOut (rest.drop 8)) }))

/-- For every input stream, all of it in INQ with its end signalled from the start, in which every byte has a code,
ENCODE with room in the output FIFO for the whole output, the host silent meanwhile (no inputs, log entry 1),
finishes having taken all of it and appended exactly the codes' bits, packed least-significant bit first and zero-
padded to ceil(N/8) bytes; SYMCOUNT is the number of input bytes, and nothing else changed. (43_encoder_bitpacker.md
(R301, R302, R303, R304, R305), 30_encoding.md section 4 (R129)). -/
def Obligations.EncodePacksTheCodes : Prop :=
  ∀ (s : State) (xs : List Byte), Begins 0x07 s → s.inq = xs → s.inEos = true →
    (∀ x ∈ xs, (s.lut.get x).len ≠ 0) →
    let out := packed (xs.flatMap fun x => (s.lut.get x).toBits)
    s.outq.length + out.length ≤ s.outDepth →
    ∃ n, steps n s = .next { s with
      brPos := 8, symcount := BitVec.ofNat 64 xs.length, wbyte := 0, wpos := 0, inq := [], outq := s.outq ++ out,
      outbytes := s.outbytes + BitVec.ofNat 64 out.length, engine := .idle, done := true, irqPend := true }

/-- With a bit buffered READ_BIT returns it without touching the stream; with none it stands at its InPop, from which a
byte is buffered and its bit 0 returned, and end of stream is reported in BIT_RESULT with the reader unchanged; each
of these ends by finish, never with an error. At the InPop with no byte and no end of stream it waits: the turn of a
blocked engine, which by R194 has no step, changes nothing (log entry 2, the model's choice).
(44_bitstream_reader.md (R331, R335, R340), 40_host_interface.md section 2 (R194)). -/
def Obligations.ReadBitReturnsTheNextBit : Prop :=
  ∀ s : State,
    (s.engine = .running .start → s.brPos ≠ 8 → exec .readBit s = .next { s with
      bitVal := s.brByte.getLsbD s.brPos.val, bitEos := false, brPos := s.brPos + 1,
      engine := .idle, done := true, irqPend := true }) ∧
    (s.engine = .running .start → s.brPos = 8 → exec .readBit s = .next { s with engine := .running .bitIn }) ∧
    (∀ b q, s.engine = .running .bitIn → s.inq = b :: q → exec .readBit s = .next { s with
      inq := q, brByte := b, brPos := 1, bitVal := b.getLsbD 0, bitEos := false,
      engine := .idle, done := true, irqPend := true }) ∧
    (s.engine = .running .bitIn → s.inq = [] → s.inEos = true → exec .readBit s = .next { s with
      bitVal := false, bitEos := true, engine := .idle, done := true, irqPend := true }) ∧
    (s.engine = .running .bitIn → s.inq = [] → s.inEos = false → exec .readBit s = .next s)

/-- The step of MAGIC_CHECK finishes when HDR_MAGIC equals the parameter MAGIC and raises BAD_MAGIC(HDR_MAGIC)
otherwise; nothing else changes. (R362). -/
def Obligations.MagicCheckComparesAllBits : Prop :=
  ∀ s : State, s.engine = .running .start →
    (s.hdrMagic = s.params.magic →
      exec .magicCheck s = .next { s with engine := .idle, done := true, irqPend := true }) ∧
    (s.hdrMagic ≠ s.params.magic → exec .magicCheck s = .next (raise .badMagic s.hdrMagic s))

/-- DECODE without a tree raises NO_TREE(0) and leaves SYMCOUNT, DSTATE and CUR; with FILE_SIZE = 0 it finishes at once;
with a leaf as root it raises DEGENERATE_TREE(0) before reading a bit; else it walks from the root the bits the
reader holds buffered, whatever BR_POS is, to the OutPush of the first leaf met or to its InPop, and with no bit
buffered it stands at its InPop at once. The push of the last symbol finishes with DSTATE Done and CUR = ROOT; the
push of an earlier one counts it and walks the buffered bits from the root in the same way (a leaf as root, which no
run meets here, raises DEGENERATE_TREE(0)). End of stream at its InPop raises DECODE_EOS with DSTATE as position.
(45_decoder.md section 2 (R365, R366, R368, R369, R370), 44_bitstream_reader.md (R331, R333)). -/
def Obligations.DecodeBeginsEmitsAndEnds : Prop :=
  ∀ s : State,
    (s.engine = .running .start → s.treeValid = false → exec .decode s = .next (raise .noTree 0 s)) ∧
    (s.engine = .running .start → s.treeValid = true → s.fileSize = 0 → exec .decode s = .next { s with
      symcount := 0, cur := s.root, dstate := .done, engine := .idle, done := true, irqPend := true }) ∧
    (s.engine = .running .start → s.treeValid = true → s.fileSize ≠ 0 → (s.node s.root).leaf = true →
      exec .decode s = .next (raise .degenerateTree 0 { s with symcount := 0, cur := s.root, dstate := .atRoot })) ∧
    (s.engine = .running .start → s.treeValid = true → s.fileSize ≠ 0 → (s.node s.root).leaf = false →
      (s.brPos = 8 → exec .decode s = .next { s with
        symcount := 0, cur := s.root, dstate := .atRoot, engine := .running .decodeIn }) ∧
      ∃ u, exec .decode s = .next u ∧ WalksBuffered { s with symcount := 0, cur := s.root, dstate := .atRoot } u) ∧
    (s.engine = .running .decodeOut → s.outq.length < s.outDepth → s.symcount + 1 = s.fileSize →
      exec .decode s = .next { s with
        outq := s.outq ++ [(s.node s.cur).sym], outbytes := s.outbytes + 1, symcount := s.symcount + 1,
        cur := s.root, dstate := .done, engine := .idle, done := true, irqPend := true }) ∧
    (s.engine = .running .decodeOut → s.outq.length < s.outDepth → s.symcount + 1 ≠ s.fileSize →
      let v : State := { s with
        outq := s.outq ++ [(s.node s.cur).sym], outbytes := s.outbytes + 1, symcount := s.symcount + 1,
        cur := s.root, dstate := .atRoot }
      ((s.node s.root).leaf = false → ∃ u, exec .decode s = .next u ∧ WalksBuffered v u) ∧
      ((s.node s.root).leaf = true → exec .decode s = .next (raise .degenerateTree 0 v))) ∧
    (s.engine = .running .decodeIn → s.inq = [] → s.inEos = true →
      exec .decode s = .next (raise .decodeEos (s.dstate.code.setWidth 32) s))

/-- At DECODE's InPop with a byte to take and the count not reached: if the first m bits of the byte, 1 to 8 of them,
lead through interior nodes to a leaf, the step ends at the OutPush of that leaf with m bits used; if all 8 lead to
an interior node, it ends at the next InPop with the reader empty. (45_decoder.md section 2 (R365, R366),
44_bitstream_reader.md (R331)). -/
def Obligations.DecodeWalksOneLevelPerBit : Prop :=
  ∀ (s : State) (b : Byte) (q : List Byte) (m : Nat),
    s.engine = .running .decodeIn → s.inq = b :: q → s.symcount ≠ s.fileSize → 1 ≤ m → m ≤ 8 →
    (∀ n, 1 ≤ n → n < m → (s.node (s.walk s.cur (firstBits b n))).leaf = false) →
    ((s.node (s.walk s.cur (firstBits b m))).leaf = true → exec .decode s = .next { s with
      inq := q, brByte := b, brPos := Fin.ofNat 9 m, cur := s.walk s.cur (firstBits b m),
      dstate := if m = 1 then s.dstate else .descending, engine := .running .decodeOut }) ∧
    (m = 8 → (s.node (s.walk s.cur (firstBits b m))).leaf = false → exec .decode s = .next { s with
      inq := q, brByte := b, brPos := 8, cur := s.walk s.cur (firstBits b m),
      dstate := .descending, engine := .running .decodeIn })

/-- For every held tree of 2 to 256 leaves and every sequence of its leaves, with FILE_SIZE the length of the sequence
and room in the output FIFO for all of it, the host silent meanwhile (no inputs, log entry 1): if the bits before
the bitstream reader, the buffered ones and then those in INQ, begin with the paths of the sequence, DECODE finishes
having emitted exactly the leaves' symbols and read exactly the paths' bits, and nothing else changed. The second
clause is the case of an empty reader and the packed paths at the head of INQ: exactly the packed bytes are taken.
(45_decoder.md section 2 (R360, R365, R366, R367, R370), 44_bitstream_reader.md (R331, R333), 30_encoding.md section
4 (R129, R130)). -/
def Obligations.DecodeRecoversTheSymbols : Prop :=
  ∀ (t : HuffTree) (s : State) (xs : List (Byte × List Bool)),
    Begins 0x0B s → Holds s t → 2 ≤ t.leaves → (∀ x ∈ xs, x ∈ t.paths) →
    xs.length < 2 ^ 64 → s.fileSize = BitVec.ofNat 64 xs.length → s.outq.length + xs.length ≤ s.outDepth →
    let bits := xs.flatMap Prod.snd
    (∀ more, s.pendingBits = bits ++ more → ∃ n, steps n s = .next { s.afterBits bits.length with
      outq := s.outq ++ xs.map Prod.fst, outbytes := s.outbytes + BitVec.ofNat 64 xs.length,
      symcount := s.fileSize, dstate := .done, cur := s.root, engine := .idle, done := true, irqPend := true }) ∧
    (∀ rest, s.brPos = 8 → s.inq = packed bits ++ rest → ∃ n, steps n s = .next { s with
      outq := s.outq ++ xs.map Prod.fst, outbytes := s.outbytes + BitVec.ofNat 64 xs.length, inq := rest,
      brByte := (packed bits).getLastD s.brByte,
      brPos := Fin.ofNat 9 (if bits.length % 8 = 0 then 8 else bits.length % 8),
      symcount := s.fileSize, dstate := .done, cur := s.root, engine := .idle, done := true, irqPend := true })

/-- When the code table is the one R240 derives from the held tree (LutBuildRecordsEveryLeafPath says that LUT_BUILD
leaves it), then for every sequence x of symbols with a code, with FILE_SIZE = len(x) and room in the output FIFO
for x, the host silent meanwhile (no inputs, log entry 1): if the bits before the bitstream reader begin with the
codes of x, DECODE emits exactly x, reads exactly those bits and changes nothing else. The second clause is the case
of an empty reader and the packed codes of x at the head of INQ (EncodePacksTheCodes says that ENCODE writes them
for x): exactly those bytes are taken. (41_code_table.md section 2 (R240, R243), 43_encoder_bitpacker.md (R304,
R305, R307), 44_bitstream_reader.md (R331, R333), 45_decoder.md section 2 (R365)). -/
def Obligations.DecodeInvertsEncode : Prop :=
  ∀ (t : HuffTree) (s : State) (xs : List Byte),
    Begins 0x0B s → Holds s t → 2 ≤ t.leaves → (∀ c, s.lut.get c = t.codeOf c) →
    (∀ x ∈ xs, (s.lut.get x).len ≠ 0) → xs.length < 2 ^ 64 → s.fileSize = BitVec.ofNat 64 xs.length →
    s.outq.length + xs.length ≤ s.outDepth →
    let bits := xs.flatMap fun x => (s.lut.get x).toBits
    (∀ more, s.pendingBits = bits ++ more → ∃ n, steps n s = .next { s.afterBits bits.length with
      outq := s.outq ++ xs, outbytes := s.outbytes + BitVec.ofNat 64 xs.length,
      symcount := s.fileSize, dstate := .done, cur := s.root, engine := .idle, done := true, irqPend := true }) ∧
    (∀ rest, s.brPos = 8 → s.inq = packed bits ++ rest →
      ∃ n u, steps n s = .next u ∧ u.engine = .idle ∧ u.done = true ∧ u.err = s.err ∧
        u.outq = s.outq ++ xs ∧ u.inq = rest)

/-- At its start DECODE_STREAM with a wrong magic raises BAD_MAGIC and else does TREE_LOAD's first step; at TREE_LOAD's
control points it does TREE_LOAD's step, but where that would finish it does DECODE's first step on the loaded tree;
at DECODE's control points it does DECODE's step. (45_decoder.md section 3 (R380), 45_decoder.md section 1 (R363)). -/
def Obligations.DecodeStreamRunsItsParts : Prop :=
  ∀ s : State,
    (s.engine = .running .start → s.hdrMagic ≠ s.params.magic →
      exec .decodeStream s = .next (raise .badMagic s.hdrMagic s)) ∧
    (s.engine = .running .start → s.hdrMagic = s.params.magic → exec .decodeStream s = exec .treeLoad s) ∧
    (∀ k t, (s.engine = .running (.treeTag k) ∨ s.engine = .running (.treeSym k)) → s.treeValid = false →
      exec .treeLoad s = .next t →
      (t.treeValid = false → exec .decodeStream s = .next t) ∧
      (t.treeValid = true → ∃ u, t = finish u ∧ u.done = s.done ∧ u.irqPend = s.irqPend ∧
        exec .decodeStream s = exec .decode { u with engine := .running .start })) ∧
    (s.engine = .running .decodeIn ∨ s.engine = .running .decodeOut → exec .decodeStream s = exec .decode s)

/-- For a stream of the right magic whose tree has 2 to 256 leaves: with HDR_MAGIC, TREE_SIZE and FILE_SIZE from its
header, the tree bytes and then the packed payload in INQ from the start, and room in the output FIFO for all the
symbols, the host silent meanwhile (no inputs, log entry 1), DECODE_STREAM finishes having emitted exactly the
original symbols, holding the tree, and having taken exactly the stream's bytes. (45_decoder.md section 3 (R380,
R381), 30_encoding.md section 5 (R131)). -/
def Obligations.DecodeStreamDecodesAWholeStream : Prop :=
  ∀ (t : HuffTree) (s : State) (xs : List (Byte × List Bool)) (rest : List Byte),
    Begins 0x0C s → s.hdrMagic = s.params.magic → 2 ≤ t.leaves → t.leaves ≤ 256 →
    s.treeSize.toNat = t.tokens.length → (∀ x ∈ xs, x ∈ t.paths) →
    xs.length < 2 ^ 64 → s.fileSize = BitVec.ofNat 64 xs.length →
    s.inq = t.tokens ++ packed (xs.flatMap Prod.snd) ++ rest → s.outq.length + xs.length ≤ s.outDepth →
    ∃ n u, steps n s = .next u ∧ u.engine = .idle ∧ u.done = true ∧ u.err = s.err ∧ Holds u t ∧
      u.outq = s.outq ++ xs.map Prod.fst ∧ u.inq = rest ∧ u.symcount = s.fileSize ∧ u.dstate = .done

/-- The state after reset meets the invariant of the block, whatever its parameters. (70_reset_and_hazards.md section 1
(R450, R452)). -/
def Obligations.InvariantHoldsAtReset : Prop :=
  BlockInv State.reset

/-- From every state that meets the invariant (FIFO bounds, canonical code table with every entry of its form, arena and
stack bounds, the tree invariants, one of DONE and ERR, the engine at a control point of the latched command, the
packer empty outside ENCODE) every step, of the engine, of a host access or of reset, gives a state that meets it.
(10_state.md section 4 (R50, R51, R52, R53, R55), 10_state.md section 5 (R58), 10_state.md sections 6 and 7 (R60,
R61, R62), 42_tree_codec.md section 1 (R262, R264)). -/
def Obligations.StepKeepsInvariant : Prop :=
  ∀ s t : State, BlockInv s → step s = .next t → BlockInv t

/-- In every state that meets the invariant of the block with TREE_VALID = 1: children stand below their parent and
differ; every node but the root is the child of exactly one interior node; the root is the last node; NODE_COUNT =
2L - 1 with 1 to 256 leaves. R53 is an inference of the spec's own (from R262 and R50); that it holds in every state
that meets BlockInv, the model's invariant, is this model's form of it. (10_state.md section 4 (R50, R51, R53),
42_tree_codec.md section 1 (R262)). -/
def Obligations.HeldTreeMeetsTheTreeInvariants : Prop :=
  ∀ s : State, BlockInv s → s.treeValid = true →
    (∀ (i : Nat) (n : Node), s.arena[i]? = some n → n.leaf = false →
      n.left.toNat < i ∧ n.right.toNat < i ∧ n.left ≠ n.right) ∧
    (∀ j, j < s.nodeCount → j ≠ s.root.toNat →
      ∃! i : Nat, ∃ n : Node, s.arena[i]? = some n ∧ n.leaf = false ∧ (n.left.toNat = j ∨ n.right.toNat = j)) ∧
    s.root.toNat + 1 = s.nodeCount ∧
    s.nodeCount + 1 = 2 * leafCount s.arena ∧ 1 ≤ leafCount s.arena ∧ leafCount s.arena ≤ 256

/-- In every state that meets the invariant, with BUSY = 1 and neither WAIT_IN nor WAIT_OUT, the engine's turn gives a
different state: only an unmet host duty holds a command up. (40_host_interface.md section 2 (R194, R195),
40_host_interface.md section 4 (R200, R201)). -/
def Obligations.EnabledEngineStepMovesTheEngine : Prop :=
  ∀ s : State, BlockInv s → s.busy = true → s.waitIn = false → s.waitOut = false →
    ∃ t, engineTurn s = .next t ∧ t ≠ s

/-- A step that sets IRQ_PEND ends a command; a step that ends a command, other than reset, leaves it set; a step that
clears it is a host write of IRQ_STATUS with bit 0 = 1 or a reset. (60_exceptions.md section 3 (R420, R421),
10_state.md section 3 (R38)). -/
def Obligations.IrqPendFollowsCommandEnds : Prop :=
  ∀ s t : State, step s = .next t →
    (s.irqPend = false → t.irqPend = true → s.busy = true ∧ t.busy = false) ∧
    (s.busy = true → t.busy = false → (∀ rest, s.inputs ≠ .reset :: rest) → t.irqPend = true) ∧
    (s.irqPend = true → t.irqPend = false →
      (∃ w rest, s.inputs = .access (.write 0x14 w) :: rest ∧ w.getLsbD 0 = true) ∨
      ∃ rest, s.inputs = .reset :: rest)

/-- Every step of a command either leaves ERR, ERRCODE and ERRPOS as they are, or ends the command with an error code
that the error table gives that command. (60_exceptions.md section 1 (R401), 60_exceptions.md section 2 (R410)). -/
def Obligations.EachCommandRaisesOnlyItsErrors : Prop :=
  ∀ (i : Instr) (s t : State), isCommand i = true → exec i s = .next t →
    (t.err = s.err ∧ t.errcode = s.errcode ∧ t.errpos = s.errpos) ∨
    (t.err = true ∧ t.engine = .idle ∧ t.errcode ∈ mayRaise i)

/-- In every state that meets the invariant, an engine step that ends a command with an error after a byte of output
does so with DECODE_EOS or LUT_MISS and sets OUT_INVALID: every other format violation is found before any output.
(60_exceptions.md section 1 (R402, R407), 90_conflicts.md C2). -/
def Obligations.OnlyTwoErrorsComeAfterOutput : Prop :=
  ∀ s t : State, BlockInv s → s.busy = true → engineTurn s = .next t → t.err = true → t.outbytes ≠ 0 →
    (t.errcode = .decodeEos ∨ t.errcode = .lutMiss) ∧ t.outInvalid = true

/-- Every step of a command leaves CTRL, TREE_SIZE, FILE_SIZE, HDR_MAGIC, LUT_SYM, NODE_ADDR, IN_EOS, CMDWORD, the
parameters and the host's record unchanged, and LUT_LEN and LUT_BITS too unless it is LUT_READ. (10_state.md section
2 (R32), 10_state.md section 3 (R48), 10_state.md section 7 (R64)). -/
def Obligations.CommandsKeepHostOwnedState : Prop :=
  ∀ (i : Instr) (s t : State), isCommand i = true → exec i s = .next t →
    (t.irqEn = s.irqEn ∧ t.treeSize = s.treeSize ∧ t.fileSizeLo = s.fileSizeLo ∧ t.fileSizeHi = s.fileSizeHi ∧
      t.hdrMagic = s.hdrMagic ∧ t.lutSym = s.lutSym ∧ t.nodeAddr = s.nodeAddr ∧ t.inEos = s.inEos ∧
      t.cmdword = s.cmdword ∧ t.params = s.params ∧ t.rdata = s.rdata ∧ t.draws = s.draws ∧ t.inputs = s.inputs) ∧
    (i ≠ .lutRead → t.lutLen = s.lutLen ∧ t.lutBits = s.lutBits)

/-- While BUSY = 1 every host access leaves the engine, the command's operands and all engine-owned state unchanged: it
changes at most INQ (by a push), OUTQ (by a pop), IN_EOS (by setting it), IRQ_EN, IRQ_PEND, CMD_OVR, IN_OVF,
NODE_ADDR and what the host has read. A push of a byte that is accepted, and a pop from an output FIFO that is not
empty, commute with the step of a command that is not blocked: both orders give the same state. So a host that feeds
INQ and drains OUTQ while a command runs, as R456 has it, cannot disturb what the command computes.
(40_host_interface.md section 1 (R176, R177, R179, R181, R184), 40_host_interface.md section 2 (R191, R195),
20_memory.md section 4 (R93), 70_reset_and_hazards.md section 2 (R456)). -/
def Obligations.HostAccessesKeepARunningCommand : Prop :=
  ∀ (i : Instr) (s t : State), isCommand i = false → exec i s = .next t → s.busy = true →
    t = { s with
      inq := t.inq, outq := t.outq, inEos := t.inEos, irqEn := t.irqEn, irqPend := t.irqPend, cmdOvr := t.cmdOvr,
      inOvf := t.inOvf, nodeAddr := t.nodeAddr, rdata := t.rdata, draws := t.draws } ∧
    (t.inq = s.inq ∨ ∃ b, t.inq = s.inq ++ [b]) ∧ (t.outq = s.outq ∨ ∃ b, s.outq = b :: t.outq) ∧
    (s.inEos = true → t.inEos = true) ∧
    (s.waitIn = false → s.waitOut = false →
      ((∃ w, i = .wrInData w) ∧ s.inEos = false ∧ s.inq.length < s.inDepth ∨ i = .rdOutData ∧ s.outq ≠ []) →
      ∀ c u, isCommand c = true → exec c s = .next u → ∃ z, exec c t = .next z ∧ exec i u = .next z)

/-- An instruction other than CLEAR and those named leaves: the held tree (TREE_LOAD, DECODE_STREAM); the code table
(LUT_WRITE, LUT_BUILD); the bitstream reader (READ_BIT, BR_DISCARD, TREE_LOAD, ENCODE, DECODE, DECODE_STREAM);
SYMCOUNT (DECODE, DECODE_STREAM, ENCODE); BIT_RESULT (READ_BIT). (00_scope.md section 2 (R7), 44_bitstream_reader.md
(R334), 10_state.md section 3 (R42, R47), 41_code_table.md section 1 (R225, R230)). -/
def Obligations.OnlyTheNamedCommandsChangeTreeTableReader : Prop :=
  ∀ (i : Instr) (s t : State), exec i s = .next t → i ≠ .clear →
    (i ∉ [Instr.treeLoad, .decodeStream] → t.arena = s.arena ∧ t.root = s.root ∧ t.treeValid = s.treeValid ∧ t.stk = s.stk) ∧
    (i ∉ [Instr.lutWrite, .lutBuild] → t.lut = s.lut) ∧
    (i ∉ [Instr.readBit, .brDiscard, .treeLoad, .encode, .decode, .decodeStream] →
      t.brByte = s.brByte ∧ t.brPos = s.brPos) ∧
    (i ∉ [Instr.decode, .decodeStream, .encode] → t.symcount = s.symcount) ∧
    (i ≠ .readBit → t.bitVal = s.bitVal ∧ t.bitEos = s.bitEos)

/-- Every step of a command leaves INQ or takes exactly its oldest byte, and leaves OUTQ and OUTBYTES or appends exactly
one byte, while there is room, and counts it: the FIFOs lose and reorder nothing. (20_memory.md section 5 (R94),
40_host_interface.md section 2 (R192, R193, R195)). -/
def Obligations.EngineStepMovesAtMostOneByteEachWay : Prop :=
  ∀ (i : Instr) (s t : State), isCommand i = true → exec i s = .next t →
    (t.inq = s.inq ∨ ∃ b, s.inq = b :: t.inq) ∧
    ((t.outq = s.outq ∧ t.outbytes = s.outbytes) ∨
      ∃ b, s.outq.length < s.outDepth ∧ t.outq = s.outq ++ [b] ∧ t.outbytes = s.outbytes + 1)

/-- Every bus read but that of OUT_DATA changes only what the host has read: RDATA and the count of drawn values.
(20_memory.md section 3 (R88)). -/
def Obligations.ReadsHaveNoSideEffect : Prop :=
  ∀ (i : Instr) (a : BitVec 8) (s t : State), encode i = .access (.read a) → a ≠ 0x78 → exec i s = .next t →
    t = { s with rdata := t.rdata, draws := t.draws }
end

