-- ==== Sys2Proof/Laws/Arena.lean ====
section
/-! SUPPORT. The arena's invariants under allocation: a leaf or an interior node put on top of a forest, and a forest of one
tree (10_state.md R53, 42_tree_codec.md R264). -/

namespace Sys2Proof.Machine

/-- How many links of one node lead to node `j`. -/
def linksTo (n : Node) (j : Nat) : Nat :=
  if n.leaf then 0 else (if n.left.toNat = j then 1 else 0) + (if n.right.toNat = j then 1 else 0)

theorem childRefs_append (a : List Node) (n : Node) (j : Nat) :
    childRefs (a ++ [n]) j = childRefs a j + linksTo n j := by
  simp [childRefs, linksTo]

theorem childRefs_nil (j : Nat) : childRefs [] j = 0 := rfl

theorem leafCount_append (a : List Node) (n : Node) :
    leafCount (a ++ [n]) = leafCount a + if n.leaf then 1 else 0 := by
  simp [leafCount, List.countP_append, List.countP_cons]

/-- Some link leads to node `j` from the arena exactly where some interior node has it as a child. -/
theorem childRefs_eq_zero {a : List Node} {j : Nat} :
    childRefs a j = 0 ↔ ∀ n ∈ a, n.leaf = false → n.left.toNat ≠ j ∧ n.right.toNat ≠ j := by
  simp only [childRefs, List.sum_eq_zero_iff, List.mem_map]
  constructor
  · intro h n hn hl
    have := h _ ⟨n, hn, rfl⟩
    rw [if_neg (by simp [hl])] at this
    constructor <;> (intro e; simp [e] at this)
  · rintro h _ ⟨n, hn, rfl⟩
    cases hl : n.leaf with
    | true => simp
    | false => obtain ⟨h1, h2⟩ := h n hn hl; simp [h1, h2]

/-- No link leads to an index no node has yet. -/
theorem NodesOk.childRefs_above {a : List Node} (h : NodesOk a) {j : Nat} (hj : a.length ≤ j) : childRefs a j = 0 := by
  rw [childRefs_eq_zero]
  intro n hn hl
  obtain ⟨i, hi, rfl⟩ := List.getElem_of_mem hn
  have := h.below i _ (List.getElem?_eq_getElem hi) hl
  omega

theorem NodesOk.nil : NodesOk [] := ⟨by simp, by simp, by simp⟩

theorem NodesOk.leaf {a : List Node} (h : NodesOk a) (b : Byte) : NodesOk (a ++ [Node.mkLeaf b]) where
  leaf_form n hn hl := by
    rcases List.mem_append.1 hn with hn | hn
    · exact h.leaf_form n hn hl
    · rw [List.mem_singleton.1 hn]; exact ⟨rfl, rfl⟩
  inner_form n hn hl := by
    rcases List.mem_append.1 hn with hn | hn
    · exact h.inner_form n hn hl
    · rw [List.mem_singleton.1 hn] at hl; cases hl
  below i n hn hl := by
    rcases Nat.lt_or_ge i a.length with hi | hi
    · rw [List.getElem?_append_left hi] at hn; exact h.below i n hn hl
    · rw [List.getElem?_append_right hi] at hn
      have := List.mem_of_getElem? hn
      rw [List.mem_singleton.1 this] at hl; cases hl

theorem NodesOk.interior {a : List Node} (h : NodesOk a) {l r : NodeIdx} (hl : l.toNat < a.length)
    (hr : r.toNat < a.length) : NodesOk (a ++ [Node.mkInterior l r]) where
  leaf_form n hn hl := by
    rcases List.mem_append.1 hn with hn | hn
    · exact h.leaf_form n hn hl
    · rw [List.mem_singleton.1 hn] at hl; cases hl
  inner_form n hn hl := by
    rcases List.mem_append.1 hn with hn | hn
    · exact h.inner_form n hn hl
    · rw [List.mem_singleton.1 hn]; rfl
  below i n hn hlf := by
    rcases Nat.lt_or_ge i a.length with hi | hi
    · rw [List.getElem?_append_left hi] at hn; exact h.below i n hn hlf
    · rw [List.getElem?_append_right hi] at hn
      have := List.mem_of_getElem? hn
      rw [List.mem_singleton.1 this]
      show l.toNat < i ∧ r.toNat < i
      omega

theorem Forest.nil : Forest [] [] := ⟨by simp, rfl, by simp⟩

theorem toNat_index {n : Nat} (h : n < 511) : (BitVec.ofNat 9 n).toNat = n := by
  rw [BitVec.toNat_ofNat]; exact Nat.mod_eq_of_lt (by omega)

theorem count_index_zero {stk : List NodeIdx} {m : Nat} (h : ∀ n ∈ stk, n.toNat < m) :
    (stk.map BitVec.toNat).count m = 0 := by
  rw [List.count_eq_zero]
  intro hm
  obtain ⟨n, hn, e⟩ := List.mem_map.1 hm
  have := h n hn
  omega

/-- A leaf allocated and pushed (42_tree_codec.md R262). -/
theorem Forest.leaf {a : List Node} {stk : List NodeIdx} (h : Forest a stk) (hn : NodesOk a)
    (hb : ∀ n ∈ stk, n.toNat < a.length) (hlt : a.length < 511) (b : Byte) :
    Forest (a ++ [Node.mkLeaf b]) (BitVec.ofNat 9 a.length :: stk) where
  once j hj := by
    have hl : linksTo (Node.mkLeaf b) j = 0 := by simp [linksTo, Node.mkLeaf]
    rw [childRefs_append, hl, List.map_cons, toNat_index hlt, List.count_cons]
    rcases Nat.lt_or_ge j a.length with h1 | h1
    · have := h.once j h1
      have hne : a.length ≠ j := by omega
      simp [hne]; omega
    · have : j = a.length := by simp at hj; omega
      subst this
      rw [hn.childRefs_above le_rfl, count_index_zero hb]
      simp
  count := by
    have := h.count
    rw [leafCount_append]
    simp [Node.mkLeaf]
    omega
  top n rest e := by
    cases e
    rw [toNat_index hlt]
    simp

/-- Two items joined under a new interior node, allocated and pushed (42_tree_codec.md R262). -/
theorem Forest.interior {a : List Node} {r l : NodeIdx} {rest : List NodeIdx} (h : Forest a (r :: l :: rest))
    (hn : NodesOk a) (hb : ∀ n ∈ r :: l :: rest, n.toNat < a.length) (hlt : a.length < 511) :
    Forest (a ++ [Node.mkInterior l r]) (BitVec.ofNat 9 a.length :: rest) where
  once j hj := by
    have hl : linksTo (Node.mkInterior l r) j = (if l.toNat = j then 1 else 0) + (if r.toNat = j then 1 else 0) := rfl
    rw [childRefs_append, hl, List.map_cons, toNat_index hlt, List.count_cons]
    have hr1 := hb r (by simp)
    have hl1 := hb l (by simp)
    rcases Nat.lt_or_ge j a.length with h1 | h1
    · have := h.once j h1
      have hne : a.length ≠ j := by omega
      simp only [List.map_cons, List.count_cons, beq_iff_eq] at this
      simp only [beq_iff_eq, hne, if_false]
      omega
    · have : j = a.length := by simp at hj; omega
      subst this
      rw [hn.childRefs_above le_rfl, count_index_zero (fun n hn => hb n (by simp [hn]))]
      have e1 : l.toNat ≠ a.length := by omega
      have e2 : r.toNat ≠ a.length := by omega
      simp [e1, e2]
  count := by
    have := h.count
    rw [leafCount_append]
    simp [Node.mkInterior] at this ⊢
    omega
  top n rest' e := by
    cases e
    rw [toNat_index hlt]
    simp

/-- One item left is a complete tree, with it as root (42_tree_codec.md R262, R264). -/
theorem Forest.tree {a : List Node} {r : NodeIdx} (h : Forest a [r]) : TreeOk a r where
  root_last := h.top r [] rfl
  once j hj := by
    have := h.once j hj
    simp only [List.map_cons, List.map_nil, List.count_cons, List.count_nil, beq_iff_eq] at this
    by_cases e : r.toNat = j
    · simp [e] at this ⊢; omega
    · have e' : j ≠ r.toNat := fun h => e h.symm
      simp [e] at this
      simp [e', this]
  count := by simpa using h.count

end Sys2Proof.Machine
end

