-- ==== Sys2Proof/Laws/Bits.lean ====
section
/-! SUPPORT. The bit-level facts of the register and code layouts. -/

namespace Sys2Proof.Machine

/-- A zero-extension written as a register format. -/
theorem zero_append {n m : Nat} (x : BitVec n) : (0#m ++ x) = x.setWidth (m + n) := by
  apply BitVec.eq_of_getLsbD_eq
  intro i hi
  rw [BitVec.getLsbD_append, BitVec.getLsbD_setWidth]
  by_cases h : i < n
  · simp [h, hi]
  · simp [h, hi, BitVec.getLsbD_of_ge x i (by omega)]

/-- A counter that has counted one, then `n` more. -/
theorem count_succ (x : BitVec 64) (n : Nat) : x + 1 + BitVec.ofNat 64 n = x + BitVec.ofNat 64 (n + 1) := by
  rw [BitVec.add_assoc, BitVec.add_comm 1, BitVec.ofNat_add]
  rfl

/-- `mask(n)[i] = 1` exactly when `i < n` (41_code_table.md R225). -/
theorem mask_getLsbD (n i : Nat) : (mask n).getLsbD i = (decide (i < 256) && decide (i < n)) := by
  simp [mask, BitVec.getLsbD_ofNat, Nat.testBit_two_pow_sub_one]

/-- LUT_BITSn holds code bits 32·n + 31 .. 32·n (10_state.md R48). -/
theorem lutWord_getLsbD (b : BitVec 256) (n j : Nat) :
    (lutWord b n).getLsbD j = (decide (j < 32) && b.getLsbD (32 * n + j)) := by
  simp [lutWord, BitVec.getLsbD_extractLsb']

/-- A write of LUT_BITSn replaces code bits 32·n + 31 .. 32·n and no other. -/
theorem setLutWord_getLsbD (b : BitVec 256) (n : Nat) (w : Word) {i : Nat} (hi : i < 256) :
    (setLutWord b n w).getLsbD i = if i / 32 = n then w.getLsbD (i % 32) else b.getLsbD i := by
  have ones : ∀ j, ((BitVec.allOnes 32).setWidth 256).getLsbD j = decide (j < 32) := by
    intro j
    rw [BitVec.getLsbD_setWidth, BitVec.getLsbD_allOnes]
    by_cases hj : j < 32 <;> simp [hj]
    omega
  simp only [setLutWord, BitVec.getLsbD_or, BitVec.getLsbD_and, BitVec.getLsbD_not, BitVec.getLsbD_shiftLeft,
    ones, BitVec.getLsbD_setWidth]
  by_cases h : i / 32 = n
  · have h1 : 32 * n ≤ i := by omega
    have h2 : i - 32 * n = i % 32 := by omega
    have h3 : i % 32 < 32 := by omega
    simp [hi, h, h2, h3, Nat.not_lt.2 h1, show i % 32 < 256 by omega]
  · rcases Nat.lt_or_ge i (32 * n) with h1 | h1
    · simp [hi, h, h1]
    · have h2 : ¬ (i - 32 * n < 32) := by omega
      have h3 : w.getLsbD (i - 32 * n) = false := BitVec.getLsbD_of_ge _ _ (by omega)
      simp [hi, h, h2, h3]

/-- The bits of a path's code are the path (41_code_table.md R220, R240). -/
theorem Code.toBits_ofPath {path : List Bool} (h : path.length ≤ 256) : (Code.ofPath path).toBits = path := by
  have hl : (BitVec.ofNat 9 path.length).toNat = path.length := by
    rw [BitVec.toNat_ofNat]; exact Nat.mod_eq_of_lt (by omega)
  apply List.ext_getElem
  · simp only [Code.toBits, Code.ofPath, hl, List.length_map, List.length_range]
  · intro i h1 h2
    simp only [Code.toBits, Code.ofPath, hl, List.getElem_map, List.getElem_range, BitVec.getLsbD_setWidth,
      BitVec.getLsbD_ofBoolListLE]
    simp [h2, show i < 256 by omega]

end Sys2Proof.Machine
end

