-- ==== Sys2Proof/Laws/CodeTable.lean ====
section
/-! SUPPORT. The laws of the code table: read after write, the frame of a write, and the canonical form. -/

namespace Sys2Proof.Machine

theorem CodeTable.get_nil (s : Byte) : CodeTable.get [] s = Code.empty := rfl

theorem CodeTable.wf_cons {k : Byte} {d : Code} {rest : CodeTable} :
    CodeTable.wf ((k, d) :: rest) = true ↔
      d ≠ Code.empty ∧ (∀ e ∈ rest, k.toNat < e.1.toNat) ∧ CodeTable.wf rest = true := by
  simp [CodeTable.wf, and_assoc]

/-- A symbol below every listed one reads as the empty entry. -/
theorem CodeTable.get_of_lt {t : CodeTable} {s : Byte} (h : ∀ e ∈ t, s.toNat < e.1.toNat) :
    t.get s = Code.empty := by
  induction t with
  | nil => rfl
  | cons e rest ih =>
    obtain ⟨k, d⟩ := e
    have hk := h (k, d) (by simp)
    have : k ≠ s := by rintro rfl; simp at hk
    simp [CodeTable.get, this, ih fun e he => h e (by simp [he])]

/-- What a write lists: old entries and the written one. -/
theorem CodeTable.mem_set {t : CodeTable} {s : Byte} {c : Code} {e : Byte × Code} (h : e ∈ t.set s c) :
    e ∈ t ∨ (e = (s, c) ∧ c ≠ Code.empty) := by
  induction t with
  | nil =>
    unfold CodeTable.set at h
    split at h <;> simp_all
  | cons x rest ih =>
    obtain ⟨k, d⟩ := x
    unfold CodeTable.set at h
    split at h
    · split at h <;> simp_all
      tauto
    · split at h
      · split at h <;> simp_all
        tauto
      · rcases List.mem_cons.1 h with h | h
        · simp [h]
        · rcases ih h with h | h <;> simp [h]

/-- Every write keeps the canonical form. -/
theorem CodeTable.wf_set {t : CodeTable} (s : Byte) (c : Code) (h : t.wf = true) : (t.set s c).wf = true := by
  induction t with
  | nil =>
    unfold CodeTable.set
    split <;> simp_all [CodeTable.wf]
  | cons x rest ih =>
    obtain ⟨k, d⟩ := x
    obtain ⟨hd, hlt, hw⟩ := CodeTable.wf_cons.1 h
    unfold CodeTable.set
    split
    · next hk =>
      subst hk
      split
      · exact hw
      · next hc => exact CodeTable.wf_cons.2 ⟨hc, hlt, hw⟩
    · next hk =>
      split
      · next hs =>
        split
        · exact h
        · next hc =>
          refine CodeTable.wf_cons.2 ⟨hc, ?_, h⟩
          intro e he
          rcases List.mem_cons.1 he with rfl | he
          · exact hs
          · exact hs.trans (hlt e he)
      · next hs =>
        have hks : k.toNat < s.toNat := by
          have : k.toNat ≠ s.toNat := fun e => hk (BitVec.eq_of_toNat_eq e.symm)
          omega
        refine CodeTable.wf_cons.2 ⟨hd, ?_, ih hw⟩
        intro e he
        rcases CodeTable.mem_set he with he | ⟨rfl, -⟩
        · exact hlt e he
        · exact hks

/-- Reading the written symbol gives what was written. -/
theorem CodeTable.get_set_same {t : CodeTable} (s : Byte) (c : Code) (h : t.wf = true) : (t.set s c).get s = c := by
  induction t with
  | nil =>
    unfold CodeTable.set
    split <;> simp_all [CodeTable.get]
  | cons x rest ih =>
    obtain ⟨k, d⟩ := x
    obtain ⟨hd, hlt, hw⟩ := CodeTable.wf_cons.1 h
    unfold CodeTable.set
    split
    · next hk =>
      subst hk
      split
      · next hc => rw [CodeTable.get_of_lt hlt, hc]
      · simp [CodeTable.get]
    · next hk =>
      split
      · next hs =>
        split
        · next hc =>
          have hks : k ≠ s := fun e => hk e.symm
          simp only [CodeTable.get, if_neg hks, hc]
          exact CodeTable.get_of_lt fun e he => hs.trans (hlt e he)
        · simp [CodeTable.get]
      · have hks : k ≠ s := fun e => hk e.symm
        simp only [CodeTable.get, if_neg hks, ih hw]

/-- Every other symbol reads as before. -/
theorem CodeTable.get_set_other {t : CodeTable} {s u : Byte} (c : Code) (hu : u ≠ s) :
    (t.set s c).get u = t.get u := by
  have hsu : s ≠ u := hu.symm
  induction t with
  | nil =>
    unfold CodeTable.set
    split <;> simp [CodeTable.get, hsu]
  | cons x rest ih =>
    obtain ⟨k, d⟩ := x
    unfold CodeTable.set
    split
    · next hk =>
      subst hk
      split <;> simp [CodeTable.get, hsu]
    · split
      · split <;> simp [CodeTable.get, hsu]
      · simp only [CodeTable.get, ih]

/-- A listed entry of a canonical table is what its symbol reads as. -/
theorem CodeTable.get_of_mem {t : CodeTable} {e : Byte × Code} (h : t.wf = true) (he : e ∈ t) : t.get e.1 = e.2 := by
  induction t with
  | nil => simp at he
  | cons x rest ih =>
    obtain ⟨k, d⟩ := x
    obtain ⟨-, hlt, hw⟩ := CodeTable.wf_cons.1 h
    rcases List.mem_cons.1 he with rfl | he
    · simp [CodeTable.get]
    · have : k ≠ e.1 := by
        intro hk
        have := hlt e he
        simp [hk] at this
      simp [CodeTable.get, this, ih hw he]

/-- A table reads as a listed entry or as the empty one. -/
theorem CodeTable.get_cases (t : CodeTable) (s : Byte) : t.get s = Code.empty ∨ (s, t.get s) ∈ t := by
  induction t with
  | nil => exact .inl rfl
  | cons x rest ih =>
    obtain ⟨k, d⟩ := x
    by_cases hk : k = s
    · subst hk; simp [CodeTable.get]
    · rcases ih with ih | ih
      · simp [CodeTable.get, hk, ih]
      · right; simp [CodeTable.get, hk, ih]

/-- Canonical tables that read the same everywhere are the same data. -/
theorem CodeTable.ext_get {t u : CodeTable} (ht : t.wf = true) (hu : u.wf = true)
    (h : ∀ s, t.get s = u.get s) : t = u := by
  induction t generalizing u with
  | nil =>
    cases u with
    | nil => rfl
    | cons y _ =>
      obtain ⟨k, d⟩ := y
      have := h k
      simp [CodeTable.get] at this
      exact absurd this.symm (CodeTable.wf_cons.1 hu).1
  | cons x rest ih =>
    obtain ⟨k, d⟩ := x
    obtain ⟨hd, hlt, hw⟩ := CodeTable.wf_cons.1 ht
    cases u with
    | nil =>
      have := h k
      simp [CodeTable.get] at this
      exact absurd this hd
    | cons y rest' =>
      obtain ⟨k', d'⟩ := y
      obtain ⟨hd', hlt', hw'⟩ := CodeTable.wf_cons.1 hu
      have hk : k = k' := by
        by_contra hne
        have h1 := h k
        have h2 := h k'
        simp only [CodeTable.get, if_neg hne, if_neg (Ne.symm hne), if_true] at h1 h2
        have m1 : (k, d) ∈ rest' := by
          rcases CodeTable.get_cases rest' k with e | m
          · exact absurd (h1.trans e) hd
          · rwa [← h1] at m
        have m2 : (k', d') ∈ rest := by
          rcases CodeTable.get_cases rest k' with e | m
          · exact absurd (h2.symm.trans e) hd'
          · rwa [h2] at m
        have := hlt _ m2
        have := hlt' _ m1
        simp at *
        omega
      subst hk
      have hdd : d = d' := by simpa [CodeTable.get] using h k
      subst hdd
      congr 1
      apply ih hw hw'
      intro s
      by_cases hs : k = s
      · subst hs
        rw [CodeTable.get_of_lt hlt, CodeTable.get_of_lt hlt']
      · simpa [CodeTable.get, hs] using h s

end Sys2Proof.Machine
end

