-- ==== Sys2Proof/Laws/State.lean ====
section
/-! SUPPORT. What each named update of the state does to each field, and what the views of the state read. -/

namespace Sys2Proof.Machine

/-! ### `accept` -/

@[simp] theorem accept_cmdword (w : Word) (s : State) : (accept w s).cmdword = w := rfl
@[simp] theorem accept_engine (w : Word) (s : State) : (accept w s).engine = .running .start := rfl
@[simp] theorem accept_done (w : Word) (s : State) : (accept w s).done = false := rfl
@[simp] theorem accept_err (w : Word) (s : State) : (accept w s).err = false := rfl
@[simp] theorem accept_treeValid (w : Word) (s : State) : (accept w s).treeValid = s.treeValid := rfl
@[simp] theorem accept_outInvalid (w : Word) (s : State) : (accept w s).outInvalid = s.outInvalid := rfl
@[simp] theorem accept_cmdOvr (w : Word) (s : State) : (accept w s).cmdOvr = s.cmdOvr := rfl
@[simp] theorem accept_inOvf (w : Word) (s : State) : (accept w s).inOvf = s.inOvf := rfl
@[simp] theorem accept_inEos (w : Word) (s : State) : (accept w s).inEos = s.inEos := rfl
@[simp] theorem accept_errcode (w : Word) (s : State) : (accept w s).errcode = .none := rfl
@[simp] theorem accept_errpos (w : Word) (s : State) : (accept w s).errpos = 0 := rfl
@[simp] theorem accept_irqEn (w : Word) (s : State) : (accept w s).irqEn = s.irqEn := rfl
@[simp] theorem accept_irqPend (w : Word) (s : State) : (accept w s).irqPend = s.irqPend := rfl
@[simp] theorem accept_treeSize (w : Word) (s : State) : (accept w s).treeSize = s.treeSize := rfl
@[simp] theorem accept_fileSizeLo (w : Word) (s : State) : (accept w s).fileSizeLo = s.fileSizeLo := rfl
@[simp] theorem accept_fileSizeHi (w : Word) (s : State) : (accept w s).fileSizeHi = s.fileSizeHi := rfl
@[simp] theorem accept_hdrMagic (w : Word) (s : State) : (accept w s).hdrMagic = s.hdrMagic := rfl
@[simp] theorem accept_symcount (w : Word) (s : State) : (accept w s).symcount = s.symcount := rfl
@[simp] theorem accept_outbytes (w : Word) (s : State) : (accept w s).outbytes = 0 := rfl
@[simp] theorem accept_arena (w : Word) (s : State) : (accept w s).arena = s.arena := rfl
@[simp] theorem accept_root (w : Word) (s : State) : (accept w s).root = s.root := rfl
@[simp] theorem accept_stk (w : Word) (s : State) : (accept w s).stk = s.stk := rfl
@[simp] theorem accept_dstate (w : Word) (s : State) : (accept w s).dstate = s.dstate := rfl
@[simp] theorem accept_cur (w : Word) (s : State) : (accept w s).cur = s.cur := rfl
@[simp] theorem accept_brByte (w : Word) (s : State) : (accept w s).brByte = s.brByte := rfl
@[simp] theorem accept_brPos (w : Word) (s : State) : (accept w s).brPos = s.brPos := rfl
@[simp] theorem accept_bitVal (w : Word) (s : State) : (accept w s).bitVal = s.bitVal := rfl
@[simp] theorem accept_bitEos (w : Word) (s : State) : (accept w s).bitEos = s.bitEos := rfl
@[simp] theorem accept_lutSym (w : Word) (s : State) : (accept w s).lutSym = s.lutSym := rfl
@[simp] theorem accept_lutLen (w : Word) (s : State) : (accept w s).lutLen = s.lutLen := rfl
@[simp] theorem accept_lutBits (w : Word) (s : State) : (accept w s).lutBits = s.lutBits := rfl
@[simp] theorem accept_lut (w : Word) (s : State) : (accept w s).lut = s.lut := rfl
@[simp] theorem accept_wbyte (w : Word) (s : State) : (accept w s).wbyte = s.wbyte := rfl
@[simp] theorem accept_wpos (w : Word) (s : State) : (accept w s).wpos = s.wpos := rfl
@[simp] theorem accept_nodeAddr (w : Word) (s : State) : (accept w s).nodeAddr = s.nodeAddr := rfl
@[simp] theorem accept_inq (w : Word) (s : State) : (accept w s).inq = s.inq := rfl
@[simp] theorem accept_outq (w : Word) (s : State) : (accept w s).outq = s.outq := rfl
@[simp] theorem accept_params (w : Word) (s : State) : (accept w s).params = s.params := rfl
@[simp] theorem accept_rdata (w : Word) (s : State) : (accept w s).rdata = s.rdata := rfl
@[simp] theorem accept_draws (w : Word) (s : State) : (accept w s).draws = s.draws := rfl
@[simp] theorem accept_inputs (w : Word) (s : State) : (accept w s).inputs = s.inputs := rfl

/-! ### `finish` -/

@[simp] theorem finish_cmdword (s : State) : (finish s).cmdword = s.cmdword := rfl
@[simp] theorem finish_engine (s : State) : (finish s).engine = .idle := rfl
@[simp] theorem finish_done (s : State) : (finish s).done = true := rfl
@[simp] theorem finish_err (s : State) : (finish s).err = s.err := rfl
@[simp] theorem finish_treeValid (s : State) : (finish s).treeValid = s.treeValid := rfl
@[simp] theorem finish_outInvalid (s : State) : (finish s).outInvalid = s.outInvalid := rfl
@[simp] theorem finish_cmdOvr (s : State) : (finish s).cmdOvr = s.cmdOvr := rfl
@[simp] theorem finish_inOvf (s : State) : (finish s).inOvf = s.inOvf := rfl
@[simp] theorem finish_inEos (s : State) : (finish s).inEos = s.inEos := rfl
@[simp] theorem finish_errcode (s : State) : (finish s).errcode = s.errcode := rfl
@[simp] theorem finish_errpos (s : State) : (finish s).errpos = s.errpos := rfl
@[simp] theorem finish_irqEn (s : State) : (finish s).irqEn = s.irqEn := rfl
@[simp] theorem finish_irqPend (s : State) : (finish s).irqPend = true := rfl
@[simp] theorem finish_treeSize (s : State) : (finish s).treeSize = s.treeSize := rfl
@[simp] theorem finish_fileSizeLo (s : State) : (finish s).fileSizeLo = s.fileSizeLo := rfl
@[simp] theorem finish_fileSizeHi (s : State) : (finish s).fileSizeHi = s.fileSizeHi := rfl
@[simp] theorem finish_hdrMagic (s : State) : (finish s).hdrMagic = s.hdrMagic := rfl
@[simp] theorem finish_symcount (s : State) : (finish s).symcount = s.symcount := rfl
@[simp] theorem finish_outbytes (s : State) : (finish s).outbytes = s.outbytes := rfl
@[simp] theorem finish_arena (s : State) : (finish s).arena = s.arena := rfl
@[simp] theorem finish_root (s : State) : (finish s).root = s.root := rfl
@[simp] theorem finish_stk (s : State) : (finish s).stk = s.stk := rfl
@[simp] theorem finish_dstate (s : State) : (finish s).dstate = s.dstate := rfl
@[simp] theorem finish_cur (s : State) : (finish s).cur = s.cur := rfl
@[simp] theorem finish_brByte (s : State) : (finish s).brByte = s.brByte := rfl
@[simp] theorem finish_brPos (s : State) : (finish s).brPos = s.brPos := rfl
@[simp] theorem finish_bitVal (s : State) : (finish s).bitVal = s.bitVal := rfl
@[simp] theorem finish_bitEos (s : State) : (finish s).bitEos = s.bitEos := rfl
@[simp] theorem finish_lutSym (s : State) : (finish s).lutSym = s.lutSym := rfl
@[simp] theorem finish_lutLen (s : State) : (finish s).lutLen = s.lutLen := rfl
@[simp] theorem finish_lutBits (s : State) : (finish s).lutBits = s.lutBits := rfl
@[simp] theorem finish_lut (s : State) : (finish s).lut = s.lut := rfl
@[simp] theorem finish_wbyte (s : State) : (finish s).wbyte = s.wbyte := rfl
@[simp] theorem finish_wpos (s : State) : (finish s).wpos = s.wpos := rfl
@[simp] theorem finish_nodeAddr (s : State) : (finish s).nodeAddr = s.nodeAddr := rfl
@[simp] theorem finish_inq (s : State) : (finish s).inq = s.inq := rfl
@[simp] theorem finish_outq (s : State) : (finish s).outq = s.outq := rfl
@[simp] theorem finish_params (s : State) : (finish s).params = s.params := rfl
@[simp] theorem finish_rdata (s : State) : (finish s).rdata = s.rdata := rfl
@[simp] theorem finish_draws (s : State) : (finish s).draws = s.draws := rfl
@[simp] theorem finish_inputs (s : State) : (finish s).inputs = s.inputs := rfl

/-! ### `raise` -/

@[simp] theorem raise_cmdword (e : ErrCode) (pos : Word) (s : State) : (raise e pos s).cmdword = s.cmdword := rfl
@[simp] theorem raise_engine (e : ErrCode) (pos : Word) (s : State) : (raise e pos s).engine = .idle := rfl
@[simp] theorem raise_done (e : ErrCode) (pos : Word) (s : State) : (raise e pos s).done = s.done := rfl
@[simp] theorem raise_err (e : ErrCode) (pos : Word) (s : State) : (raise e pos s).err = true := rfl
@[simp] theorem raise_treeValid (e : ErrCode) (pos : Word) (s : State) : (raise e pos s).treeValid = s.treeValid := rfl
@[simp] theorem raise_outInvalid (e : ErrCode) (pos : Word) (s : State) : (raise e pos s).outInvalid = (s.outInvalid || s.outbytes != 0) := rfl
@[simp] theorem raise_cmdOvr (e : ErrCode) (pos : Word) (s : State) : (raise e pos s).cmdOvr = s.cmdOvr := rfl
@[simp] theorem raise_inOvf (e : ErrCode) (pos : Word) (s : State) : (raise e pos s).inOvf = s.inOvf := rfl
@[simp] theorem raise_inEos (e : ErrCode) (pos : Word) (s : State) : (raise e pos s).inEos = s.inEos := rfl
@[simp] theorem raise_errcode (e : ErrCode) (pos : Word) (s : State) : (raise e pos s).errcode = e := rfl
@[simp] theorem raise_errpos (e : ErrCode) (pos : Word) (s : State) : (raise e pos s).errpos = pos := rfl
@[simp] theorem raise_irqEn (e : ErrCode) (pos : Word) (s : State) : (raise e pos s).irqEn = s.irqEn := rfl
@[simp] theorem raise_irqPend (e : ErrCode) (pos : Word) (s : State) : (raise e pos s).irqPend = true := rfl
@[simp] theorem raise_treeSize (e : ErrCode) (pos : Word) (s : State) : (raise e pos s).treeSize = s.treeSize := rfl
@[simp] theorem raise_fileSizeLo (e : ErrCode) (pos : Word) (s : State) : (raise e pos s).fileSizeLo = s.fileSizeLo := rfl
@[simp] theorem raise_fileSizeHi (e : ErrCode) (pos : Word) (s : State) : (raise e pos s).fileSizeHi = s.fileSizeHi := rfl
@[simp] theorem raise_hdrMagic (e : ErrCode) (pos : Word) (s : State) : (raise e pos s).hdrMagic = s.hdrMagic := rfl
@[simp] theorem raise_symcount (e : ErrCode) (pos : Word) (s : State) : (raise e pos s).symcount = s.symcount := rfl
@[simp] theorem raise_outbytes (e : ErrCode) (pos : Word) (s : State) : (raise e pos s).outbytes = s.outbytes := rfl
@[simp] theorem raise_arena (e : ErrCode) (pos : Word) (s : State) : (raise e pos s).arena = s.arena := rfl
@[simp] theorem raise_root (e : ErrCode) (pos : Word) (s : State) : (raise e pos s).root = s.root := rfl
@[simp] theorem raise_stk (e : ErrCode) (pos : Word) (s : State) : (raise e pos s).stk = s.stk := rfl
@[simp] theorem raise_dstate (e : ErrCode) (pos : Word) (s : State) : (raise e pos s).dstate = s.dstate := rfl
@[simp] theorem raise_cur (e : ErrCode) (pos : Word) (s : State) : (raise e pos s).cur = s.cur := rfl
@[simp] theorem raise_brByte (e : ErrCode) (pos : Word) (s : State) : (raise e pos s).brByte = s.brByte := rfl
@[simp] theorem raise_brPos (e : ErrCode) (pos : Word) (s : State) : (raise e pos s).brPos = s.brPos := rfl
@[simp] theorem raise_bitVal (e : ErrCode) (pos : Word) (s : State) : (raise e pos s).bitVal = s.bitVal := rfl
@[simp] theorem raise_bitEos (e : ErrCode) (pos : Word) (s : State) : (raise e pos s).bitEos = s.bitEos := rfl
@[simp] theorem raise_lutSym (e : ErrCode) (pos : Word) (s : State) : (raise e pos s).lutSym = s.lutSym := rfl
@[simp] theorem raise_lutLen (e : ErrCode) (pos : Word) (s : State) : (raise e pos s).lutLen = s.lutLen := rfl
@[simp] theorem raise_lutBits (e : ErrCode) (pos : Word) (s : State) : (raise e pos s).lutBits = s.lutBits := rfl
@[simp] theorem raise_lut (e : ErrCode) (pos : Word) (s : State) : (raise e pos s).lut = s.lut := rfl
@[simp] theorem raise_wbyte (e : ErrCode) (pos : Word) (s : State) : (raise e pos s).wbyte = s.wbyte := rfl
@[simp] theorem raise_wpos (e : ErrCode) (pos : Word) (s : State) : (raise e pos s).wpos = s.wpos := rfl
@[simp] theorem raise_nodeAddr (e : ErrCode) (pos : Word) (s : State) : (raise e pos s).nodeAddr = s.nodeAddr := rfl
@[simp] theorem raise_inq (e : ErrCode) (pos : Word) (s : State) : (raise e pos s).inq = s.inq := rfl
@[simp] theorem raise_outq (e : ErrCode) (pos : Word) (s : State) : (raise e pos s).outq = s.outq := rfl
@[simp] theorem raise_params (e : ErrCode) (pos : Word) (s : State) : (raise e pos s).params = s.params := rfl
@[simp] theorem raise_rdata (e : ErrCode) (pos : Word) (s : State) : (raise e pos s).rdata = s.rdata := rfl
@[simp] theorem raise_draws (e : ErrCode) (pos : Word) (s : State) : (raise e pos s).draws = s.draws := rfl
@[simp] theorem raise_inputs (e : ErrCode) (pos : Word) (s : State) : (raise e pos s).inputs = s.inputs := rfl

/-! ### `atPoint` -/

@[simp] theorem atPoint_cmdword (p : Point) (s : State) : (atPoint p s).cmdword = s.cmdword := rfl
@[simp] theorem atPoint_engine (p : Point) (s : State) : (atPoint p s).engine = .running p := rfl
@[simp] theorem atPoint_done (p : Point) (s : State) : (atPoint p s).done = s.done := rfl
@[simp] theorem atPoint_err (p : Point) (s : State) : (atPoint p s).err = s.err := rfl
@[simp] theorem atPoint_treeValid (p : Point) (s : State) : (atPoint p s).treeValid = s.treeValid := rfl
@[simp] theorem atPoint_outInvalid (p : Point) (s : State) : (atPoint p s).outInvalid = s.outInvalid := rfl
@[simp] theorem atPoint_cmdOvr (p : Point) (s : State) : (atPoint p s).cmdOvr = s.cmdOvr := rfl
@[simp] theorem atPoint_inOvf (p : Point) (s : State) : (atPoint p s).inOvf = s.inOvf := rfl
@[simp] theorem atPoint_inEos (p : Point) (s : State) : (atPoint p s).inEos = s.inEos := rfl
@[simp] theorem atPoint_errcode (p : Point) (s : State) : (atPoint p s).errcode = s.errcode := rfl
@[simp] theorem atPoint_errpos (p : Point) (s : State) : (atPoint p s).errpos = s.errpos := rfl
@[simp] theorem atPoint_irqEn (p : Point) (s : State) : (atPoint p s).irqEn = s.irqEn := rfl
@[simp] theorem atPoint_irqPend (p : Point) (s : State) : (atPoint p s).irqPend = s.irqPend := rfl
@[simp] theorem atPoint_treeSize (p : Point) (s : State) : (atPoint p s).treeSize = s.treeSize := rfl
@[simp] theorem atPoint_fileSizeLo (p : Point) (s : State) : (atPoint p s).fileSizeLo = s.fileSizeLo := rfl
@[simp] theorem atPoint_fileSizeHi (p : Point) (s : State) : (atPoint p s).fileSizeHi = s.fileSizeHi := rfl
@[simp] theorem atPoint_hdrMagic (p : Point) (s : State) : (atPoint p s).hdrMagic = s.hdrMagic := rfl
@[simp] theorem atPoint_symcount (p : Point) (s : State) : (atPoint p s).symcount = s.symcount := rfl
@[simp] theorem atPoint_outbytes (p : Point) (s : State) : (atPoint p s).outbytes = s.outbytes := rfl
@[simp] theorem atPoint_arena (p : Point) (s : State) : (atPoint p s).arena = s.arena := rfl
@[simp] theorem atPoint_root (p : Point) (s : State) : (atPoint p s).root = s.root := rfl
@[simp] theorem atPoint_stk (p : Point) (s : State) : (atPoint p s).stk = s.stk := rfl
@[simp] theorem atPoint_dstate (p : Point) (s : State) : (atPoint p s).dstate = s.dstate := rfl
@[simp] theorem atPoint_cur (p : Point) (s : State) : (atPoint p s).cur = s.cur := rfl
@[simp] theorem atPoint_brByte (p : Point) (s : State) : (atPoint p s).brByte = s.brByte := rfl
@[simp] theorem atPoint_brPos (p : Point) (s : State) : (atPoint p s).brPos = s.brPos := rfl
@[simp] theorem atPoint_bitVal (p : Point) (s : State) : (atPoint p s).bitVal = s.bitVal := rfl
@[simp] theorem atPoint_bitEos (p : Point) (s : State) : (atPoint p s).bitEos = s.bitEos := rfl
@[simp] theorem atPoint_lutSym (p : Point) (s : State) : (atPoint p s).lutSym = s.lutSym := rfl
@[simp] theorem atPoint_lutLen (p : Point) (s : State) : (atPoint p s).lutLen = s.lutLen := rfl
@[simp] theorem atPoint_lutBits (p : Point) (s : State) : (atPoint p s).lutBits = s.lutBits := rfl
@[simp] theorem atPoint_lut (p : Point) (s : State) : (atPoint p s).lut = s.lut := rfl
@[simp] theorem atPoint_wbyte (p : Point) (s : State) : (atPoint p s).wbyte = s.wbyte := rfl
@[simp] theorem atPoint_wpos (p : Point) (s : State) : (atPoint p s).wpos = s.wpos := rfl
@[simp] theorem atPoint_nodeAddr (p : Point) (s : State) : (atPoint p s).nodeAddr = s.nodeAddr := rfl
@[simp] theorem atPoint_inq (p : Point) (s : State) : (atPoint p s).inq = s.inq := rfl
@[simp] theorem atPoint_outq (p : Point) (s : State) : (atPoint p s).outq = s.outq := rfl
@[simp] theorem atPoint_params (p : Point) (s : State) : (atPoint p s).params = s.params := rfl
@[simp] theorem atPoint_rdata (p : Point) (s : State) : (atPoint p s).rdata = s.rdata := rfl
@[simp] theorem atPoint_draws (p : Point) (s : State) : (atPoint p s).draws = s.draws := rfl
@[simp] theorem atPoint_inputs (p : Point) (s : State) : (atPoint p s).inputs = s.inputs := rfl

/-! ### `clearState` -/

@[simp] theorem clearState_cmdword (s : State) : (clearState s).cmdword = s.cmdword := rfl
@[simp] theorem clearState_engine (s : State) : (clearState s).engine = s.engine := rfl
@[simp] theorem clearState_done (s : State) : (clearState s).done = s.done := rfl
@[simp] theorem clearState_err (s : State) : (clearState s).err = s.err := rfl
@[simp] theorem clearState_treeValid (s : State) : (clearState s).treeValid = false := rfl
@[simp] theorem clearState_outInvalid (s : State) : (clearState s).outInvalid = false := rfl
@[simp] theorem clearState_cmdOvr (s : State) : (clearState s).cmdOvr = false := rfl
@[simp] theorem clearState_inOvf (s : State) : (clearState s).inOvf = false := rfl
@[simp] theorem clearState_inEos (s : State) : (clearState s).inEos = s.inEos := rfl
@[simp] theorem clearState_errcode (s : State) : (clearState s).errcode = s.errcode := rfl
@[simp] theorem clearState_errpos (s : State) : (clearState s).errpos = s.errpos := rfl
@[simp] theorem clearState_irqEn (s : State) : (clearState s).irqEn = s.irqEn := rfl
@[simp] theorem clearState_irqPend (s : State) : (clearState s).irqPend = s.irqPend := rfl
@[simp] theorem clearState_treeSize (s : State) : (clearState s).treeSize = s.treeSize := rfl
@[simp] theorem clearState_fileSizeLo (s : State) : (clearState s).fileSizeLo = s.fileSizeLo := rfl
@[simp] theorem clearState_fileSizeHi (s : State) : (clearState s).fileSizeHi = s.fileSizeHi := rfl
@[simp] theorem clearState_hdrMagic (s : State) : (clearState s).hdrMagic = s.hdrMagic := rfl
@[simp] theorem clearState_symcount (s : State) : (clearState s).symcount = 0 := rfl
@[simp] theorem clearState_outbytes (s : State) : (clearState s).outbytes = s.outbytes := rfl
@[simp] theorem clearState_arena (s : State) : (clearState s).arena = [] := rfl
@[simp] theorem clearState_root (s : State) : (clearState s).root = 0 := rfl
@[simp] theorem clearState_stk (s : State) : (clearState s).stk = [] := rfl
@[simp] theorem clearState_dstate (s : State) : (clearState s).dstate = .atRoot := rfl
@[simp] theorem clearState_cur (s : State) : (clearState s).cur = 0 := rfl
@[simp] theorem clearState_brByte (s : State) : (clearState s).brByte = 0 := rfl
@[simp] theorem clearState_brPos (s : State) : (clearState s).brPos = 8 := rfl
@[simp] theorem clearState_bitVal (s : State) : (clearState s).bitVal = false := rfl
@[simp] theorem clearState_bitEos (s : State) : (clearState s).bitEos = false := rfl
@[simp] theorem clearState_lutSym (s : State) : (clearState s).lutSym = s.lutSym := rfl
@[simp] theorem clearState_lutLen (s : State) : (clearState s).lutLen = s.lutLen := rfl
@[simp] theorem clearState_lutBits (s : State) : (clearState s).lutBits = s.lutBits := rfl
@[simp] theorem clearState_lut (s : State) : (clearState s).lut = [] := rfl
@[simp] theorem clearState_wbyte (s : State) : (clearState s).wbyte = 0 := rfl
@[simp] theorem clearState_wpos (s : State) : (clearState s).wpos = 0 := rfl
@[simp] theorem clearState_nodeAddr (s : State) : (clearState s).nodeAddr = s.nodeAddr := rfl
@[simp] theorem clearState_inq (s : State) : (clearState s).inq = s.inq := rfl
@[simp] theorem clearState_outq (s : State) : (clearState s).outq = s.outq := rfl
@[simp] theorem clearState_params (s : State) : (clearState s).params = s.params := rfl
@[simp] theorem clearState_rdata (s : State) : (clearState s).rdata = s.rdata := rfl
@[simp] theorem clearState_draws (s : State) : (clearState s).draws = s.draws := rfl
@[simp] theorem clearState_inputs (s : State) : (clearState s).inputs = s.inputs := rfl

/-! ### `clearPacker` -/

@[simp] theorem clearPacker_cmdword (s : State) : (clearPacker s).cmdword = s.cmdword := rfl
@[simp] theorem clearPacker_engine (s : State) : (clearPacker s).engine = s.engine := rfl
@[simp] theorem clearPacker_done (s : State) : (clearPacker s).done = s.done := rfl
@[simp] theorem clearPacker_err (s : State) : (clearPacker s).err = s.err := rfl
@[simp] theorem clearPacker_treeValid (s : State) : (clearPacker s).treeValid = s.treeValid := rfl
@[simp] theorem clearPacker_outInvalid (s : State) : (clearPacker s).outInvalid = s.outInvalid := rfl
@[simp] theorem clearPacker_cmdOvr (s : State) : (clearPacker s).cmdOvr = s.cmdOvr := rfl
@[simp] theorem clearPacker_inOvf (s : State) : (clearPacker s).inOvf = s.inOvf := rfl
@[simp] theorem clearPacker_inEos (s : State) : (clearPacker s).inEos = s.inEos := rfl
@[simp] theorem clearPacker_errcode (s : State) : (clearPacker s).errcode = s.errcode := rfl
@[simp] theorem clearPacker_errpos (s : State) : (clearPacker s).errpos = s.errpos := rfl
@[simp] theorem clearPacker_irqEn (s : State) : (clearPacker s).irqEn = s.irqEn := rfl
@[simp] theorem clearPacker_irqPend (s : State) : (clearPacker s).irqPend = s.irqPend := rfl
@[simp] theorem clearPacker_treeSize (s : State) : (clearPacker s).treeSize = s.treeSize := rfl
@[simp] theorem clearPacker_fileSizeLo (s : State) : (clearPacker s).fileSizeLo = s.fileSizeLo := rfl
@[simp] theorem clearPacker_fileSizeHi (s : State) : (clearPacker s).fileSizeHi = s.fileSizeHi := rfl
@[simp] theorem clearPacker_hdrMagic (s : State) : (clearPacker s).hdrMagic = s.hdrMagic := rfl
@[simp] theorem clearPacker_symcount (s : State) : (clearPacker s).symcount = s.symcount := rfl
@[simp] theorem clearPacker_outbytes (s : State) : (clearPacker s).outbytes = s.outbytes := rfl
@[simp] theorem clearPacker_arena (s : State) : (clearPacker s).arena = s.arena := rfl
@[simp] theorem clearPacker_root (s : State) : (clearPacker s).root = s.root := rfl
@[simp] theorem clearPacker_stk (s : State) : (clearPacker s).stk = s.stk := rfl
@[simp] theorem clearPacker_dstate (s : State) : (clearPacker s).dstate = s.dstate := rfl
@[simp] theorem clearPacker_cur (s : State) : (clearPacker s).cur = s.cur := rfl
@[simp] theorem clearPacker_brByte (s : State) : (clearPacker s).brByte = s.brByte := rfl
@[simp] theorem clearPacker_brPos (s : State) : (clearPacker s).brPos = s.brPos := rfl
@[simp] theorem clearPacker_bitVal (s : State) : (clearPacker s).bitVal = s.bitVal := rfl
@[simp] theorem clearPacker_bitEos (s : State) : (clearPacker s).bitEos = s.bitEos := rfl
@[simp] theorem clearPacker_lutSym (s : State) : (clearPacker s).lutSym = s.lutSym := rfl
@[simp] theorem clearPacker_lutLen (s : State) : (clearPacker s).lutLen = s.lutLen := rfl
@[simp] theorem clearPacker_lutBits (s : State) : (clearPacker s).lutBits = s.lutBits := rfl
@[simp] theorem clearPacker_lut (s : State) : (clearPacker s).lut = s.lut := rfl
@[simp] theorem clearPacker_wbyte (s : State) : (clearPacker s).wbyte = 0 := rfl
@[simp] theorem clearPacker_wpos (s : State) : (clearPacker s).wpos = 0 := rfl
@[simp] theorem clearPacker_nodeAddr (s : State) : (clearPacker s).nodeAddr = s.nodeAddr := rfl
@[simp] theorem clearPacker_inq (s : State) : (clearPacker s).inq = s.inq := rfl
@[simp] theorem clearPacker_outq (s : State) : (clearPacker s).outq = s.outq := rfl
@[simp] theorem clearPacker_params (s : State) : (clearPacker s).params = s.params := rfl
@[simp] theorem clearPacker_rdata (s : State) : (clearPacker s).rdata = s.rdata := rfl
@[simp] theorem clearPacker_draws (s : State) : (clearPacker s).draws = s.draws := rfl
@[simp] theorem clearPacker_inputs (s : State) : (clearPacker s).inputs = s.inputs := rfl

/-! ### `placeBit` -/

@[simp] theorem placeBit_cmdword (b : Bool) (s : State) : (placeBit b s).cmdword = s.cmdword := rfl
@[simp] theorem placeBit_engine (b : Bool) (s : State) : (placeBit b s).engine = s.engine := rfl
@[simp] theorem placeBit_done (b : Bool) (s : State) : (placeBit b s).done = s.done := rfl
@[simp] theorem placeBit_err (b : Bool) (s : State) : (placeBit b s).err = s.err := rfl
@[simp] theorem placeBit_treeValid (b : Bool) (s : State) : (placeBit b s).treeValid = s.treeValid := rfl
@[simp] theorem placeBit_outInvalid (b : Bool) (s : State) : (placeBit b s).outInvalid = s.outInvalid := rfl
@[simp] theorem placeBit_cmdOvr (b : Bool) (s : State) : (placeBit b s).cmdOvr = s.cmdOvr := rfl
@[simp] theorem placeBit_inOvf (b : Bool) (s : State) : (placeBit b s).inOvf = s.inOvf := rfl
@[simp] theorem placeBit_inEos (b : Bool) (s : State) : (placeBit b s).inEos = s.inEos := rfl
@[simp] theorem placeBit_errcode (b : Bool) (s : State) : (placeBit b s).errcode = s.errcode := rfl
@[simp] theorem placeBit_errpos (b : Bool) (s : State) : (placeBit b s).errpos = s.errpos := rfl
@[simp] theorem placeBit_irqEn (b : Bool) (s : State) : (placeBit b s).irqEn = s.irqEn := rfl
@[simp] theorem placeBit_irqPend (b : Bool) (s : State) : (placeBit b s).irqPend = s.irqPend := rfl
@[simp] theorem placeBit_treeSize (b : Bool) (s : State) : (placeBit b s).treeSize = s.treeSize := rfl
@[simp] theorem placeBit_fileSizeLo (b : Bool) (s : State) : (placeBit b s).fileSizeLo = s.fileSizeLo := rfl
@[simp] theorem placeBit_fileSizeHi (b : Bool) (s : State) : (placeBit b s).fileSizeHi = s.fileSizeHi := rfl
@[simp] theorem placeBit_hdrMagic (b : Bool) (s : State) : (placeBit b s).hdrMagic = s.hdrMagic := rfl
@[simp] theorem placeBit_symcount (b : Bool) (s : State) : (placeBit b s).symcount = s.symcount := rfl
@[simp] theorem placeBit_outbytes (b : Bool) (s : State) : (placeBit b s).outbytes = s.outbytes := rfl
@[simp] theorem placeBit_arena (b : Bool) (s : State) : (placeBit b s).arena = s.arena := rfl
@[simp] theorem placeBit_root (b : Bool) (s : State) : (placeBit b s).root = s.root := rfl
@[simp] theorem placeBit_stk (b : Bool) (s : State) : (placeBit b s).stk = s.stk := rfl
@[simp] theorem placeBit_dstate (b : Bool) (s : State) : (placeBit b s).dstate = s.dstate := rfl
@[simp] theorem placeBit_cur (b : Bool) (s : State) : (placeBit b s).cur = s.cur := rfl
@[simp] theorem placeBit_brByte (b : Bool) (s : State) : (placeBit b s).brByte = s.brByte := rfl
@[simp] theorem placeBit_brPos (b : Bool) (s : State) : (placeBit b s).brPos = s.brPos := rfl
@[simp] theorem placeBit_bitVal (b : Bool) (s : State) : (placeBit b s).bitVal = s.bitVal := rfl
@[simp] theorem placeBit_bitEos (b : Bool) (s : State) : (placeBit b s).bitEos = s.bitEos := rfl
@[simp] theorem placeBit_lutSym (b : Bool) (s : State) : (placeBit b s).lutSym = s.lutSym := rfl
@[simp] theorem placeBit_lutLen (b : Bool) (s : State) : (placeBit b s).lutLen = s.lutLen := rfl
@[simp] theorem placeBit_lutBits (b : Bool) (s : State) : (placeBit b s).lutBits = s.lutBits := rfl
@[simp] theorem placeBit_lut (b : Bool) (s : State) : (placeBit b s).lut = s.lut := rfl
@[simp] theorem placeBit_wbyte (b : Bool) (s : State) : (placeBit b s).wbyte = s.wbyte ||| ((BitVec.ofBool b).setWidth 8 <<< s.wpos.val) := rfl
@[simp] theorem placeBit_wpos (b : Bool) (s : State) : (placeBit b s).wpos = s.wpos := rfl
@[simp] theorem placeBit_nodeAddr (b : Bool) (s : State) : (placeBit b s).nodeAddr = s.nodeAddr := rfl
@[simp] theorem placeBit_inq (b : Bool) (s : State) : (placeBit b s).inq = s.inq := rfl
@[simp] theorem placeBit_outq (b : Bool) (s : State) : (placeBit b s).outq = s.outq := rfl
@[simp] theorem placeBit_params (b : Bool) (s : State) : (placeBit b s).params = s.params := rfl
@[simp] theorem placeBit_rdata (b : Bool) (s : State) : (placeBit b s).rdata = s.rdata := rfl
@[simp] theorem placeBit_draws (b : Bool) (s : State) : (placeBit b s).draws = s.draws := rfl
@[simp] theorem placeBit_inputs (b : Bool) (s : State) : (placeBit b s).inputs = s.inputs := rfl

/-! ### `inCtrlIdle` -/

@[simp] theorem inCtrlIdle_cmdword (w : Word) (s : State) : (inCtrlIdle w s).cmdword = s.cmdword := rfl
@[simp] theorem inCtrlIdle_engine (w : Word) (s : State) : (inCtrlIdle w s).engine = s.engine := rfl
@[simp] theorem inCtrlIdle_done (w : Word) (s : State) : (inCtrlIdle w s).done = s.done := rfl
@[simp] theorem inCtrlIdle_err (w : Word) (s : State) : (inCtrlIdle w s).err = s.err := rfl
@[simp] theorem inCtrlIdle_treeValid (w : Word) (s : State) : (inCtrlIdle w s).treeValid = s.treeValid := rfl
@[simp] theorem inCtrlIdle_outInvalid (w : Word) (s : State) : (inCtrlIdle w s).outInvalid = (s.outInvalid && !w.getLsbD 3) := rfl
@[simp] theorem inCtrlIdle_cmdOvr (w : Word) (s : State) : (inCtrlIdle w s).cmdOvr = s.cmdOvr := rfl
@[simp] theorem inCtrlIdle_inOvf (w : Word) (s : State) : (inCtrlIdle w s).inOvf = s.inOvf := rfl
@[simp] theorem inCtrlIdle_inEos (w : Word) (s : State) : (inCtrlIdle w s).inEos = (s.inEos && !w.getLsbD 1) := rfl
@[simp] theorem inCtrlIdle_errcode (w : Word) (s : State) : (inCtrlIdle w s).errcode = s.errcode := rfl
@[simp] theorem inCtrlIdle_errpos (w : Word) (s : State) : (inCtrlIdle w s).errpos = s.errpos := rfl
@[simp] theorem inCtrlIdle_irqEn (w : Word) (s : State) : (inCtrlIdle w s).irqEn = s.irqEn := rfl
@[simp] theorem inCtrlIdle_irqPend (w : Word) (s : State) : (inCtrlIdle w s).irqPend = s.irqPend := rfl
@[simp] theorem inCtrlIdle_treeSize (w : Word) (s : State) : (inCtrlIdle w s).treeSize = s.treeSize := rfl
@[simp] theorem inCtrlIdle_fileSizeLo (w : Word) (s : State) : (inCtrlIdle w s).fileSizeLo = s.fileSizeLo := rfl
@[simp] theorem inCtrlIdle_fileSizeHi (w : Word) (s : State) : (inCtrlIdle w s).fileSizeHi = s.fileSizeHi := rfl
@[simp] theorem inCtrlIdle_hdrMagic (w : Word) (s : State) : (inCtrlIdle w s).hdrMagic = s.hdrMagic := rfl
@[simp] theorem inCtrlIdle_symcount (w : Word) (s : State) : (inCtrlIdle w s).symcount = s.symcount := rfl
@[simp] theorem inCtrlIdle_outbytes (w : Word) (s : State) : (inCtrlIdle w s).outbytes = s.outbytes := rfl
@[simp] theorem inCtrlIdle_arena (w : Word) (s : State) : (inCtrlIdle w s).arena = s.arena := rfl
@[simp] theorem inCtrlIdle_root (w : Word) (s : State) : (inCtrlIdle w s).root = s.root := rfl
@[simp] theorem inCtrlIdle_stk (w : Word) (s : State) : (inCtrlIdle w s).stk = s.stk := rfl
@[simp] theorem inCtrlIdle_dstate (w : Word) (s : State) : (inCtrlIdle w s).dstate = s.dstate := rfl
@[simp] theorem inCtrlIdle_cur (w : Word) (s : State) : (inCtrlIdle w s).cur = s.cur := rfl
@[simp] theorem inCtrlIdle_brByte (w : Word) (s : State) : (inCtrlIdle w s).brByte = s.brByte := rfl
@[simp] theorem inCtrlIdle_brPos (w : Word) (s : State) : (inCtrlIdle w s).brPos = s.brPos := rfl
@[simp] theorem inCtrlIdle_bitVal (w : Word) (s : State) : (inCtrlIdle w s).bitVal = s.bitVal := rfl
@[simp] theorem inCtrlIdle_bitEos (w : Word) (s : State) : (inCtrlIdle w s).bitEos = s.bitEos := rfl
@[simp] theorem inCtrlIdle_lutSym (w : Word) (s : State) : (inCtrlIdle w s).lutSym = s.lutSym := rfl
@[simp] theorem inCtrlIdle_lutLen (w : Word) (s : State) : (inCtrlIdle w s).lutLen = s.lutLen := rfl
@[simp] theorem inCtrlIdle_lutBits (w : Word) (s : State) : (inCtrlIdle w s).lutBits = s.lutBits := rfl
@[simp] theorem inCtrlIdle_lut (w : Word) (s : State) : (inCtrlIdle w s).lut = s.lut := rfl
@[simp] theorem inCtrlIdle_wbyte (w : Word) (s : State) : (inCtrlIdle w s).wbyte = s.wbyte := rfl
@[simp] theorem inCtrlIdle_wpos (w : Word) (s : State) : (inCtrlIdle w s).wpos = s.wpos := rfl
@[simp] theorem inCtrlIdle_nodeAddr (w : Word) (s : State) : (inCtrlIdle w s).nodeAddr = s.nodeAddr := rfl
@[simp] theorem inCtrlIdle_inq (w : Word) (s : State) : (inCtrlIdle w s).inq = (if w.getLsbD 2 then [] else s.inq) := rfl
@[simp] theorem inCtrlIdle_outq (w : Word) (s : State) : (inCtrlIdle w s).outq = (if w.getLsbD 3 then [] else s.outq) := rfl
@[simp] theorem inCtrlIdle_params (w : Word) (s : State) : (inCtrlIdle w s).params = s.params := rfl
@[simp] theorem inCtrlIdle_rdata (w : Word) (s : State) : (inCtrlIdle w s).rdata = s.rdata := rfl
@[simp] theorem inCtrlIdle_draws (w : Word) (s : State) : (inCtrlIdle w s).draws = s.draws := rfl
@[simp] theorem inCtrlIdle_inputs (w : Word) (s : State) : (inCtrlIdle w s).inputs = s.inputs := rfl

/-! ### `platformReset` -/

@[simp] theorem platformReset_cmdword (s : State) : (platformReset s).cmdword = State.reset.cmdword := rfl
@[simp] theorem platformReset_engine (s : State) : (platformReset s).engine = State.reset.engine := rfl
@[simp] theorem platformReset_done (s : State) : (platformReset s).done = State.reset.done := rfl
@[simp] theorem platformReset_err (s : State) : (platformReset s).err = State.reset.err := rfl
@[simp] theorem platformReset_treeValid (s : State) : (platformReset s).treeValid = State.reset.treeValid := rfl
@[simp] theorem platformReset_outInvalid (s : State) : (platformReset s).outInvalid = State.reset.outInvalid := rfl
@[simp] theorem platformReset_cmdOvr (s : State) : (platformReset s).cmdOvr = State.reset.cmdOvr := rfl
@[simp] theorem platformReset_inOvf (s : State) : (platformReset s).inOvf = State.reset.inOvf := rfl
@[simp] theorem platformReset_inEos (s : State) : (platformReset s).inEos = State.reset.inEos := rfl
@[simp] theorem platformReset_errcode (s : State) : (platformReset s).errcode = State.reset.errcode := rfl
@[simp] theorem platformReset_errpos (s : State) : (platformReset s).errpos = State.reset.errpos := rfl
@[simp] theorem platformReset_irqEn (s : State) : (platformReset s).irqEn = State.reset.irqEn := rfl
@[simp] theorem platformReset_irqPend (s : State) : (platformReset s).irqPend = State.reset.irqPend := rfl
@[simp] theorem platformReset_treeSize (s : State) : (platformReset s).treeSize = State.reset.treeSize := rfl
@[simp] theorem platformReset_fileSizeLo (s : State) : (platformReset s).fileSizeLo = State.reset.fileSizeLo := rfl
@[simp] theorem platformReset_fileSizeHi (s : State) : (platformReset s).fileSizeHi = State.reset.fileSizeHi := rfl
@[simp] theorem platformReset_hdrMagic (s : State) : (platformReset s).hdrMagic = State.reset.hdrMagic := rfl
@[simp] theorem platformReset_symcount (s : State) : (platformReset s).symcount = State.reset.symcount := rfl
@[simp] theorem platformReset_outbytes (s : State) : (platformReset s).outbytes = State.reset.outbytes := rfl
@[simp] theorem platformReset_arena (s : State) : (platformReset s).arena = State.reset.arena := rfl
@[simp] theorem platformReset_root (s : State) : (platformReset s).root = State.reset.root := rfl
@[simp] theorem platformReset_stk (s : State) : (platformReset s).stk = State.reset.stk := rfl
@[simp] theorem platformReset_dstate (s : State) : (platformReset s).dstate = State.reset.dstate := rfl
@[simp] theorem platformReset_cur (s : State) : (platformReset s).cur = State.reset.cur := rfl
@[simp] theorem platformReset_brByte (s : State) : (platformReset s).brByte = State.reset.brByte := rfl
@[simp] theorem platformReset_brPos (s : State) : (platformReset s).brPos = State.reset.brPos := rfl
@[simp] theorem platformReset_bitVal (s : State) : (platformReset s).bitVal = State.reset.bitVal := rfl
@[simp] theorem platformReset_bitEos (s : State) : (platformReset s).bitEos = State.reset.bitEos := rfl
@[simp] theorem platformReset_lutSym (s : State) : (platformReset s).lutSym = State.reset.lutSym := rfl
@[simp] theorem platformReset_lutLen (s : State) : (platformReset s).lutLen = State.reset.lutLen := rfl
@[simp] theorem platformReset_lutBits (s : State) : (platformReset s).lutBits = State.reset.lutBits := rfl
@[simp] theorem platformReset_lut (s : State) : (platformReset s).lut = State.reset.lut := rfl
@[simp] theorem platformReset_wbyte (s : State) : (platformReset s).wbyte = State.reset.wbyte := rfl
@[simp] theorem platformReset_wpos (s : State) : (platformReset s).wpos = State.reset.wpos := rfl
@[simp] theorem platformReset_nodeAddr (s : State) : (platformReset s).nodeAddr = State.reset.nodeAddr := rfl
@[simp] theorem platformReset_inq (s : State) : (platformReset s).inq = State.reset.inq := rfl
@[simp] theorem platformReset_outq (s : State) : (platformReset s).outq = State.reset.outq := rfl
@[simp] theorem platformReset_params (s : State) : (platformReset s).params = s.params := rfl
@[simp] theorem platformReset_rdata (s : State) : (platformReset s).rdata = s.rdata := rfl
@[simp] theorem platformReset_draws (s : State) : (platformReset s).draws = s.draws := rfl
@[simp] theorem platformReset_inputs (s : State) : (platformReset s).inputs = s.inputs := rfl

/-! ### Views -/

theorem busy_eq_true {s : State} : s.busy = true ↔ ∃ p, s.engine = .running p := by
  unfold State.busy
  cases s.engine <;> simp

theorem busy_eq_false {s : State} : s.busy = false ↔ s.engine = .idle := by
  unfold State.busy
  cases s.engine <;> simp

@[simp] theorem busy_accept (w : Word) (s : State) : (accept w s).busy = true := rfl
@[simp] theorem busy_finish (s : State) : (finish s).busy = false := rfl
@[simp] theorem busy_raise (e : ErrCode) (pos : Word) (s : State) : (raise e pos s).busy = false := rfl
@[simp] theorem busy_atPoint (p : Point) (s : State) : (atPoint p s).busy = true := rfl
@[simp] theorem busy_reset : State.reset.busy = false := rfl
@[simp] theorem busy_platformReset (s : State) : (platformReset s).busy = false := rfl

end Sys2Proof.Machine
end

