-- ==== Sys2Proof/Laws/Ops.lean ====
section
/-! SUPPORT. What each shared operation can do, once: the case lemmas that proofs about meanings cite instead of
unfolding the operation. -/

namespace Sys2Proof.Machine

/-! ### Stream primitives -/

theorem onInPop_cases (s : State) (eos : State → State) (byte : Byte → State → State) :
    (∃ b q, s.inq = b :: q ∧ onInPop s eos byte = byte b { s with inq := q }) ∨
    (s.inq = [] ∧ s.inEos = true ∧ onInPop s eos byte = eos s) ∨
    (s.inq = [] ∧ s.inEos = false ∧ onInPop s eos byte = s) := by
  unfold onInPop
  split
  · next b q h => exact .inl ⟨b, q, h, rfl⟩
  · next h => cases he : s.inEos <;> simp [h]

theorem onInPop_byte {s : State} {b : Byte} {q : List Byte} (h : s.inq = b :: q) (eos : State → State)
    (byte : Byte → State → State) : onInPop s eos byte = byte b { s with inq := q } := by
  simp [onInPop, h]

theorem onInPop_eos {s : State} (h : s.inq = []) (he : s.inEos = true) (eos : State → State)
    (byte : Byte → State → State) : onInPop s eos byte = eos s := by
  simp [onInPop, h, he]

theorem onInPop_blocked {s : State} (h : s.inq = []) (he : s.inEos = false) (eos : State → State)
    (byte : Byte → State → State) : onInPop s eos byte = s := by
  simp [onInPop, h, he]

theorem onOutPush_cases (b : Byte) (s : State) (cont : State → State) :
    (s.outq.length < s.outDepth ∧
      onOutPush b s cont = cont { s with outq := s.outq ++ [b], outbytes := s.outbytes + 1 }) ∨
    (s.outDepth ≤ s.outq.length ∧ onOutPush b s cont = s) := by
  unfold onOutPush
  split
  · next h => exact .inl ⟨h, rfl⟩
  · next h => exact .inr ⟨by omega, rfl⟩

theorem onOutPush_room {s : State} (h : s.outq.length < s.outDepth) (b : Byte) (cont : State → State) :
    onOutPush b s cont = cont { s with outq := s.outq ++ [b], outbytes := s.outbytes + 1 } := by
  simp [onOutPush, h]

theorem onOutPush_full {s : State} (h : s.outDepth ≤ s.outq.length) (b : Byte) (cont : State → State) :
    onOutPush b s cont = s := by
  simp [onOutPush, Nat.not_lt.2 h]

theorem readBit_cases (p : Point) (s : State) (cont : Bool → State → State) :
    (s.brPos = 8 ∧ readBit p s cont = atPoint p s) ∨
    (s.brPos ≠ 8 ∧ readBit p s cont =
      cont (s.brByte.getLsbD s.brPos.val) { s with brPos := s.brPos + 1 }) := by
  unfold readBit takeBit
  split <;> simp_all

theorem refillBit_cases (s : State) (eos : State → State) (cont : Bool → State → State) :
    (∃ b q, s.inq = b :: q ∧
      refillBit s eos cont = cont (b.getLsbD 0) { s with inq := q, brByte := b, brPos := 1 }) ∨
    (s.inq = [] ∧ s.inEos = true ∧ refillBit s eos cont = eos s) ∨
    (s.inq = [] ∧ s.inEos = false ∧ refillBit s eos cont = s) := by
  rcases onInPop_cases s eos (fun b s => takeBit { s with brByte := b, brPos := 0 } cont) with
    ⟨b, q, h, e⟩ | ⟨h, he, e⟩ | ⟨h, he, e⟩
  · exact .inl ⟨b, q, h, e⟩
  · exact .inr (.inl ⟨h, he, e⟩)
  · exact .inr (.inr ⟨h, he, e⟩)

/-! ### Tree-load primitives -/

theorem alloc_cases (n : Node) (k : Nat) (s : State) (cont : NodeIdx → State → State) :
    (s.nodeCount = nodeCap ∧ alloc n k s cont = raise .treeNodeOverflow (treePos k) s) ∨
    (s.nodeCount ≠ nodeCap ∧
      alloc n k s cont = cont (BitVec.ofNat 9 s.nodeCount) { s with arena := s.arena ++ [n] }) := by
  unfold alloc
  split <;> simp_all

theorem push_cases (n : NodeIdx) (k : Nat) (s : State) (cont : State → State) :
    (s.sp = stackCap ∧ push n k s cont = raise .treeStackOverflow (treePos k) s) ∨
    (s.sp ≠ stackCap ∧ push n k s cont = cont { s with stk := n :: s.stk }) := by
  unfold push
  split <;> simp_all

theorem pop_cases (k : Nat) (s : State) (cont : NodeIdx → State → State) :
    (s.stk = [] ∧ pop k s cont = raise .treeStackUnderflow (treePos k) s) ∨
    (∃ n rest, s.stk = n :: rest ∧ pop k s cont = cont n { s with stk := rest }) := by
  unfold pop
  split
  · next h => exact .inl ⟨h, rfl⟩
  · next n rest h => exact .inr ⟨n, rest, h, rfl⟩

theorem treeLoadEnd_cases (loaded : State → State) (s : State) :
    (∃ r, s.stk = [r] ∧ treeLoadEnd loaded s = loaded { s with root := r, stk := [], treeValid := true }) ∨
    (s.sp ≠ 1 ∧ treeLoadEnd loaded s = raise .treeNotSingleRoot (BitVec.ofNat 32 s.sp) s) := by
  unfold treeLoadEnd State.sp
  split
  · next r h => exact .inl ⟨r, h, rfl⟩
  · next h =>
    refine .inr ⟨?_, rfl⟩
    intro hl
    obtain ⟨r, hr⟩ := List.length_eq_one_iff.1 hl
    exact h r hr

theorem fromStart_start {s : State} (h : s.engine = .running .start) (f : State → State) : fromStart f s = f s := by
  simp [fromStart, h]

theorem fromStart_cases (f : State → State) (s : State) :
    (s.engine = .running .start ∧ fromStart f s = f s) ∨ (s.engine ≠ .running .start ∧ fromStart f s = s) := by
  unfold fromStart
  split <;> simp_all

/-! ### The host's accesses -/

theorem readEngineOwned_cases (v : Word) (s : State) :
    (s.busy = false ∧ readEngineOwned v s = .next { s with rdata := v }) ∨
    (s.busy = true ∧
      readEngineOwned v s = .next { s with rdata := Config.busyRead s.draws, draws := s.draws + 1 }) := by
  unfold readEngineOwned
  cases s.busy <;> simp

theorem popOutData_cases (s : State) :
    (∃ b q, s.outq = b :: q ∧
      popOutData s = .next { s with outq := q, rdata := (0 : BitVec 23) ++ (1 : BitVec 1) ++ b }) ∨
    (s.outq = [] ∧ popOutData s = .next { s with rdata := 0 }) := by
  unfold popOutData
  split
  · next b q h => exact .inl ⟨b, q, h, rfl⟩
  · next h => exact .inr ⟨h, rfl⟩

theorem writeOperand_cases (s' s : State) :
    (s.busy = false ∧ writeOperand s' s = .next s') ∨ (s.busy = true ∧ writeOperand s' s = .next s) := by
  unfold writeOperand
  cases s.busy <;> simp

theorem writeCmd_cases (w : Word) (s : State) :
    (s.busy = false ∧ writeCmd w s = .next (accept w s)) ∨
    (s.busy = true ∧ writeCmd w s = .next { s with cmdOvr := true }) := by
  unfold writeCmd
  cases s.busy <;> simp

theorem pushInData_cases (w : Word) (s : State) :
    (s.inEos = false ∧ s.inq.length < s.inDepth ∧
      pushInData w s = .next { s with inq := s.inq ++ [w.extractLsb' 0 8] }) ∨
    ((s.inEos = true ∨ s.inDepth ≤ s.inq.length) ∧ pushInData w s = .next { s with inOvf := true }) := by
  unfold pushInData
  split
  · next h => exact .inr ⟨by simpa using h, rfl⟩
  · next h =>
    simp only [Bool.or_eq_true, decide_eq_true_eq, not_or, Bool.not_eq_true, Nat.not_le] at h
    exact .inl ⟨h.1, h.2, rfl⟩

theorem writeInCtrl_cases (w : Word) (s : State) :
    (s.busy = true ∧ writeInCtrl w s = .next { s with inEos := s.inEos || w.getLsbD 0 }) ∨
    (s.busy = false ∧ writeInCtrl w s =
      .next { s with
        inq := if w.getLsbD 2 then [] else s.inq
        outq := if w.getLsbD 3 then [] else s.outq
        outInvalid := s.outInvalid && !w.getLsbD 3
        inEos := s.inEos && !w.getLsbD 1 || w.getLsbD 0 }) := by
  unfold writeInCtrl
  cases s.busy
  · exact .inr ⟨rfl, rfl⟩
  · exact .inl ⟨rfl, rfl⟩

/-! ### exec and step -/

/-- Every instruction answers a next state. -/
theorem exec_next (i : Instr) (s : State) : ∃ t, exec i s = .next t := by
  cases i <;> exact ⟨_, rfl⟩

/-- What a step can be: the engine's turn, a host access, or the platform's reset. -/
theorem step_cases {s t : State} (h : step s = .next t) :
    (s.inputs = [] ∧ engineTurn s = .next t) ∨
    (∃ rest, s.inputs = .engine :: rest ∧ engineTurn { s with inputs := rest } = .next t) ∨
    (∃ a rest i, s.inputs = .access a :: rest ∧ decodeAccess a = .ok i ∧
      exec i { s with inputs := rest } = .next t) ∨
    (∃ rest, s.inputs = .reset :: rest ∧ t = platformReset { s with inputs := rest }) := by
  unfold step at h
  split at h
  · next hi => exact .inl ⟨hi, h⟩
  · next rest hi => exact .inr (.inl ⟨rest, hi, h⟩)
  · next a rest hi =>
    unfold hostAccess at h
    split at h
    · next i hd => exact .inr (.inr (.inl ⟨a, rest, i, hi, hd, h⟩))
    · cases h
  · next rest hi =>
    cases h
    exact .inr (.inr (.inr ⟨rest, hi, rfl⟩))

theorem engineTurn_cases (s : State) :
    (s.busy = true ∧ engineTurn s = exec (decodeCommand s.cmdword) s) ∨
    (s.busy = false ∧ engineTurn s = .next s) := by
  unfold engineTurn
  cases s.busy <;> simp

end Sys2Proof.Machine
end

