-- ==== Sys2Proof/Laws/Packing.lean ====
section
/-! SUPPORT. The packed bit stream (30_encoding.md R129): its bytes bit by bit, a whole byte split off, and the bits read
back. -/

namespace Sys2Proof.Machine

theorem firstBits_length (b : Byte) (m : Nat) : (firstBits b m).length = m := by simp [firstBits]

theorem packedByte_getLsbD (bits : List Bool) (k i : Nat) :
    (packedByte bits k).getLsbD i = (decide (i < 8) && bits.getD (8 * k + i) false) := by
  unfold packedByte
  rw [BitVec.getLsbD_setWidth, BitVec.getLsbD_ofBoolListLE]
  by_cases h : i < 8 <;> simp [h, List.getD_eq_getElem?_getD]

theorem packed_nil : packed [] = [] := rfl

/-- At most eight bits fill one byte. -/
theorem packed_short {bits : List Bool} (h0 : bits ≠ []) (h : bits.length ≤ 8) : packed bits = [packedByte bits 0] := by
  have : 0 < bits.length := List.length_pos_iff.2 h0
  have e : (bits.length + 7) / 8 = 1 := by omega
  simp [packed, e]

/-- The first eight bits are the first byte. -/
theorem packed_chunk {c : List Bool} (more : List Bool) (h : c.length = 8) :
    packed (c ++ more) = packedByte c 0 :: packed more := by
  have e : (c.length + more.length + 7) / 8 = (more.length + 7) / 8 + 1 := by omega
  simp only [packed, List.length_append, e, List.range_succ_eq_map, List.map_cons, List.map_map]
  congr 1
  · apply BitVec.eq_of_getLsbD_eq
    intro i hi
    simp only [packedByte_getLsbD, List.getD_eq_getElem?_getD]
    rw [List.getElem?_append_left (by omega)]
  · apply List.map_congr_left
    intro k _
    apply BitVec.eq_of_getLsbD_eq
    intro i hi
    simp only [Function.comp, packedByte_getLsbD, List.getD_eq_getElem?_getD]
    rw [List.getElem?_append_right (by omega)]
    congr 3
    omega

/-- The packer's step: a bit placed above those it holds (43_encoder_bitpacker.md R301). -/
theorem packedByte_place {part : List Bool} (b : Bool) (_h : part.length < 8) :
    packedByte part 0 ||| ((BitVec.ofBool b).setWidth 8 <<< part.length) = packedByte (part ++ [b]) 0 := by
  apply BitVec.eq_of_getLsbD_eq
  intro i hi
  simp only [BitVec.getLsbD_or, packedByte_getLsbD, BitVec.getLsbD_shiftLeft, BitVec.getLsbD_setWidth,
    List.getD_eq_getElem?_getD, Nat.mul_zero, Nat.zero_add]
  rcases Nat.lt_trichotomy i part.length with h1 | h1 | h1
  · rw [List.getElem?_append_left h1]; simp [hi, h1]
  · subst h1; cases b <;> simp [hi]
  · have h2 : part.length + 1 ≤ i := h1
    rw [List.getElem?_eq_none (by omega), List.getElem?_eq_none (by simp; omega)]
    have h3 : 1 ≤ i - part.length := by omega
    have h4 : (BitVec.ofBool b).getLsbD (i - part.length) = false := BitVec.getLsbD_of_ge _ _ h3
    simp [h4]

/-- The bits of a byte made of eight bits are those bits. -/
theorem firstBits_packedByte {c : List Bool} (h : c.length = 8) : firstBits (packedByte c 0) 8 = c := by
  apply List.ext_getElem
  · simp [firstBits, h]
  · intro i h1 h2
    have : i < 8 := by omega
    simp only [firstBits, List.getElem_map, List.getElem_range, packedByte_getLsbD]
    simp [this, List.getD_eq_getElem?_getD, h2]

/-- The bits of the packed form are the bits, then fewer than eight of padding. -/
theorem packed_bits (bits : List Bool) :
    ∃ pad : List Bool, pad.length < 8 ∧ (packed bits).flatMap (firstBits · 8) = bits ++ pad := by
  induction hn : bits.length using Nat.strongRecOn generalizing bits with
  | _ n ih =>
    subst hn
    by_cases h0 : bits = []
    · subst h0; exact ⟨[], by simp, rfl⟩
    · by_cases h8 : bits.length < 8
      · refine ⟨List.replicate (8 - bits.length) false, ?_, ?_⟩
        · have : 0 < bits.length := List.length_pos_iff.2 h0
          simp only [List.length_replicate]; omega
        · rw [packed_short h0 h8.le, List.flatMap_singleton]
          apply List.ext_getElem
          · simp [firstBits]; omega
          · intro i h1 h2
            have : i < 8 := by simpa [firstBits] using h1
            simp only [firstBits, List.getElem_map, List.getElem_range, packedByte_getLsbD, this, decide_true,
              Bool.true_and, Nat.mul_zero, Nat.zero_add, List.getD_eq_getElem?_getD]
            rcases Nat.lt_or_ge i bits.length with h3 | h3
            · simp [List.getElem_append_left h3, h3]
            · rw [List.getElem_append_right h3, List.getElem?_eq_none h3]; simp
      · have e : bits = bits.take 8 ++ bits.drop 8 := (List.take_append_drop 8 bits).symm
        have hl : (bits.take 8).length = 8 := by simp; omega
        obtain ⟨pad, hp, hd⟩ := ih (bits.drop 8).length (by simp; omega) (bits.drop 8) rfl
        refine ⟨pad, hp, ?_⟩
        have h1 : packed bits = packedByte (bits.take 8) 0 :: packed (bits.drop 8) := by
          conv_lhs => rw [e]
          exact packed_chunk _ hl
        rw [h1, List.flatMap_cons, hd, firstBits_packedByte hl, ← List.append_assoc, ← e]

/-! ### Bits put into the packer's byte -/

theorem placed_getLsbD (b : Byte) (pos : Nat) (bits : List Bool) {i : Nat} (h : i < 8) :
    (placed b pos bits).getLsbD i = (b.getLsbD i || (decide (pos ≤ i) && bits.getD (i - pos) false)) := by
  have h1 : i - pos < 8 := by omega
  rw [placed, BitVec.getLsbD_or, BitVec.getLsbD_shiftLeft, BitVec.getLsbD_setWidth, BitVec.getLsbD_ofBoolListLE]
  rcases Nat.lt_or_ge i pos with hp | hp
  · simp [hp, Nat.not_le.2 hp]
  · simp [h, h1, hp, Nat.not_lt.2 hp, List.getD_eq_getElem?_getD]

@[simp] theorem placed_nil (b : Byte) (pos : Nat) : placed b pos [] = b := by
  apply BitVec.eq_of_getLsbD_eq
  intro i hi
  rw [placed_getLsbD _ _ _ hi]
  simp

theorem placed_cons (b : Byte) (pos : Nat) (x : Bool) (bits : List Bool) :
    placed b pos (x :: bits) = placed (b ||| ((BitVec.ofBool x).setWidth 8 <<< pos)) (pos + 1) bits := by
  apply BitVec.eq_of_getLsbD_eq
  intro i hi
  rw [placed_getLsbD _ _ _ hi, placed_getLsbD _ _ _ hi, BitVec.getLsbD_or, BitVec.getLsbD_shiftLeft,
    BitVec.getLsbD_setWidth]
  rcases Nat.lt_trichotomy i pos with h | h | h
  · simp [h, Nat.not_le.2 h, show ¬ pos + 1 ≤ i by omega]
  · subst h
    cases x <;> simp [hi, show ¬ i + 1 ≤ i by omega]
  · have e : i - pos = (i - (pos + 1)) + 1 := by omega
    have hx : (BitVec.ofBool x).getLsbD (i - pos) = false := BitVec.getLsbD_of_ge _ _ (by omega)
    simp only [hx]
    rw [e]
    simp [show pos ≤ i by omega, show pos + 1 ≤ i by omega]

/-- Bits that do not fit are left out. -/
theorem placed_full (b : Byte) (bits : List Bool) : placed b 8 bits = b := by
  apply BitVec.eq_of_getLsbD_eq
  intro i hi
  rw [placed_getLsbD _ _ _ hi]
  simp [show ¬ 8 ≤ i by omega]

end Sys2Proof.Machine
end

