-- ==== Sys2Proof/Laws/Reader.lean ====
section
/-! SUPPORT. The bitstream reader: the bits before it, and the state after some of them are read
(44_bitstream_reader.md R331, R333). -/

namespace Sys2Proof.Machine

/-! ### One buffered bit -/

theorem brPos_lt {s : State} (h : s.brPos ≠ 8) : s.brPos.val < 8 := by
  have := s.brPos.isLt
  have : s.brPos.val ≠ 8 := fun e => h (Fin.ext e)
  omega

theorem brPos_succ {s : State} (h : s.brPos ≠ 8) : (s.brPos + 1).val = s.brPos.val + 1 := by
  have := brPos_lt h
  rw [Fin.val_add]
  exact Nat.mod_eq_of_lt (by simp; omega)

/-- A buffered bit taken: one fewer is buffered. -/
theorem bufferedBits_take {s : State} (h : s.brPos ≠ 8) :
    bufferedBits s = bufferedBits { s with brPos := s.brPos + 1 } + 1 := by
  have := brPos_lt h
  simp only [bufferedBits, brPos_succ h]
  omega

theorem bufferedBits_eq_zero {s : State} : bufferedBits s = 0 ↔ s.brPos = 8 := by
  have := s.brPos.isLt
  constructor
  · intro h
    simp only [bufferedBits] at h
    exact Fin.ext (by simp; omega)
  · intro h
    simp [bufferedBits, h]

@[simp] theorem buffered_length (s : State) : s.buffered.length = bufferedBits s := by
  simp [State.buffered, bufferedBits]

theorem buffered_empty {s : State} (h : s.brPos = 8) : s.buffered = [] := by
  simp [State.buffered, h]

theorem buffered_take {s : State} (h : s.brPos ≠ 8) :
    s.buffered = s.brByte.getLsbD s.brPos.val :: State.buffered { s with brPos := s.brPos + 1 } := by
  have := brPos_lt h
  have e : 8 - s.brPos.val = 8 - (s.brPos.val + 1) + 1 := by omega
  simp only [State.buffered, brPos_succ h]
  rw [e, List.range_succ_eq_map, List.map_cons, List.map_map]
  congr 1
  apply List.map_congr_left
  intro i _
  simp only [Function.comp, Nat.succ_eq_add_one]
  congr 1
  omega

theorem pendingBits_empty {s : State} (h : s.brPos = 8) : s.pendingBits = s.inq.flatMap (firstBits · 8) := by
  simp [State.pendingBits, buffered_empty h]

/-- The next bit, taken. -/
theorem pendingBits_take {s : State} (h : s.brPos ≠ 8) :
    s.pendingBits = s.brByte.getLsbD s.brPos.val :: State.pendingBits { s with brPos := s.brPos + 1 } := by
  simp only [State.pendingBits]
  rw [buffered_take h, List.cons_append]

theorem flatMap_firstBits_length (q : List Byte) : (q.flatMap (firstBits · 8)).length = 8 * q.length := by
  induction q with
  | nil => rfl
  | cons b q ih => simp [List.flatMap_cons, ih, firstBits_length]; omega

@[simp] theorem pendingBits_length (s : State) : s.pendingBits.length = bufferedBits s + 8 * s.inq.length := by
  rw [State.pendingBits, List.length_append, flatMap_firstBits_length, buffered_length]

/-! ### After some bits -/

theorem afterBits_zero (s : State) : s.afterBits 0 = s := by
  simp [State.afterBits]

/-- A buffered bit. -/
theorem afterBits_buffered {s : State} (h : s.brPos ≠ 8) : s.afterBits 1 = { s with brPos := s.brPos + 1 } := by
  have := brPos_lt h
  have hb : 1 ≤ bufferedBits s := by simp only [bufferedBits]; omega
  have e : Fin.ofNat 9 (s.brPos.val + 1) = s.brPos + 1 := by
    apply Fin.ext
    rw [brPos_succ h]
    exact Nat.mod_eq_of_lt (by omega)
  simp only [State.afterBits, if_pos hb, e]
  simp [show 1 - bufferedBits s = 0 by omega]

/-- The first bit of a fresh byte. -/
theorem afterBits_fresh {s : State} {b : Byte} {q : List Byte} (h : s.brPos = 8) (hq : s.inq = b :: q) :
    s.afterBits 1 = { s with inq := q, brByte := b, brPos := 1 } := by
  have hb : bufferedBits s = 0 := bufferedBits_eq_zero.2 h
  simp [State.afterBits, hb, hq]
  rfl

theorem getLastD_take_drop {α : Type} (l : List α) (m n : Nat) (d : α) :
    ((l.drop m).take n).getLastD ((l.take m).getLastD d) = (l.take (m + n)).getLastD d := by
  rw [List.take_add]
  cases hn : (l.drop m).take n with
  | nil => simp
  | cons a t => simp [List.getLastD_eq_getLast?, List.getLast?_append]

theorem afterBits_brPos (s : State) (m : Nat) : (s.afterBits m).brPos.val =
    if m ≤ bufferedBits s then s.brPos.val + m else (m - bufferedBits s - 1) % 8 + 1 := by
  have := s.brPos.isLt
  have hB : bufferedBits s = 8 - s.brPos.val := rfl
  show (Fin.ofNat 9 _).val = _
  apply Nat.mod_eq_of_lt
  split <;> omega

theorem bufferedBits_afterBits (s : State) (m : Nat) : bufferedBits (s.afterBits m) =
    if m ≤ bufferedBits s then bufferedBits s - m else 7 - (m - bufferedBits s - 1) % 8 := by
  have hB : bufferedBits s = 8 - s.brPos.val := rfl
  show 8 - (s.afterBits m).brPos.val = _
  rw [afterBits_brPos]
  split <;> omega

/-- Bits read one after the other. -/
theorem afterBits_add (s : State) (a b : Nat) : (s.afterBits a).afterBits b = s.afterBits (a + b) := by
  have hlt := s.brPos.isLt
  have hB : bufferedBits s = 8 - s.brPos.val := rfl
  have hb := bufferedBits_afterBits s a
  have htook : (a - bufferedBits s + 7) / 8 + (b - bufferedBits (s.afterBits a) + 7) / 8 =
      (a + b - bufferedBits s + 7) / 8 := by
    rw [hb]
    split <;> omega
  have hpos : Fin.ofNat 9 (if b ≤ bufferedBits (s.afterBits a) then (s.afterBits a).brPos.val + b
        else (b - bufferedBits (s.afterBits a) - 1) % 8 + 1) =
      Fin.ofNat 9 (if a + b ≤ bufferedBits s then s.brPos.val + (a + b)
        else (a + b - bufferedBits s - 1) % 8 + 1) := by
    apply congrArg
    rw [hb, afterBits_brPos]
    split <;> split <;> split <;> omega
  have hr : (s.afterBits a).afterBits b = { s.afterBits a with
      inq := (s.inq.drop ((a - bufferedBits s + 7) / 8)).drop ((b - bufferedBits (s.afterBits a) + 7) / 8)
      brByte := ((s.inq.drop ((a - bufferedBits s + 7) / 8)).take
        ((b - bufferedBits (s.afterBits a) + 7) / 8)).getLastD
          ((s.inq.take ((a - bufferedBits s + 7) / 8)).getLastD s.brByte)
      brPos := Fin.ofNat 9 (if b ≤ bufferedBits (s.afterBits a) then (s.afterBits a).brPos.val + b
        else (b - bufferedBits (s.afterBits a) - 1) % 8 + 1) } := rfl
  rw [hr, hpos, List.drop_drop, getLastD_take_drop, htook]
  rfl

end Sys2Proof.Machine
end

