-- ==== Sys2Proof/Laws/Runs.lean ====
section
/-! SUPPORT. Runs: steps one after the other, a step while the host is silent, and each command at its control points. -/

namespace Sys2Proof.Machine

theorem steps_zero (s : State) : steps 0 s = .next s := rfl

theorem steps_one (s : State) : steps 1 s = step s := by
  unfold steps
  cases step s <;> rfl

theorem steps_succ {s t : State} (h : step s = .next t) (n : Nat) : steps (n + 1) s = steps n t := by
  simp [steps, h]

theorem steps_trans {m n : Nat} {s t u : State} (h1 : steps m s = .next t) (h2 : steps n t = .next u) :
    steps (m + n) s = .next u := by
  induction m generalizing s with
  | zero => cases h1; simpa using h2
  | succ m ih =>
    simp only [steps] at h1
    rw [Nat.succ_add_eq_add_succ, Nat.add_succ]
    cases hs : step s with
    | next v => rw [hs] at h1; rw [steps_succ hs]; exact ih h1
    | fault r => rw [hs] at h1; cases h1
    | refused r => rw [hs] at h1; cases h1

/-- While the host is silent a step is the engine's turn. -/
theorem step_silent {s : State} (h : s.inputs = []) : step s = engineTurn s := by
  simp [step, h]

/-- While the host is silent a step of a running command is exec of the latched command. -/
theorem step_running {s : State} {p : Point} (h : s.inputs = []) (he : s.engine = .running p) :
    step s = exec (decodeCommand s.cmdword) s := by
  simp [step, h, engineTurn, State.busy, he]

/-- The same for a command known by its instruction. -/
theorem step_command {s : State} {p : Point} {i : Instr} (h : s.inputs = []) (he : s.engine = .running p)
    (hc : decodeCommand s.cmdword = i) : step s = exec i s := by
  rw [step_running h he, hc]

/-- An Idle engine and a silent host: nothing moves any more. -/
theorem steps_idle {s : State} (h : s.inputs = []) (he : s.engine = .idle) (n : Nat) : steps n s = .next s := by
  induction n with
  | zero => rfl
  | succ n ih =>
    rw [steps_succ (t := s) (by simp [step, h, engineTurn, State.busy, he])]
    exact ih

/-! ### `treeLoadStep` at its control points -/

theorem treeLoadStep_start {s : State} (h : s.engine = .running .start) :
    treeLoadStep s = treeLoadBegin finish s := by
  simp [treeLoadStep, h]

theorem treeLoadStep_treeTag {s : State} {k : Nat} (h : s.engine = .running (.treeTag k)) :
    treeLoadStep s = treeTagStep finish k s := by
  simp [treeLoadStep, h]

theorem treeLoadStep_treeSym {s : State} {k : Nat} (h : s.engine = .running (.treeSym k)) :
    treeLoadStep s = treeSymStep finish k s := by
  simp [treeLoadStep, h]

/-! ### `treeStoreStep` at its control points -/

theorem treeStoreStep_start {s : State} (h : s.engine = .running .start) :
    treeStoreStep s = if s.treeValid then treeStoreNext (postBytes s nodeCap s.root) s else raise .noTree 0 s := by
  simp [treeStoreStep, h]

theorem treeStoreStep_treeOut {s : State} {b : Byte} {rest : List Byte} (h : s.engine = .running (.treeOut b rest)) :
    treeStoreStep s = onOutPush b s (treeStoreNext rest) := by
  simp [treeStoreStep, h]

/-! ### `encodeStep` at its control points -/

theorem encodeStep_start {s : State} (h : s.engine = .running .start) :
    encodeStep s = atPoint .encIn (clearPacker { s with brPos := 8, symcount := 0 }) := by
  simp [encodeStep, h]

theorem encodeStep_encIn {s : State} (h : s.engine = .running .encIn) :
    encodeStep s = onInPop s encodeEnd encodeByte := by
  simp [encodeStep, h]

theorem encodeStep_encOut {s : State} {rest : List Bool} (h : s.engine = .running (.encOut rest)) :
    encodeStep s = onOutPush s.wbyte s fun s => putBits rest (clearPacker s) := by
  simp [encodeStep, h]

theorem encodeStep_encFlush {s : State} (h : s.engine = .running .encFlush) :
    encodeStep s = onOutPush s.wbyte s fun s => finish (clearPacker s) := by
  simp [encodeStep, h]

/-! ### `readBitStep` at its control points -/

theorem readBitStep_start {s : State} (h : s.engine = .running .start) :
    readBitStep s = readBit .bitIn s bitRead := by
  simp [readBitStep, h]

theorem readBitStep_bitIn {s : State} (h : s.engine = .running .bitIn) :
    readBitStep s = refillBit s bitAtEos bitRead := by
  simp [readBitStep, h]

/-! ### `decodeStep` at its control points -/

theorem decodeStep_start {s : State} (h : s.engine = .running .start) :
    decodeStep s = decodeBegin s := by
  simp [decodeStep, h]

theorem decodeStep_decodeIn {s : State} (h : s.engine = .running .decodeIn) :
    decodeStep s = decodeInStep s := by
  simp [decodeStep, h]

theorem decodeStep_decodeOut {s : State} (h : s.engine = .running .decodeOut) :
    decodeStep s = decodeOutStep s := by
  simp [decodeStep, h]

/-! ### `decodeStreamStep` at its control points -/

theorem decodeStreamStep_start {s : State} (h : s.engine = .running .start) :
    decodeStreamStep s = checkMagic (treeLoadBegin decodeBegin) s := by
  simp [decodeStreamStep, h]

theorem decodeStreamStep_treeTag {s : State} {k : Nat} (h : s.engine = .running (.treeTag k)) :
    decodeStreamStep s = treeTagStep decodeBegin k s := by
  simp [decodeStreamStep, h]

theorem decodeStreamStep_treeSym {s : State} {k : Nat} (h : s.engine = .running (.treeSym k)) :
    decodeStreamStep s = treeSymStep decodeBegin k s := by
  simp [decodeStreamStep, h]

theorem decodeStreamStep_decodeIn {s : State} (h : s.engine = .running .decodeIn) :
    decodeStreamStep s = decodeInStep s := by
  simp [decodeStreamStep, h]

theorem decodeStreamStep_decodeOut {s : State} (h : s.engine = .running .decodeOut) :
    decodeStreamStep s = decodeOutStep s := by
  simp [decodeStreamStep, h]

end Sys2Proof.Machine
end

