-- ==== Sys2Proof/Laws/Tree.lean ====
section
/-! SUPPORT. Huffman trees: their sizes, where their nodes stand in the arena, and walks over the held tree. -/

namespace Sys2Proof.Machine

/-! ### Sizes -/

theorem HuffTree.leaves_pos (t : HuffTree) : 1 ≤ t.leaves := by
  induction t with
  | leaf s => simp [HuffTree.leaves]
  | node l r hl hr => simp only [HuffTree.leaves]; omega

theorem HuffTree.size_eq (t : HuffTree) : t.size + 1 = 2 * t.leaves := by
  induction t with
  | leaf s => rfl
  | node l r hl hr => simp only [HuffTree.leaves, HuffTree.size]; omega

theorem HuffTree.size_pos (t : HuffTree) : 1 ≤ t.size := by
  have := t.size_eq; have := t.leaves_pos; omega

@[simp] theorem HuffTree.nodes_length (t : HuffTree) (base : Nat) : (t.nodes base).length = t.size := by
  induction t generalizing base with
  | leaf s => rfl
  | node l r hl hr => simp [HuffTree.nodes, HuffTree.size, hl, hr, Nat.add_assoc]

theorem HuffTree.tokens_length (t : HuffTree) : t.tokens.length + 1 = 3 * t.leaves := by
  induction t with
  | leaf s => rfl
  | node l r hl hr =>
    simp only [HuffTree.tokens, HuffTree.leaves, List.length_append, List.length_cons, List.length_nil]
    omega

theorem HuffTree.paths_length_lt (t : HuffTree) : ∀ p ∈ t.paths, p.2.length < t.leaves := by
  induction t with
  | leaf s => simp [HuffTree.paths, HuffTree.leaves]
  | node l r hl hr =>
    have := l.leaves_pos
    have := r.leaves_pos
    intro p hp
    simp only [HuffTree.paths, List.mem_append, List.mem_map] at hp
    simp only [HuffTree.leaves]
    rcases hp with ⟨q, hq, rfl⟩ | ⟨q, hq, rfl⟩
    · have := hl q hq; simp only [List.length_cons]; omega
    · have := hr q hq; simp only [List.length_cons]; omega

/-! ### Nodes and walks see only the arena -/

theorem node_congr {s u : State} (h : s.arena = u.arena) (i : NodeIdx) : s.node i = u.node i := by
  simp [State.node, h]

theorem walk_congr {s u : State} (h : s.arena = u.arena) (i : NodeIdx) (bits : List Bool) :
    s.walk i bits = u.walk i bits := by
  induction bits generalizing i with
  | nil => rfl
  | cons b bits ih => simp [State.walk, State.child, node_congr h, ih]

theorem walk_append (s : State) (i : NodeIdx) (p q : List Bool) : s.walk i (p ++ q) = s.walk (s.walk i p) q := by
  induction p generalizing i with
  | nil => rfl
  | cons b p ih => simp [State.walk, ih]

/-! ### A tree placed in the arena -/

/-- The nodes of `t` stand in the arena from index `base` on. -/
def Placed (s : State) (t : HuffTree) (base : Nat) : Prop :=
  base + t.size ≤ 511 ∧ ∀ j, j < t.size → s.arena[base + j]? = (t.nodes base)[j]?

theorem Holds.placed {s : State} {t : HuffTree} (h : Holds s t) : Placed s t 0 := by
  have := t.size_eq
  have := h.leaves
  exact ⟨by omega, fun j _ => by rw [h.arena, Nat.zero_add]⟩

theorem Placed.leaf_node {s : State} {c : Byte} {base : Nat} (h : Placed s (.leaf c) base) :
    s.node (BitVec.ofNat 9 base) = ⟨true, c, 0, 0⟩ := by
  have h0 := h.2 0 (by simp [HuffTree.size])
  have hb := h.1
  simp only [HuffTree.size, HuffTree.nodes] at h0 hb
  have : base % 512 = base := Nat.mod_eq_of_lt (by omega)
  simp [State.node, this] at h0 ⊢
  simp [h0]

theorem Placed.inner_node {s : State} {l r : HuffTree} {base : Nat} (h : Placed s (.node l r) base) :
    s.node (BitVec.ofNat 9 (base + l.size + r.size)) =
      ⟨false, 0, BitVec.ofNat 9 (base + l.size - 1), BitVec.ofNat 9 (base + l.size + r.size - 1)⟩ := by
  have h0 := h.2 (l.size + r.size) (by simp [HuffTree.size])
  have hb := h.1
  simp only [HuffTree.size, HuffTree.nodes] at h0 hb
  have : (base + l.size + r.size) % 512 = base + l.size + r.size := Nat.mod_eq_of_lt (by omega)
  rw [List.getElem?_append_right (by simp)] at h0
  simp only [List.length_append, HuffTree.nodes_length, Nat.sub_self, List.getElem?_cons_zero] at h0
  rw [← Nat.add_assoc] at h0
  simp [State.node, this, h0]

theorem Placed.left {s : State} {l r : HuffTree} {base : Nat} (h : Placed s (.node l r) base) : Placed s l base := by
  have hb := h.1
  simp only [HuffTree.size] at hb
  refine ⟨by omega, fun j hj => ?_⟩
  rw [h.2 j (by simp only [HuffTree.size]; omega)]
  simp only [HuffTree.nodes, List.append_assoc]
  rw [List.getElem?_append_left (by simpa using hj)]

theorem Placed.right {s : State} {l r : HuffTree} {base : Nat} (h : Placed s (.node l r) base) :
    Placed s r (base + l.size) := by
  have hb := h.1
  simp only [HuffTree.size] at hb
  refine ⟨by omega, fun j hj => ?_⟩
  rw [Nat.add_assoc, h.2 (l.size + j) (by simp only [HuffTree.size]; omega)]
  simp only [HuffTree.nodes, List.append_assoc]
  rw [List.getElem?_append_right (by simp)]
  simp only [HuffTree.nodes_length, Nat.add_sub_cancel_left]
  rw [List.getElem?_append_left (by simpa using hj)]

/-- A path of a placed tree leads to its leaf, through interior nodes. -/
theorem Placed.walk {s : State} {t : HuffTree} {base : Nat} (h : Placed s t base) {c : Byte} {path : List Bool}
    (hp : (c, path) ∈ t.paths) :
    s.node (s.walk (BitVec.ofNat 9 (base + t.size - 1)) path) = ⟨true, c, 0, 0⟩ ∧
    ∀ k, k < path.length → (s.node (s.walk (BitVec.ofNat 9 (base + t.size - 1)) (path.take k))).leaf = false := by
  induction t generalizing base path with
  | leaf d =>
    simp only [HuffTree.paths, List.mem_singleton, Prod.mk.injEq] at hp
    obtain ⟨rfl, rfl⟩ := hp
    simpa [State.walk, HuffTree.size] using h.leaf_node
  | node l r hl hr =>
    have hi := h.inner_node
    have e : base + (HuffTree.node l r).size - 1 = base + l.size + r.size := by simp only [HuffTree.size]; omega
    simp only [e]
    simp only [HuffTree.paths, List.mem_append, List.mem_map, Prod.mk.injEq] at hp
    rcases hp with ⟨⟨d, q⟩, hq, rfl, rfl⟩ | ⟨⟨d, q⟩, hq, rfl, rfl⟩
    · obtain ⟨h1, h2⟩ := hl h.left hq
      refine ⟨by simpa [State.walk, State.child, hi] using h1, fun k hk => ?_⟩
      cases k with
      | zero => simp [State.walk, hi]
      | succ k => simpa [State.walk, State.child, hi] using h2 k (by simpa using hk)
    · obtain ⟨h1, h2⟩ := hr h.right hq
      refine ⟨by simpa [State.walk, State.child, hi] using h1, fun k hk => ?_⟩
      cases k with
      | zero => simp [State.walk, hi]
      | succ k => simpa [State.walk, State.child, hi] using h2 k (by simpa using hk)

/-! ### The recursive walks over a placed tree -/

/-- `post` of a placed tree lists its token stream (42_tree_codec.md R280). -/
theorem Placed.postBytes {s : State} {t : HuffTree} {base fuel : Nat} (h : Placed s t base) (hf : t.leaves ≤ fuel) :
    postBytes s fuel (BitVec.ofNat 9 (base + t.size - 1)) = t.tokens := by
  induction t generalizing base fuel with
  | leaf d =>
    obtain ⟨f, rfl⟩ : ∃ f, fuel = f + 1 := ⟨fuel - 1, by simp only [HuffTree.leaves] at hf; omega⟩
    have := h.leaf_node
    simp only [Machine.postBytes, HuffTree.size, Nat.add_sub_cancel, this, HuffTree.tokens]
    rfl
  | node l r hl hr =>
    have hl1 := l.leaves_pos
    have hr1 := r.leaves_pos
    simp only [HuffTree.leaves] at hf
    obtain ⟨f, rfl⟩ : ∃ f, fuel = f + 1 := ⟨fuel - 1, by omega⟩
    have hi := h.inner_node
    have e : base + (HuffTree.node l r).size - 1 = base + l.size + r.size := by simp only [HuffTree.size]; omega
    simp only [e, Machine.postBytes, hi, HuffTree.tokens]
    rw [hl h.left (by omega), hr h.right (by omega)]
    rfl

/-- The code walk of a placed tree records its paths, left to right, below the path walked so far
(41_code_table.md R240). -/
theorem Placed.codeWalk {s : State} {t : HuffTree} {base fuel : Nat} (h : Placed s t base) (hf : t.leaves ≤ fuel)
    (path : List Bool) (tab : CodeTable) :
    codeWalk s fuel (BitVec.ofNat 9 (base + t.size - 1)) path tab =
      t.paths.foldl (fun tab p => tab.set p.1 (Code.ofPath (path ++ p.2))) tab := by
  induction t generalizing base fuel path tab with
  | leaf d =>
    obtain ⟨f, rfl⟩ : ∃ f, fuel = f + 1 := ⟨fuel - 1, by simp only [HuffTree.leaves] at hf; omega⟩
    have := h.leaf_node
    simp only [Machine.codeWalk, HuffTree.size, Nat.add_sub_cancel, this, HuffTree.paths]
    simp
  | node l r hl hr =>
    have hl1 := l.leaves_pos
    have hr1 := r.leaves_pos
    simp only [HuffTree.leaves] at hf
    obtain ⟨f, rfl⟩ : ∃ f, fuel = f + 1 := ⟨fuel - 1, by omega⟩
    have hi := h.inner_node
    have e : base + (HuffTree.node l r).size - 1 = base + l.size + r.size := by simp only [HuffTree.size]; omega
    simp only [e, Machine.codeWalk, hi, HuffTree.paths]
    rw [if_neg (by simp), hl h.left (by omega), hr h.right (by omega)]
    simp [List.foldl_append, List.foldl_map]

end Sys2Proof.Machine
end

