-- ==== Sys2Proof/Laws/Decoding.lean ====
section
/-! SUPPORT. The tree-walk decoder's loop: one path from the loop head to the OutPush of its leaf, whatever part of it is
buffered in the bitstream reader. -/

namespace Sys2Proof.Machine

/-! ### One level, and the loop -/

theorem descend_leaf {b : Bool} {s : State} (loop : State → State) (h : (s.node (s.child s.cur b)).leaf = true) :
    descend b s loop = { s with cur := s.child s.cur b, engine := .running .decodeOut } := by
  have h' : ({ s with cur := s.child s.cur b }.node (s.child s.cur b)).leaf = true := h
  unfold State.child at h'
  simp only [descend]
  rw [if_pos h']
  rfl

theorem descend_inner {b : Bool} {s : State} (loop : State → State) (h : (s.node (s.child s.cur b)).leaf = false) :
    descend b s loop = loop { s with cur := s.child s.cur b, dstate := .descending } := by
  have h' : ¬ ({ s with cur := s.child s.cur b }.node (s.child s.cur b)).leaf = true := fun hh =>
    absurd (hh.symm.trans h) (by simp)
  unfold State.child at h'
  simp only [descend]
  rw [if_neg h']
  rfl

theorem decodeLoop_done {s : State} (n : Nat) (h : s.symcount = s.fileSize) :
    decodeLoop n s = finish { s with dstate := .done } := by
  cases n <;> simp only [decodeLoop, decodeCheck, if_pos h]

theorem decodeLoop_degenerate {s : State} (n : Nat) (h : s.symcount ≠ s.fileSize) (hl : (s.node s.cur).leaf = true) :
    decodeLoop n s = raise .degenerateTree 0 s := by
  cases n <;> simp only [decodeLoop, decodeCheck, if_neg h, if_pos hl]

theorem decodeLoop_zero {s : State} (h : s.symcount ≠ s.fileSize) (hl : (s.node s.cur).leaf = false) :
    decodeLoop 0 s = atPoint .decodeIn s := by
  simp only [decodeLoop, decodeCheck, if_neg h, hl, Bool.false_eq_true, if_false]

theorem decodeLoop_succ {s : State} (n : Nat) (h : s.symcount ≠ s.fileSize) (hl : (s.node s.cur).leaf = false)
    (h8 : s.brPos ≠ 8) : decodeLoop (n + 1) s =
      descend (s.brByte.getLsbD s.brPos.val) { s with brPos := s.brPos + 1 } (decodeLoop n) := by
  simp only [decodeLoop, decodeCheck, if_neg h, hl, Bool.false_eq_true, if_false, readBit, h8, takeBit]

/-- The nodes a walk leaves behind are interior. -/
def Inner (s : State) (i : NodeIdx) (bits : List Bool) : Prop :=
  ∀ k, k < bits.length → (s.node (s.walk i (bits.take k))).leaf = false

theorem Inner.cons {s : State} {i : NodeIdx} {b : Bool} {bits : List Bool} (h : (s.node i).leaf = false)
    (hb : Inner s (s.child i b) bits) : Inner s i (b :: bits) := by
  intro k hk
  cases k with
  | zero => exact h
  | succ k => exact hb k (by simpa using hk)

/-- All the loop can do before its next control point: the count is reached; the root is a leaf; or it walks some levels,
through interior nodes, to its InPop with no bit buffered or to the OutPush of a leaf (45_decoder.md R365). -/
theorem decodeLoop_cases (s : State) :
    (s.symcount = s.fileSize ∧ decodeLoop (bufferedBits s) s = finish { s with dstate := .done }) ∨
    (s.symcount ≠ s.fileSize ∧ (s.node s.cur).leaf = true ∧
      decodeLoop (bufferedBits s) s = raise .degenerateTree 0 s) ∨
    (s.symcount ≠ s.fileSize ∧ (s.node s.cur).leaf = false ∧ ∃ pos bits ds, Inner s s.cur bits ∧
      (ds = s.dstate ∨ ds = .descending) ∧
      ((pos = 8 ∧ (s.node (s.walk s.cur bits)).leaf = false ∧ decodeLoop (bufferedBits s) s =
          { s with brPos := pos, cur := s.walk s.cur bits, dstate := ds, engine := .running .decodeIn }) ∨
       ((s.node (s.walk s.cur bits)).leaf = true ∧ decodeLoop (bufferedBits s) s =
          { s with brPos := pos, cur := s.walk s.cur bits, dstate := ds, engine := .running .decodeOut }))) := by
  by_cases hs : s.symcount = s.fileSize
  · exact .inl ⟨hs, decodeLoop_done _ hs⟩
  refine .inr ?_
  cases hl : (s.node s.cur).leaf with
  | true => exact .inl ⟨hs, rfl, decodeLoop_degenerate _ hs hl⟩
  | false =>
    refine .inr ⟨hs, rfl, ?_⟩
    induction hn : bufferedBits s generalizing s with
    | zero =>
      have h8 : s.brPos = 8 := bufferedBits_eq_zero.1 hn
      refine ⟨8, [], s.dstate, by intro k hk; simp at hk, .inl rfl, .inl ⟨rfl, hl, ?_⟩⟩
      rw [decodeLoop_zero hs hl, ← h8]
      rfl
    | succ n ih =>
      have h8 : s.brPos ≠ 8 := by
        intro h
        simp [bufferedBits, h] at hn
      have hb := bufferedBits_take h8
      rw [decodeLoop_succ n hs hl h8]
      generalize s.brByte.getLsbD s.brPos.val = b
      cases hc : (s.node (s.child s.cur b)).leaf with
      | true =>
        rw [descend_leaf _ (by exact hc)]
        refine ⟨s.brPos + 1, [b], s.dstate, ?_, .inl rfl, .inr ⟨hc, rfl⟩⟩
        exact Inner.cons hl (by intro k hk; simp at hk)
      | false =>
        rw [descend_inner _ (by exact hc)]
        obtain ⟨pos, bits, ds, hi, hd, h⟩ := ih
          { s with brPos := s.brPos + 1, cur := s.child s.cur b, dstate := .descending } hs hc
          (by rw [hn] at hb; exact (Nat.succ.inj hb).symm)
        have hw : ∀ q, State.walk { s with brPos := s.brPos + 1, cur := s.child s.cur b, dstate := .descending }
            (s.child s.cur b) q = s.walk s.cur (b :: q) := fun q => walk_congr (u := s) (by rfl) _ _
        have hn : ∀ i, State.node { s with brPos := s.brPos + 1, cur := s.child s.cur b, dstate := .descending } i =
            s.node i := fun i => rfl
        refine ⟨pos, b :: bits, .descending, Inner.cons hl ?_, .inr rfl, ?_⟩
        · intro k hk
          have := hi k hk
          rwa [hn, hw] at this
        · have hds : ds = .descending := by rcases hd with h | h <;> exact h
          subst hds
          simp only [hw, hn] at h
          exact h

/-! ### A whole path -/

/-- DECODE or DECODE_STREAM is latched. -/
def DecodeLatched (s : State) : Prop := s.cmdword = 0x0B ∨ s.cmdword = 0x0C

theorem step_decodeIn {s : State} (h : DecodeLatched s) (hi : s.inputs = []) (he : s.engine = .running .decodeIn) :
    step s = .next (decodeInStep s) := by
  rcases h with h | h
  · rw [step_command (i := .decode) hi he (by rw [h]; rfl)]
    show Host.Outcome.next (decodeStep s) = _
    rw [decodeStep_decodeIn he]
  · rw [step_command (i := .decodeStream) hi he (by rw [h]; rfl)]
    show Host.Outcome.next (decodeStreamStep s) = _
    rw [decodeStreamStep_decodeIn he]

theorem step_decodeOut {s : State} (h : DecodeLatched s) (hi : s.inputs = []) (he : s.engine = .running .decodeOut) :
    step s = .next (decodeOutStep s) := by
  rcases h with h | h
  · rw [step_command (i := .decode) hi he (by rw [h]; rfl)]
    show Host.Outcome.next (decodeStep s) = _
    rw [decodeStep_decodeOut he]
  · rw [step_command (i := .decodeStream) hi he (by rw [h]; rfl)]
    show Host.Outcome.next (decodeStreamStep s) = _
    rw [decodeStreamStep_decodeOut he]

/-- `u` stands at the OutPush of the leaf that `path` leads to from `s`, with the bits of the path read and the bits
`more` still before it. -/
structure AtLeaf (s u : State) (path more : List Bool) : Prop where
  eq   : ∃ ds, u = { s.afterBits path.length with
    cur := s.walk s.cur path, dstate := ds, engine := .running .decodeOut }
  pend : u.pendingBits = more

/-- From the loop head a path through interior nodes to a leaf is followed to that leaf's OutPush, refills included
(45_decoder.md R365, R366). -/
theorem run_path (path : List Bool) : ∀ (s : State) (more : List Bool), s.inputs = [] → DecodeLatched s → path ≠ [] →
    Inner s s.cur path → (s.node (s.walk s.cur path)).leaf = true → s.pendingBits = path ++ more →
    s.symcount ≠ s.fileSize →
    ∃ n u, steps n (decodeLoop (bufferedBits s) s) = .next u ∧ AtLeaf s u path more := by
  induction path with
  | nil => intro _ _ _ _ h; exact absurd rfl h
  | cons b rest ih =>
    intro s more hi hd _ hk hleaf hp hs
    have h0 : (s.node s.cur).leaf = false := hk 0 (by simp)
    have hch : ∀ e, State.child { s.afterBits 1 with engine := e } s.cur b = s.child s.cur b := fun _ => rfl
    have hnd : ∀ (e : Engine) (i : NodeIdx), State.node { s.afterBits 1 with engine := e } i = s.node i :=
      fun _ _ => rfl
    have key : ∀ (e : Engine), (s.afterBits 1).pendingBits = rest ++ more →
        ∃ n u, steps n (descend b { s.afterBits 1 with engine := e }
          (decodeLoop (bufferedBits (s.afterBits 1)))) = .next u ∧ AtLeaf s u (b :: rest) more := by
      intro e hpv
      cases rest with
      | nil =>
        rw [descend_leaf _ (by exact hleaf)]
        exact ⟨0, _, rfl, ⟨s.dstate, rfl⟩, hpv⟩
      | cons b' rest' =>
        rw [descend_inner _ (by exact hk 1 (by simp))]
        have hw : ∀ (i : NodeIdx) (q : List Bool), State.walk { s.afterBits 1 with
            engine := e, cur := s.child s.cur b, dstate := .descending } i q = s.walk i q :=
          fun i q => walk_congr (u := s) (by rfl) i q
        obtain ⟨n, u, hn, ⟨ds, hu⟩, hu2⟩ := ih
          { s.afterBits 1 with engine := e, cur := s.child s.cur b, dstate := .descending } more hi hd (by simp)
          (fun k hk' => by
            rw [hw]
            exact hk (k + 1) (by simpa using hk'))
          (by rw [hw]; exact hleaf) hpv hs
        refine ⟨n, u, hn, ⟨ds, ?_⟩, hu2⟩
        rw [hu]
        simp only [hw]
        have e1 := afterBits_add s 1 (b' :: rest').length
        rw [List.length_cons (a := b), Nat.add_comm _ 1, ← e1]
        rfl
    by_cases h8 : s.brPos = 8
    · have hb : bufferedBits s = 0 := bufferedBits_eq_zero.2 h8
      rw [hb, decodeLoop_zero hs h0]
      rw [pendingBits_empty h8] at hp
      cases hq : s.inq with
      | nil => simp [hq] at hp
      | cons byte q =>
        rw [hq, List.flatMap_cons] at hp
        have ha := afterBits_fresh h8 hq
        have hst : step (atPoint .decodeIn s) = .next (descend (byte.getLsbD 0)
            { s.afterBits 1 with engine := .running .decodeIn } (decodeLoop 7)) := by
          rw [step_decodeIn (by exact hd) (by exact hi) rfl, ha]
          simp only [decodeInStep, refillBit]
          rw [onInPop_byte (s := atPoint .decodeIn s) hq]
          rfl
        have hfb : firstBits byte 8 = byte.getLsbD 0 :: (List.range 7).map (fun i => byte.getLsbD (1 + i)) := by
          simp [firstBits, List.range_succ_eq_map]
        rw [hfb] at hp
        simp only [List.cons_append, List.cons.injEq] at hp
        obtain ⟨hb0, hp⟩ := hp
        obtain ⟨n, u, hn, hu⟩ := key (.running .decodeIn) (by rw [ha, ← hp]; rfl)
        refine ⟨n + 1, u, ?_, hu⟩
        rw [steps_succ hst, hb0]
        rw [ha] at hn ⊢
        exact hn
    · have ha := afterBits_buffered h8
      rw [bufferedBits_take h8, decodeLoop_succ _ hs h0 h8]
      rw [pendingBits_take h8] at hp
      simp only [List.cons_append, List.cons.injEq] at hp
      obtain ⟨n, u, hn, hu⟩ := key s.engine (by rw [ha]; exact hp.2)
      refine ⟨n, u, ?_, hu⟩
      rw [hp.1]
      rw [ha] at hn
      exact hn

/-! ### The buffered bits -/

/-- DECODE's loop from an interior node with the count not reached walks the buffered bits (45_decoder.md R365). -/
theorem decodeLoop_walks (s : State) (hs : s.symcount ≠ s.fileSize) (hl : (s.node s.cur).leaf = false) :
    WalksBuffered s (decodeLoop (bufferedBits s) s) := by
  induction hn : bufferedBits s generalizing s with
  | zero =>
    have h8 := buffered_empty (bufferedBits_eq_zero.1 hn)
    rw [decodeLoop_zero hs hl]
    exact ⟨fun _ => rfl, fun m h1 h2 => by simp [h8] at h2; omega, fun h => absurd h8 h⟩
  | succ n ih =>
    have h8 : s.brPos ≠ 8 := fun h => by rw [bufferedBits_eq_zero.2 h] at hn; cases hn
    have hbn : bufferedBits { s with brPos := s.brPos + 1 } = n := by
      have := bufferedBits_take h8
      omega
    have hbf := buffered_take h8
    rw [decodeLoop_succ n hs hl h8]
    generalize s.brByte.getLsbD s.brPos.val = b at hbf ⊢
    let v : State := { s with brPos := s.brPos + 1, cur := s.child s.cur b, dstate := .descending }
    have hvb : State.buffered { s with brPos := s.brPos + 1 } = v.buffered := rfl
    have hvl : v.buffered.length = n := (buffered_length v).trans hbn
    rw [hvb] at hbf
    have hw : ∀ q, v.walk v.cur q = s.walk s.cur (b :: q) := fun q => walk_congr (u := s) (by rfl) _ _
    have hvn : ∀ i, v.node i = s.node i := fun _ => rfl
    have hp : ∀ m, Fin.ofNat 9 (v.brPos.val + m) = Fin.ofNat 9 (s.brPos.val + (m + 1)) := fun m => by
      show Fin.ofNat 9 ((s.brPos + 1).val + m) = _
      rw [brPos_succ h8, Nat.add_assoc, Nat.add_comm 1]
    have h1 : s.walk s.cur (s.buffered.take 1) = s.child s.cur b := by rw [hbf]; rfl
    cases hc : (s.node (s.child s.cur b)).leaf with
    | true =>
      rw [descend_leaf _ (by exact hc)]
      refine ⟨fun h => by simp [hbf] at h, fun m hm _ hin _ => ?_, fun _ hin => ?_⟩
      · have : m = 1 := by
          by_contra hne
          have := hin 1 (by omega) (by omega)
          rw [h1, hc] at this
          cases this
        subst this
        have hp0 : s.brPos + 1 = Fin.ofNat 9 (s.brPos.val + 1) := by
          rw [← hp 0]
          exact (Fin.ext (Nat.mod_eq_of_lt (s.brPos + 1).isLt)).symm
        simp only [h1, if_true, ← hp0]
        rfl
      · have := hin 1 (by omega) (by rw [hbf]; simp)
        rw [h1, hc] at this
        cases this
    | false =>
      rw [descend_inner _ (by exact hc)]
      have hi := ih v hs hc hbn
      refine ⟨fun h => by simp [hbf] at h, fun m hm hle hin hlf => ?_, fun _ hin => ?_⟩
      · obtain ⟨k, rfl⟩ : ∃ k, m = k + 1 := ⟨m - 1, by omega⟩
        have hk : 1 ≤ k := by
          by_contra hne
          have : k = 0 := by omega
          subst this
          rw [h1, hc] at hlf
          cases hlf
        simp only [hbf, List.take_succ_cons, List.length_cons] at hle hin hlf ⊢
        have := hi.leaf k hk (Nat.le_of_succ_le_succ hle)
          (fun j hj1 hj2 => by rw [hw, hvn]; exact hin (j + 1) (by omega) (by omega)) (by rw [hw, hvn]; exact hlf)
        have hd : (if k = 1 then v.dstate else .descending) = .descending := by split <;> rfl
        refine this.trans ?_
        rw [hd, hw, hp, if_neg (show ¬ k + 1 = 1 by omega)]
      · by_cases hv : v.buffered = []
        · rw [hbf, hv] at hin ⊢
          refine (hi.empty hv).trans ?_
          have : n = 0 := by rw [← hvl, hv]; rfl
          have h9 : s.brPos + 1 = 8 := bufferedBits_eq_zero.1 (hbn.trans this)
          simp [v, h9, State.walk]
        · rw [hbf] at hin ⊢
          refine (hi.used hv (fun j hj1 hj2 => ?_)).trans ?_
          · rw [hw, hvn]
            exact hin (j + 1) (by omega) (by simpa using hj2)
          · simp only [hw]
            rfl

end Sys2Proof.Machine
end

