-- ==== Sys2Proof/Laws/Encoding.lean ====
section
/-! SUPPORT. The bit packer over the code of one input byte: the bytes that fill up are pushed, the rest stays in WBYTE
(43_encoder_bitpacker.md R301, R304). -/

namespace Sys2Proof.Machine

/-- The packer holds the bits `part`. -/
structure HoldsBits (part : List Bool) (wbyte : Byte) (wpos : Fin 8) : Prop where
  pos  : wpos.val = part.length
  byte : wbyte = packedByte part 0

theorem HoldsBits.lt {part : List Bool} {b : Byte} {p : Fin 8} (h : HoldsBits part b p) : part.length < 8 := by
  rw [← h.pos]
  exact p.isLt

theorem HoldsBits.nil : HoldsBits [] 0 0 := ⟨rfl, by decide⟩

/-- All `putBits` can do: every bit fits below a full byte and the symbol is counted, or the byte fills up and its OutPush
is next (43_encoder_bitpacker.md R301, R303). -/
theorem putBits_placed (bits : List Bool) (s : State) :
    (s.wpos.val + bits.length < 8 → putBits bits s = { s with
      wbyte := placed s.wbyte s.wpos.val bits, wpos := Fin.ofNat 8 (s.wpos.val + bits.length)
      symcount := s.symcount + 1, engine := .running .encIn }) ∧
    (8 ≤ s.wpos.val + bits.length → putBits bits s = { s with
      wbyte := placed s.wbyte s.wpos.val bits, wpos := 7
      engine := .running (.encOut (bits.drop (8 - s.wpos.val))) }) := by
  induction bits generalizing s with
  | nil =>
    have := s.wpos.isLt
    refine ⟨fun _ => ?_, fun h => by simp at h; omega⟩
    simp [putBits, atPoint]
  | cons b rest ih =>
    by_cases h7 : s.wpos = 7
    · refine ⟨fun h => absurd h (by simp [h7]; omega), fun _ => ?_⟩
      simp only [putBits, placeBit, h7, if_true, atPoint, placed_cons]
      rw [show (7 : Fin 8).val + 1 = 8 from rfl, placed_full]
      rfl
    · have hlt : s.wpos.val + 1 < 8 := by
        have := s.wpos.isLt
        have : s.wpos.val ≠ 7 := fun h => h7 (Fin.ext h)
        omega
      have hpos : (s.wpos + 1).val = s.wpos.val + 1 := by
        rw [Fin.val_add]
        exact Nat.mod_eq_of_lt (by simp; omega)
      have e : putBits (b :: rest) s = putBits rest { s with
          wbyte := s.wbyte ||| ((BitVec.ofBool b).setWidth 8 <<< s.wpos.val), wpos := s.wpos + 1 } := by
        simp [putBits, placeBit, h7]
      have h := ih { s with
        wbyte := s.wbyte ||| ((BitVec.ofBool b).setWidth 8 <<< s.wpos.val), wpos := s.wpos + 1 }
      simp only [hpos, ← placed_cons] at h
      rw [e, List.length_cons, show s.wpos.val + (rest.length + 1) = s.wpos.val + 1 + rest.length by omega,
        show 8 - s.wpos.val = 8 - (s.wpos.val + 1) + 1 by omega, List.drop_succ_cons]
      exact h

/-- The bits of a code put after those the packer holds, with room for the bytes they fill: in the end the packer holds
`part'`, the pushed bytes are `full`, and what follows packs as if it came after all of them. -/
theorem run_putBits (bits : List Bool) : ∀ (s : State) (part : List Bool), s.inputs = [] → s.cmdword = 0x07 →
    HoldsBits part s.wbyte s.wpos → s.outq.length + (packed (part ++ bits)).length ≤ s.outDepth →
    ∃ n full part' wb wp, steps n (putBits bits s) = .next { s with
        outq := s.outq ++ full, outbytes := s.outbytes + BitVec.ofNat 64 full.length, wbyte := wb, wpos := wp,
        symcount := s.symcount + 1, engine := .running .encIn } ∧
      HoldsBits part' wb wp ∧ ∀ more, packed (part ++ bits ++ more) = full ++ packed (part' ++ more) := by
  induction bits with
  | nil =>
    intro s part hi hc hp hr
    exact ⟨0, [], part, s.wbyte, s.wpos, by simp [putBits, steps, atPoint], hp, by simp⟩
  | cons b rest ih =>
    intro s part hi hc hp hr
    have hlt := hp.lt
    have hw : s.wbyte ||| ((BitVec.ofBool b).setWidth 8 <<< s.wpos.val) = packedByte (part ++ [b]) 0 := by
      rw [hp.pos, hp.byte]
      exact packedByte_place b hlt
    by_cases h7 : s.wpos = 7
    · have hl : (part ++ [b]).length = 8 := by simp [← hp.pos, h7]
      have hch : ∀ more, packed (part ++ (b :: rest) ++ more) =
          packedByte (part ++ [b]) 0 :: packed (rest ++ more) := by
        intro more
        rw [← packed_chunk _ hl]
        simp
      have hr' := hr
      have h0 := hch []
      simp only [List.append_nil] at h0
      rw [h0] at hr'
      simp only [List.length_cons] at hr'
      have e1 : putBits (b :: rest) s =
          { s with wbyte := packedByte (part ++ [b]) 0, engine := .running (.encOut rest) } := by
        simp only [putBits, placeBit, h7, if_true, atPoint]
        rw [← hw, h7]
      let s2 : State := { s with
        outq := s.outq ++ [packedByte (part ++ [b]) 0], outbytes := s.outbytes + 1, wbyte := 0, wpos := 0,
        engine := .running (.encOut rest) }
      have hs : step (putBits (b :: rest) s) = .next (putBits rest s2) := by
        rw [e1]
        refine (step_command (i := .encode) (p := .encOut rest) (by exact hi) rfl ?_).trans ?_
        · show decodeCommand s.cmdword = _
          rw [hc]
          rfl
        · show Host.Outcome.next (encodeStep _) = _
          rw [encodeStep_encOut rfl, onOutPush_room (by simp [State.outDepth] at hr' ⊢; omega)]
          rfl
      obtain ⟨n, full, part', wb, wp, h1, h2, h3⟩ := ih s2 [] hi hc HoldsBits.nil
        (by simp [s2, State.outDepth] at hr' ⊢; omega)
      refine ⟨n + 1, packedByte (part ++ [b]) 0 :: full, part', wb, wp, ?_, h2, ?_⟩
      · rw [steps_succ hs, h1]
        simp only [s2, List.append_assoc, List.singleton_append, List.length_cons, count_succ]
      · intro more
        rw [hch, ← List.nil_append rest, h3]
        simp
    · have hpos : (s.wpos + 1).val = part.length + 1 := by
        have : s.wpos.val ≠ 7 := fun h => h7 (Fin.ext h)
        rw [← hp.pos, Fin.val_add]
        exact Nat.mod_eq_of_lt (by have := s.wpos.isLt; simp; omega)
      have e1 : putBits (b :: rest) s =
          putBits rest { s with wbyte := packedByte (part ++ [b]) 0, wpos := s.wpos + 1 } := by
        simp [putBits, placeBit, h7, hw]
      obtain ⟨n, full, part', wb, wp, h1, h2, h3⟩ := ih
        { s with wbyte := packedByte (part ++ [b]) 0, wpos := s.wpos + 1 } (part ++ [b]) hi hc
        ⟨by rw [hpos]; simp, rfl⟩ (by simpa [State.outDepth] using hr)
      refine ⟨n, full, part', wb, wp, by rw [e1, h1], h2, ?_⟩
      intro more
      rw [← h3]
      simp

end Sys2Proof.Machine
end

