-- ==== Sys2Proof/Laws/Errors.lean ====
section
/-! SUPPORT. Which errors each command may raise, one equation per command (60_exceptions.md R401). -/

namespace Sys2Proof.Machine

@[simp] theorem mayRaise_nop : mayRaise .nop = [] := rfl
@[simp] theorem mayRaise_clear : mayRaise .clear = [] := rfl
@[simp] theorem mayRaise_lutWrite : mayRaise .lutWrite = [.lutBadLen] := rfl
@[simp] theorem mayRaise_lutRead : mayRaise .lutRead = [] := rfl
@[simp] theorem mayRaise_lutBuild : mayRaise .lutBuild = [.noTree, .degenerateTree] := rfl
@[simp] theorem mayRaise_treeLoad : mayRaise .treeLoad =
    [.treeEos, .treeBadToken, .treeLeafTruncated, .treeStackUnderflow, .treeStackOverflow, .treeNodeOverflow,
      .treeNotSingleRoot] := rfl
@[simp] theorem mayRaise_treeStore : mayRaise .treeStore = [.noTree] := rfl
@[simp] theorem mayRaise_encode : mayRaise .encode = [.lutMiss] := rfl
@[simp] theorem mayRaise_readBit : mayRaise .readBit = [] := rfl
@[simp] theorem mayRaise_brDiscard : mayRaise .brDiscard = [] := rfl
@[simp] theorem mayRaise_magicCheck : mayRaise .magicCheck = [.badMagic] := rfl
@[simp] theorem mayRaise_decode : mayRaise .decode = [.noTree, .degenerateTree, .decodeEos] := rfl
@[simp] theorem mayRaise_decodeStream : mayRaise .decodeStream =
    [.badMagic, .treeEos, .treeBadToken, .treeLeafTruncated, .treeStackUnderflow, .treeStackOverflow,
      .treeNodeOverflow, .treeNotSingleRoot, .degenerateTree, .decodeEos] := rfl
@[simp] theorem mayRaise_reserved (w : Word) : mayRaise (.reserved w) = [.badCommand] := rfl

end Sys2Proof.Machine
end

