-- ==== Sys2Proof/Laws/Fifos.lean ====
section
/-! SUPPORT. The far ends of the FIFOs: a command that is not blocked does the same whether or not more bytes stand behind
those in INQ or before those in OUTQ, so the host's pushes and pops commute with its steps (20_memory.md R93, R94). -/

namespace Sys2Proof.Machine

/-- `s` with the bytes `p` behind those in INQ, the bytes `q` before those in OUTQ, and `r` as the last word read. -/
def State.fed (s : State) (p q : List Byte) (r : Word) : State :=
  { s with inq := s.inq ++ p, outq := q ++ s.outq, rdata := r }

/-- `f` does not look at the far ends of the FIFOs. -/
def Feeds (p q : List Byte) (r : Word) (f : State → State) : Prop := ∀ s, f (s.fed p q r) = (f s).fed p q r

section
variable {p q : List Byte} {r : Word}

theorem Feeds.finish : Feeds p q r finish := fun _ => rfl
theorem Feeds.raise (e : ErrCode) (w : Word) : Feeds p q r (raise e w) := fun _ => rfl
theorem Feeds.atPoint (pt : Point) : Feeds p q r (atPoint pt) := fun _ => rfl

/-! ### The shared operations -/

theorem fed_onInPop {s : State} {eos : State → State} {byte : Byte → State → State} (he : Feeds p q r eos)
    (hb : ∀ b, Feeds p q r (byte b)) (h : p = [] ∨ s.inq ≠ []) :
    onInPop (s.fed p q r) eos byte = (onInPop s eos byte).fed p q r := by
  rcases onInPop_cases s eos byte with ⟨b, l, hq, e⟩ | ⟨hq, hi, e⟩ | ⟨hq, hi, e⟩ <;> rw [e]
  · rw [onInPop_byte (b := b) (q := l ++ p) (by simp [State.fed, hq]), ← hb b]
    rfl
  all_goals obtain rfl : p = [] := h.resolve_right (fun hn => hn hq)
  · rw [onInPop_eos (s := s.fed [] q r) (by simp [State.fed, hq]) hi]
    exact he s
  · rw [onInPop_blocked (s := s.fed [] q r) (by simp [State.fed, hq]) hi]

theorem fed_onOutPush {s : State} (b : Byte) {cont : State → State} (hc : Feeds p q r cont)
    (h : (s.fed p q r).outq.length < s.outDepth) :
    onOutPush b (s.fed p q r) cont = (onOutPush b s cont).fed p q r := by
  have hs : s.outq.length < s.outDepth := by
    simp only [State.fed, List.length_append] at h
    omega
  rw [onOutPush_room h, onOutPush_room hs, ← hc]
  simp [State.fed]

theorem Feeds.readBit (pt : Point) {cont : Bool → State → State} (hc : ∀ b, Feeds p q r (cont b)) :
    Feeds p q r fun s => readBit pt s cont := by
  intro s
  show (if s.brPos = 8 then _ else _) = State.fed (if s.brPos = 8 then _ else _) p q r
  split
  · rfl
  · exact hc _ { s with brPos := s.brPos + 1 }

theorem fed_refillBit {s : State} {eos : State → State} {cont : Bool → State → State} (he : Feeds p q r eos)
    (hc : ∀ b, Feeds p q r (cont b)) (h : p = [] ∨ s.inq ≠ []) :
    refillBit (s.fed p q r) eos cont = (refillBit s eos cont).fed p q r := by
  refine fed_onInPop he (fun b s => ?_) h
  unfold takeBit
  rw [← hc]
  rfl

theorem Feeds.fromStart {f : State → State} (h : Feeds p q r f) : Feeds p q r (fromStart f) := by
  intro s
  rcases fromStart_cases f s with ⟨he, e⟩ | ⟨he, e⟩ <;> rw [e]
  · exact (fromStart_start (by exact he) f).trans (h s)
  · rcases fromStart_cases f (s.fed p q r) with ⟨he', _⟩ | ⟨_, e'⟩
    · exact absurd he' he
    · exact e'

/-! ### The meanings' parts -/

theorem Feeds.treeLoadEnd {loaded : State → State} (hl : Feeds p q r loaded) : Feeds p q r (treeLoadEnd loaded) := by
  intro s
  have hf : (s.fed p q r).stk = s.stk := rfl
  unfold Machine.treeLoadEnd
  rw [hf]
  split
  · exact hl { s with root := _, stk := [], treeValid := true }
  · rfl

theorem Feeds.treeLoadLoop {loaded : State → State} (k : Nat) (hl : Feeds p q r loaded) :
    Feeds p q r (treeLoadLoop loaded k) := by
  intro s
  show (if k < s.treeLen then _ else _) = State.fed (if k < s.treeLen then _ else _) p q r
  split
  · rfl
  · exact Feeds.treeLoadEnd hl s

theorem Feeds.treeLoadBegin {loaded : State → State} (hl : Feeds p q r loaded) : Feeds p q r (treeLoadBegin loaded) :=
  fun s => Feeds.treeLoadLoop 0 hl { s with brPos := 8, treeValid := false, arena := [], root := 0, stk := [] }

theorem Feeds.alloc (n : Node) (k : Nat) {cont : NodeIdx → State → State} (hc : ∀ i, Feeds p q r (cont i)) :
    Feeds p q r fun s => alloc n k s cont := by
  intro s
  show (if s.nodeCount = nodeCap then _ else _) = State.fed (if s.nodeCount = nodeCap then _ else _) p q r
  split
  · rfl
  · exact hc _ { s with arena := s.arena ++ [n] }

theorem Feeds.push (n : NodeIdx) (k : Nat) {cont : State → State} (hc : Feeds p q r cont) :
    Feeds p q r fun s => push n k s cont := by
  intro s
  show (if s.sp = stackCap then _ else _) = State.fed (if s.sp = stackCap then _ else _) p q r
  split
  · rfl
  · exact hc { s with stk := n :: s.stk }

theorem Feeds.pop (k : Nat) {cont : NodeIdx → State → State} (hc : ∀ i, Feeds p q r (cont i)) :
    Feeds p q r fun s => pop k s cont := by
  intro s
  rcases pop_cases k s cont with ⟨h, e⟩ | ⟨n, rest, h, e⟩
  · simp only [e]
    simp only [Machine.pop, show (s.fed p q r).stk = [] from h]
    rfl
  · simp only [e]
    simp only [Machine.pop, show (s.fed p q r).stk = n :: rest from h]
    exact hc n { s with stk := rest }

theorem Feeds.treeInterior {loaded : State → State} (k : Nat) (hl : Feeds p q r loaded) :
    Feeds p q r (treeInterior loaded k) :=
  Feeds.pop k fun _ => Feeds.pop k fun _ => Feeds.alloc _ k fun _ => Feeds.push _ k (Feeds.treeLoadLoop _ hl)

theorem fed_treeTagStep {loaded : State → State} (k : Nat) {s : State} (hl : Feeds p q r loaded)
    (h : p = [] ∨ s.inq ≠ []) : treeTagStep loaded k (s.fed p q r) = (treeTagStep loaded k s).fed p q r := by
  refine fed_onInPop (Feeds.raise _ _) (fun b s => ?_) h
  show (if b = tokenLeaf then (if k + 1 = s.treeLen then _ else _) else _) = State.fed (if _ then _ else _) p q r
  split
  · split <;> rfl
  · split
    · exact Feeds.treeInterior k hl s
    · rfl

theorem fed_treeSymStep {loaded : State → State} (k : Nat) {s : State} (hl : Feeds p q r loaded)
    (h : p = [] ∨ s.inq ≠ []) : treeSymStep loaded k (s.fed p q r) = (treeSymStep loaded k s).fed p q r :=
  fed_onInPop (Feeds.raise _ _)
    (fun _ => Feeds.alloc _ k fun _ => Feeds.push _ k (Feeds.treeLoadLoop _ hl)) h

theorem Feeds.treeStoreNext (bytes : List Byte) : Feeds p q r (treeStoreNext bytes) := by
  intro s
  cases bytes <;> rfl

theorem Feeds.putBits (bits : List Bool) : Feeds p q r (putBits bits) := by
  induction bits with
  | nil => intro s; rfl
  | cons b rest ih =>
    intro s
    show (if s.wpos = 7 then _ else _) = State.fed (if s.wpos = 7 then _ else _) p q r
    split
    · rfl
    · exact ih { placeBit b s with wpos := s.wpos + 1 }

theorem Feeds.encodeByte (c : Byte) : Feeds p q r (encodeByte c) := by
  intro s
  show (if (s.lut.get c).len = 0 then _ else _) = State.fed (if (s.lut.get c).len = 0 then _ else _) p q r
  split
  · rfl
  · exact Feeds.putBits _ s

theorem Feeds.encodeEnd : Feeds p q r encodeEnd := by
  intro s
  show (if s.wpos = 0 then _ else _) = State.fed (if s.wpos = 0 then _ else _) p q r
  split <;> rfl

theorem Feeds.checkMagic {cont : State → State} (hc : Feeds p q r cont) : Feeds p q r (checkMagic cont) := by
  intro s
  show (if s.hdrMagic = s.params.magic then _ else _) = State.fed (if s.hdrMagic = s.params.magic then _ else _) p q r
  split
  · exact hc s
  · rfl

theorem Feeds.decodeCheck {cont : State → State} (hc : Feeds p q r cont) :
    Feeds p q r fun s => decodeCheck s cont := by
  intro s
  show (if s.symcount = s.fileSize then _ else if (s.node s.cur).leaf then _ else _) =
    State.fed (if s.symcount = s.fileSize then _ else if (s.node s.cur).leaf then _ else _) p q r
  split
  · rfl
  · split
    · rfl
    · exact hc s

theorem Feeds.descend (b : Bool) {loop : State → State} (hl : Feeds p q r loop) :
    Feeds p q r fun s => descend b s loop := by
  intro s
  cases h : (s.node (s.child s.cur b)).leaf with
  | true => exact (descend_leaf loop (s := s.fed p q r) h).trans (congrArg (·.fed p q r) (descend_leaf loop h).symm)
  | false =>
    refine (descend_inner loop (s := s.fed p q r) h).trans ?_
    refine (hl { s with cur := s.child s.cur b, dstate := .descending }).trans ?_
    exact congrArg (·.fed p q r) (descend_inner loop h).symm

theorem Feeds.decodeLoop (n : Nat) : Feeds p q r (decodeLoop n) := by
  induction n with
  | zero => exact Feeds.decodeCheck (Feeds.atPoint _)
  | succ n ih => exact Feeds.decodeCheck (Feeds.readBit _ fun b => Feeds.descend b ih)

theorem Feeds.decodeBegin : Feeds p q r decodeBegin := by
  intro s
  show (if s.treeValid then _ else _) = State.fed (if s.treeValid then _ else _) p q r
  split
  · exact Feeds.decodeLoop _ { s with symcount := 0, cur := s.root, dstate := .atRoot }
  · rfl

theorem fed_decodeInStep {s : State} (h : p = [] ∨ s.inq ≠ []) :
    decodeInStep (s.fed p q r) = (decodeInStep s).fed p q r :=
  fed_refillBit (fun _ => rfl) (fun b => Feeds.descend b (Feeds.decodeLoop 7)) h

theorem fed_decodeOutStep {s : State} (h : (s.fed p q r).outq.length < s.outDepth) :
    decodeOutStep (s.fed p q r) = (decodeOutStep s).fed p q r :=
  fed_onOutPush _
    (fun s => Feeds.decodeLoop _ { s with symcount := s.symcount + 1, cur := s.root, dstate := .atRoot }) h

theorem Feeds.lutWriteBody : Feeds p q r lutWriteBody := by
  intro s
  show (if s.lutLen.toNat ≤ 256 then _ else _) = State.fed (if s.lutLen.toNat ≤ 256 then _ else _) p q r
  split <;> rfl

theorem Feeds.lutBuildBody : Feeds p q r lutBuildBody := by
  intro s
  have hw : ∀ fuel i path t, codeWalk (s.fed p q r) fuel i path t = codeWalk s fuel i path t := by
    intro fuel
    induction fuel with
    | zero => intros; rfl
    | succ n ih => intro i path t; simp only [codeWalk, ih, node_congr (show (s.fed p q r).arena = s.arena from rfl)]
  unfold Machine.lutBuildBody
  rw [hw]
  show (if s.treeValid then (if (s.node s.root).leaf then _ else _) else _) =
    State.fed (if s.treeValid then (if (s.node s.root).leaf then _ else _) else _) p q r
  split
  · split <;> rfl
  · rfl

theorem postBytes_fed (s : State) (fuel : Nat) (i : NodeIdx) : postBytes (s.fed p q r) fuel i = postBytes s fuel i := by
  induction fuel generalizing i with
  | zero => rfl
  | succ n ih => simp only [postBytes, ih, node_congr (show (s.fed p q r).arena = s.arena from rfl)]

/-! ### A command's step -/

/-- The step of a command is the same with more bytes behind INQ's, or before OUTQ's, unless it waits for one of them:
it is not blocked on the input FIFO where `p` is not empty, nor on the output FIFO with the bytes `q` in it. -/
theorem exec_fed {c : Instr} {s u : State} (hc : isCommand c = true)
    (hi : p = [] ∨ s.inEos = false ∧ s.waitIn = false) (ho : (s.fed p q r).waitOut = false)
    (h : exec c s = .next u) : exec c (s.fed p q r) = .next (u.fed p q r) := by
  have hin : ∀ pt, s.engine = .running pt → pt.isIn = true → p = [] ∨ s.inq ≠ [] := by
    intro pt he hp
    rcases hi with h | ⟨h1, h2⟩
    · exact .inl h
    · refine .inr fun hq => ?_
      simp [State.waitIn, he, hp, hq, h1] at h2
  have hout : ∀ pt, s.engine = .running pt → pt.isOut = true → (s.fed p q r).outq.length < s.outDepth := by
    intro pt he hp
    have hd : (s.fed p q r).outDepth = s.outDepth := rfl
    have he' : (s.fed p q r).engine = .running pt := he
    simp only [State.waitOut, he', hp, hd, Bool.true_and, decide_eq_false_iff_not, Nat.not_le] at ho
    exact ho
  have hs : ∀ f : State → State, f (s.fed p q r) = (f s).fed p q r → exec c s = .next (f s) →
      exec c (s.fed p q r) = .next (f (s.fed p q r)) → exec c (s.fed p q r) = .next (u.fed p q r) := by
    intro f hf h1 h2
    cases h1.symm.trans h
    rw [h2, hf]
  have hf : (s.fed p q r).engine = s.engine := rfl
  cases c
  case nop => exact hs _ (Feeds.fromStart Feeds.finish s) rfl rfl
  case clear => exact hs _ (Feeds.fromStart (fun _ => rfl) s) rfl rfl
  case lutWrite => exact hs _ (Feeds.fromStart Feeds.lutWriteBody s) rfl rfl
  case lutRead => exact hs _ (Feeds.fromStart (fun _ => rfl) s) rfl rfl
  case lutBuild => exact hs _ (Feeds.fromStart Feeds.lutBuildBody s) rfl rfl
  case brDiscard => exact hs _ (Feeds.fromStart (fun _ => rfl) s) rfl rfl
  case magicCheck => exact hs _ (Feeds.fromStart (Feeds.checkMagic Feeds.finish) s) rfl rfl
  case reserved w => exact hs _ (Feeds.fromStart (Feeds.raise _ _) s) rfl rfl
  case treeLoad =>
    refine hs treeLoadStep ?_ rfl rfl
    simp only [treeLoadStep, hf]
    split
    · exact Feeds.treeLoadBegin Feeds.finish s
    · next k he => exact fed_treeTagStep k Feeds.finish (hin _ he rfl)
    · next k he => exact fed_treeSymStep k Feeds.finish (hin _ he rfl)
    · rfl
  case treeStore =>
    refine hs treeStoreStep ?_ rfl rfl
    simp only [treeStoreStep, hf, postBytes_fed]
    split
    · show (if s.treeValid then _ else _) = State.fed (if s.treeValid then _ else _) p q r
      split
      · exact Feeds.treeStoreNext _ s
      · rfl
    · next b rest he => exact fed_onOutPush b (Feeds.treeStoreNext _) (hout _ he rfl)
    · rfl
  case encode =>
    refine hs encodeStep ?_ rfl rfl
    simp only [encodeStep, hf]
    split
    · rfl
    · next he => exact fed_onInPop Feeds.encodeEnd Feeds.encodeByte (hin _ he rfl)
    · next rest he => exact fed_onOutPush _ (fun s => Feeds.putBits rest (clearPacker s)) (hout _ he rfl)
    · next he => exact fed_onOutPush _ (fun _ => rfl) (hout _ he rfl)
    · rfl
  case readBit =>
    refine hs readBitStep ?_ rfl rfl
    simp only [readBitStep, hf]
    split
    · exact Feeds.readBit _ (fun _ _ => rfl) s
    · next he => exact fed_refillBit (fun _ => rfl) (fun _ _ => rfl) (hin _ he rfl)
    · rfl
  case decode =>
    refine hs decodeStep ?_ rfl rfl
    simp only [decodeStep, hf]
    split
    · exact Feeds.decodeBegin s
    · next he => exact fed_decodeInStep (hin _ he rfl)
    · next he => exact fed_decodeOutStep (hout _ he rfl)
    · rfl
  case decodeStream =>
    refine hs decodeStreamStep ?_ rfl rfl
    simp only [decodeStreamStep, hf]
    split
    · exact Feeds.checkMagic (Feeds.treeLoadBegin Feeds.decodeBegin) s
    · next k he => exact fed_treeTagStep k Feeds.decodeBegin (hin _ he rfl)
    · next k he => exact fed_treeSymStep k Feeds.decodeBegin (hin _ he rfl)
    · next he => exact fed_decodeInStep (hin _ he rfl)
    · next he => exact fed_decodeOutStep (hout _ he rfl)
    · rfl
  all_goals simp [isCommand, encode] at hc

end

end Sys2Proof.Machine
end

