-- ==== Sys2Proof/Laws/PerInstr.lean ====
section
/-! SUPPORT. Facts of the instruction syntax, one lemma per constructor of Instr. -/

namespace Sys2Proof.Laws.EncodeAligned

/-- An instruction that is a bus access is encoded at a word-aligned address (20_memory.md R86). -/
def Statement (i : Instr) : Prop := ∀ a, encode i = .access a → a.addr.toNat % 4 = 0

theorem write_aligned {a : BitVec 8} (h : a.toNat % 4 = 0) (w : Word) : (Access.write a w).addr.toNat % 4 = 0 := h

theorem nop : Statement .nop := by intro a h; cases h
theorem clear : Statement .clear := by intro a h; cases h
theorem lutWrite : Statement .lutWrite := by intro a h; cases h
theorem lutRead : Statement .lutRead := by intro a h; cases h
theorem lutBuild : Statement .lutBuild := by intro a h; cases h
theorem treeLoad : Statement .treeLoad := by intro a h; cases h
theorem treeStore : Statement .treeStore := by intro a h; cases h
theorem encode : Statement .encode := by intro a h; cases h
theorem readBit : Statement .readBit := by intro a h; cases h
theorem brDiscard : Statement .brDiscard := by intro a h; cases h
theorem magicCheck : Statement .magicCheck := by intro a h; cases h
theorem decode : Statement .decode := by intro a h; cases h
theorem decodeStream : Statement .decodeStream := by intro a h; cases h
theorem reserved (w : Word) : Statement (.reserved w) := by intro a h; cases h
theorem rdCmd : Statement .rdCmd := by intro a h; cases h; rfl
theorem wrCmd (w : Word) : Statement (.wrCmd w) := by intro a h; cases h; exact write_aligned rfl w
theorem rdStatus : Statement .rdStatus := by intro a h; cases h; rfl
theorem wrStatus (w : Word) : Statement (.wrStatus w) := by intro a h; cases h; exact write_aligned rfl w
theorem rdErrcode : Statement .rdErrcode := by intro a h; cases h; rfl
theorem wrErrcode (w : Word) : Statement (.wrErrcode w) := by intro a h; cases h; exact write_aligned rfl w
theorem rdErrpos : Statement .rdErrpos := by intro a h; cases h; rfl
theorem wrErrpos (w : Word) : Statement (.wrErrpos w) := by intro a h; cases h; exact write_aligned rfl w
theorem rdCtrl : Statement .rdCtrl := by intro a h; cases h; rfl
theorem wrCtrl (w : Word) : Statement (.wrCtrl w) := by intro a h; cases h; exact write_aligned rfl w
theorem rdIrqStatus : Statement .rdIrqStatus := by intro a h; cases h; rfl
theorem wrIrqStatus (w : Word) : Statement (.wrIrqStatus w) := by intro a h; cases h; exact write_aligned rfl w
theorem rdTreeSize : Statement .rdTreeSize := by intro a h; cases h; rfl
theorem wrTreeSize (w : Word) : Statement (.wrTreeSize w) := by intro a h; cases h; exact write_aligned rfl w
theorem rdFileSizeLo : Statement .rdFileSizeLo := by intro a h; cases h; rfl
theorem wrFileSizeLo (w : Word) : Statement (.wrFileSizeLo w) := by intro a h; cases h; exact write_aligned rfl w
theorem rdFileSizeHi : Statement .rdFileSizeHi := by intro a h; cases h; rfl
theorem wrFileSizeHi (w : Word) : Statement (.wrFileSizeHi w) := by intro a h; cases h; exact write_aligned rfl w
theorem rdHdrMagic : Statement .rdHdrMagic := by intro a h; cases h; rfl
theorem wrHdrMagic (w : Word) : Statement (.wrHdrMagic w) := by intro a h; cases h; exact write_aligned rfl w
theorem rdSymcountLo : Statement .rdSymcountLo := by intro a h; cases h; rfl
theorem wrSymcountLo (w : Word) : Statement (.wrSymcountLo w) := by intro a h; cases h; exact write_aligned rfl w
theorem rdSymcountHi : Statement .rdSymcountHi := by intro a h; cases h; rfl
theorem wrSymcountHi (w : Word) : Statement (.wrSymcountHi w) := by intro a h; cases h; exact write_aligned rfl w
theorem rdOutbytesLo : Statement .rdOutbytesLo := by intro a h; cases h; rfl
theorem wrOutbytesLo (w : Word) : Statement (.wrOutbytesLo w) := by intro a h; cases h; exact write_aligned rfl w
theorem rdOutbytesHi : Statement .rdOutbytesHi := by intro a h; cases h; rfl
theorem wrOutbytesHi (w : Word) : Statement (.wrOutbytesHi w) := by intro a h; cases h; exact write_aligned rfl w
theorem rdTreeInfo : Statement .rdTreeInfo := by intro a h; cases h; rfl
theorem wrTreeInfo (w : Word) : Statement (.wrTreeInfo w) := by intro a h; cases h; exact write_aligned rfl w
theorem rdDecState : Statement .rdDecState := by intro a h; cases h; rfl
theorem wrDecState (w : Word) : Statement (.wrDecState w) := by intro a h; cases h; exact write_aligned rfl w
theorem rdBrState : Statement .rdBrState := by intro a h; cases h; rfl
theorem wrBrState (w : Word) : Statement (.wrBrState w) := by intro a h; cases h; exact write_aligned rfl w
theorem rdBitResult : Statement .rdBitResult := by intro a h; cases h; rfl
theorem wrBitResult (w : Word) : Statement (.wrBitResult w) := by intro a h; cases h; exact write_aligned rfl w
theorem rdLutSym : Statement .rdLutSym := by intro a h; cases h; rfl
theorem wrLutSym (w : Word) : Statement (.wrLutSym w) := by intro a h; cases h; exact write_aligned rfl w
theorem rdLutLen : Statement .rdLutLen := by intro a h; cases h; rfl
theorem wrLutLen (w : Word) : Statement (.wrLutLen w) := by intro a h; cases h; exact write_aligned rfl w
theorem rdLutBits0 : Statement .rdLutBits0 := by intro a h; cases h; rfl
theorem wrLutBits0 (w : Word) : Statement (.wrLutBits0 w) := by intro a h; cases h; exact write_aligned rfl w
theorem rdLutBits1 : Statement .rdLutBits1 := by intro a h; cases h; rfl
theorem wrLutBits1 (w : Word) : Statement (.wrLutBits1 w) := by intro a h; cases h; exact write_aligned rfl w
theorem rdLutBits2 : Statement .rdLutBits2 := by intro a h; cases h; rfl
theorem wrLutBits2 (w : Word) : Statement (.wrLutBits2 w) := by intro a h; cases h; exact write_aligned rfl w
theorem rdLutBits3 : Statement .rdLutBits3 := by intro a h; cases h; rfl
theorem wrLutBits3 (w : Word) : Statement (.wrLutBits3 w) := by intro a h; cases h; exact write_aligned rfl w
theorem rdLutBits4 : Statement .rdLutBits4 := by intro a h; cases h; rfl
theorem wrLutBits4 (w : Word) : Statement (.wrLutBits4 w) := by intro a h; cases h; exact write_aligned rfl w
theorem rdLutBits5 : Statement .rdLutBits5 := by intro a h; cases h; rfl
theorem wrLutBits5 (w : Word) : Statement (.wrLutBits5 w) := by intro a h; cases h; exact write_aligned rfl w
theorem rdLutBits6 : Statement .rdLutBits6 := by intro a h; cases h; rfl
theorem wrLutBits6 (w : Word) : Statement (.wrLutBits6 w) := by intro a h; cases h; exact write_aligned rfl w
theorem rdLutBits7 : Statement .rdLutBits7 := by intro a h; cases h; rfl
theorem wrLutBits7 (w : Word) : Statement (.wrLutBits7 w) := by intro a h; cases h; exact write_aligned rfl w
theorem rdInData : Statement .rdInData := by intro a h; cases h; rfl
theorem wrInData (w : Word) : Statement (.wrInData w) := by intro a h; cases h; exact write_aligned rfl w
theorem rdInCtrl : Statement .rdInCtrl := by intro a h; cases h; rfl
theorem wrInCtrl (w : Word) : Statement (.wrInCtrl w) := by intro a h; cases h; exact write_aligned rfl w
theorem rdOutData : Statement .rdOutData := by intro a h; cases h; rfl
theorem wrOutData (w : Word) : Statement (.wrOutData w) := by intro a h; cases h; exact write_aligned rfl w
theorem rdFifoStatus : Statement .rdFifoStatus := by intro a h; cases h; rfl
theorem wrFifoStatus (w : Word) : Statement (.wrFifoStatus w) := by intro a h; cases h; exact write_aligned rfl w
theorem rdNodeAddr : Statement .rdNodeAddr := by intro a h; cases h; rfl
theorem wrNodeAddr (w : Word) : Statement (.wrNodeAddr w) := by intro a h; cases h; exact write_aligned rfl w
theorem rdNodeData : Statement .rdNodeData := by intro a h; cases h; rfl
theorem wrNodeData (w : Word) : Statement (.wrNodeData w) := by intro a h; cases h; exact write_aligned rfl w
theorem rd0x88 : Statement .rd0x88 := by intro a h; cases h; rfl
theorem wr0x88 (w : Word) : Statement (.wr0x88 w) := by intro a h; cases h; exact write_aligned rfl w
theorem rd0x8C : Statement .rd0x8C := by intro a h; cases h; rfl
theorem wr0x8C (w : Word) : Statement (.wr0x8C w) := by intro a h; cases h; exact write_aligned rfl w
theorem rd0x90 : Statement .rd0x90 := by intro a h; cases h; rfl
theorem wr0x90 (w : Word) : Statement (.wr0x90 w) := by intro a h; cases h; exact write_aligned rfl w
theorem rd0x94 : Statement .rd0x94 := by intro a h; cases h; rfl
theorem wr0x94 (w : Word) : Statement (.wr0x94 w) := by intro a h; cases h; exact write_aligned rfl w
theorem rd0x98 : Statement .rd0x98 := by intro a h; cases h; rfl
theorem wr0x98 (w : Word) : Statement (.wr0x98 w) := by intro a h; cases h; exact write_aligned rfl w
theorem rd0x9C : Statement .rd0x9C := by intro a h; cases h; rfl
theorem wr0x9C (w : Word) : Statement (.wr0x9C w) := by intro a h; cases h; exact write_aligned rfl w
theorem rd0xA0 : Statement .rd0xA0 := by intro a h; cases h; rfl
theorem wr0xA0 (w : Word) : Statement (.wr0xA0 w) := by intro a h; cases h; exact write_aligned rfl w
theorem rd0xA4 : Statement .rd0xA4 := by intro a h; cases h; rfl
theorem wr0xA4 (w : Word) : Statement (.wr0xA4 w) := by intro a h; cases h; exact write_aligned rfl w
theorem rd0xA8 : Statement .rd0xA8 := by intro a h; cases h; rfl
theorem wr0xA8 (w : Word) : Statement (.wr0xA8 w) := by intro a h; cases h; exact write_aligned rfl w
theorem rd0xAC : Statement .rd0xAC := by intro a h; cases h; rfl
theorem wr0xAC (w : Word) : Statement (.wr0xAC w) := by intro a h; cases h; exact write_aligned rfl w
theorem rd0xB0 : Statement .rd0xB0 := by intro a h; cases h; rfl
theorem wr0xB0 (w : Word) : Statement (.wr0xB0 w) := by intro a h; cases h; exact write_aligned rfl w
theorem rd0xB4 : Statement .rd0xB4 := by intro a h; cases h; rfl
theorem wr0xB4 (w : Word) : Statement (.wr0xB4 w) := by intro a h; cases h; exact write_aligned rfl w
theorem rd0xB8 : Statement .rd0xB8 := by intro a h; cases h; rfl
theorem wr0xB8 (w : Word) : Statement (.wr0xB8 w) := by intro a h; cases h; exact write_aligned rfl w
theorem rd0xBC : Statement .rd0xBC := by intro a h; cases h; rfl
theorem wr0xBC (w : Word) : Statement (.wr0xBC w) := by intro a h; cases h; exact write_aligned rfl w
theorem rd0xC0 : Statement .rd0xC0 := by intro a h; cases h; rfl
theorem wr0xC0 (w : Word) : Statement (.wr0xC0 w) := by intro a h; cases h; exact write_aligned rfl w
theorem rd0xC4 : Statement .rd0xC4 := by intro a h; cases h; rfl
theorem wr0xC4 (w : Word) : Statement (.wr0xC4 w) := by intro a h; cases h; exact write_aligned rfl w
theorem rd0xC8 : Statement .rd0xC8 := by intro a h; cases h; rfl
theorem wr0xC8 (w : Word) : Statement (.wr0xC8 w) := by intro a h; cases h; exact write_aligned rfl w
theorem rd0xCC : Statement .rd0xCC := by intro a h; cases h; rfl
theorem wr0xCC (w : Word) : Statement (.wr0xCC w) := by intro a h; cases h; exact write_aligned rfl w
theorem rd0xD0 : Statement .rd0xD0 := by intro a h; cases h; rfl
theorem wr0xD0 (w : Word) : Statement (.wr0xD0 w) := by intro a h; cases h; exact write_aligned rfl w
theorem rd0xD4 : Statement .rd0xD4 := by intro a h; cases h; rfl
theorem wr0xD4 (w : Word) : Statement (.wr0xD4 w) := by intro a h; cases h; exact write_aligned rfl w
theorem rd0xD8 : Statement .rd0xD8 := by intro a h; cases h; rfl
theorem wr0xD8 (w : Word) : Statement (.wr0xD8 w) := by intro a h; cases h; exact write_aligned rfl w
theorem rd0xDC : Statement .rd0xDC := by intro a h; cases h; rfl
theorem wr0xDC (w : Word) : Statement (.wr0xDC w) := by intro a h; cases h; exact write_aligned rfl w
theorem rd0xE0 : Statement .rd0xE0 := by intro a h; cases h; rfl
theorem wr0xE0 (w : Word) : Statement (.wr0xE0 w) := by intro a h; cases h; exact write_aligned rfl w
theorem rd0xE4 : Statement .rd0xE4 := by intro a h; cases h; rfl
theorem wr0xE4 (w : Word) : Statement (.wr0xE4 w) := by intro a h; cases h; exact write_aligned rfl w
theorem rd0xE8 : Statement .rd0xE8 := by intro a h; cases h; rfl
theorem wr0xE8 (w : Word) : Statement (.wr0xE8 w) := by intro a h; cases h; exact write_aligned rfl w
theorem rd0xEC : Statement .rd0xEC := by intro a h; cases h; rfl
theorem wr0xEC (w : Word) : Statement (.wr0xEC w) := by intro a h; cases h; exact write_aligned rfl w
theorem rd0xF0 : Statement .rd0xF0 := by intro a h; cases h; rfl
theorem wr0xF0 (w : Word) : Statement (.wr0xF0 w) := by intro a h; cases h; exact write_aligned rfl w
theorem rd0xF4 : Statement .rd0xF4 := by intro a h; cases h; rfl
theorem wr0xF4 (w : Word) : Statement (.wr0xF4 w) := by intro a h; cases h; exact write_aligned rfl w
theorem rd0xF8 : Statement .rd0xF8 := by intro a h; cases h; rfl
theorem wr0xF8 (w : Word) : Statement (.wr0xF8 w) := by intro a h; cases h; exact write_aligned rfl w
theorem rd0xFC : Statement .rd0xFC := by intro a h; cases h; rfl
theorem wr0xFC (w : Word) : Statement (.wr0xFC w) := by intro a h; cases h; exact write_aligned rfl w

end Sys2Proof.Laws.EncodeAligned
end

