-- ==== Sys2Proof/Laws/TreeLoad.lean ====
section
/-! SUPPORT. TREE_LOAD's steps: everything a tag or a symbol byte can lead to (42_tree_codec.md R262), and the token stream
of a whole tree read in one run. -/

namespace Sys2Proof.Machine

theorem treeTagStep_cases (loaded : State → State) (k : Nat) (s : State) :
    (s.inq = [] ∧ s.inEos = false ∧ treeTagStep loaded k s = s) ∨
    (s.inq = [] ∧ s.inEos = true ∧ treeTagStep loaded k s = raise .treeEos (treePos k) s) ∨
    ∃ b q, s.inq = b :: q ∧
      ((b = tokenLeaf ∧ k + 1 = s.treeLen ∧
          treeTagStep loaded k s = raise .treeLeafTruncated (treePos k) { s with inq := q }) ∨
       (b = tokenLeaf ∧ k + 1 ≠ s.treeLen ∧ treeTagStep loaded k s = atPoint (.treeSym k) { s with inq := q }) ∨
       (b = tokenInterior ∧ s.sp < 2 ∧
          treeTagStep loaded k s = raise .treeStackUnderflow (treePos k) { s with inq := q, stk := [] }) ∨
       (∃ r l rest, b = tokenInterior ∧ s.stk = r :: l :: rest ∧
          ((s.nodeCount = nodeCap ∧
              treeTagStep loaded k s = raise .treeNodeOverflow (treePos k) { s with inq := q, stk := rest }) ∨
           (s.nodeCount ≠ nodeCap ∧ rest.length = stackCap ∧
              treeTagStep loaded k s = raise .treeStackOverflow (treePos k)
                { s with inq := q, stk := rest, arena := s.arena ++ [Node.mkInterior l r] }) ∨
           (s.nodeCount ≠ nodeCap ∧ rest.length ≠ stackCap ∧
              treeTagStep loaded k s = treeLoadLoop loaded (k + 1) { s with
                inq := q, stk := BitVec.ofNat 9 s.nodeCount :: rest,
                arena := s.arena ++ [Node.mkInterior l r] }))) ∨
       (b ≠ tokenLeaf ∧ b ≠ tokenInterior ∧
          treeTagStep loaded k s = raise .treeBadToken (treePos k) { s with inq := q })) := by
  unfold treeTagStep
  rcases onInPop_cases s (raise .treeEos (treePos k)) (fun t s =>
    if t = tokenLeaf then
      if k + 1 = s.treeLen then raise .treeLeafTruncated (treePos k) s else atPoint (.treeSym k) s
    else if t = tokenInterior then treeInterior loaded k s
    else raise .treeBadToken (treePos k) s) with ⟨b, q, h, e⟩ | ⟨h, he, e⟩ | ⟨h, he, e⟩
  · refine .inr (.inr ⟨b, q, h, ?_⟩)
    rw [e]
    by_cases hL : b = tokenLeaf
    · by_cases hk : k + 1 = s.treeLen
      · exact .inl ⟨hL, hk, by rw [if_pos hL, if_pos (by exact hk)]⟩
      · exact .inr (.inl ⟨hL, hk, by rw [if_pos hL, if_neg (by exact hk)]⟩)
    · by_cases hI : b = tokenInterior
      · rw [if_neg hL, if_pos hI]
        unfold treeInterior
        rcases pop_cases k { s with inq := q } (fun r s => pop k s fun l s =>
          alloc (Node.mkInterior l r) k s fun n s => push n k s (treeLoadLoop loaded (k + 1)))
          with ⟨h1, e1⟩ | ⟨r, rest1, h1, e1⟩
        · refine .inr (.inr (.inl ⟨hI, ?_, ?_⟩))
          · have : s.stk = [] := h1
            simp [State.sp, this]
          · rw [e1]
            have : s.stk = [] := h1
            rw [← this]
        · rw [e1]
          rcases pop_cases k { s with inq := q, stk := rest1 } (fun l s =>
            alloc (Node.mkInterior l r) k s fun n s => push n k s (treeLoadLoop loaded (k + 1)))
            with ⟨h2, e2⟩ | ⟨l, rest, h2, e2⟩
          · have h1' : s.stk = r :: rest1 := h1
            have h2' : rest1 = [] := h2
            refine .inr (.inr (.inl ⟨hI, ?_, ?_⟩))
            · simp [State.sp, h1', h2']
            · rw [e2, h2']
          · have h1' : s.stk = r :: l :: rest := by
              have a : s.stk = r :: rest1 := h1
              have b : rest1 = l :: rest := h2
              rw [a, b]
            refine .inr (.inr (.inr (.inl ⟨r, l, rest, hI, h1', ?_⟩)))
            rw [e2]
            rcases alloc_cases (Node.mkInterior l r) k { s with inq := q, stk := rest }
              (fun n s => push n k s (treeLoadLoop loaded (k + 1))) with ⟨h3, e3⟩ | ⟨h3, e3⟩
            · exact .inl ⟨h3, e3⟩
            · refine .inr ?_
              rw [e3]
              rcases push_cases (BitVec.ofNat 9 s.nodeCount) k
                { s with inq := q, stk := rest, arena := s.arena ++ [Node.mkInterior l r] }
                (treeLoadLoop loaded (k + 1)) with ⟨h4, e4⟩ | ⟨h4, e4⟩
              · exact .inl ⟨h3, h4, e4⟩
              · exact .inr ⟨h3, h4, e4⟩
      · exact .inr (.inr (.inr (.inr ⟨hL, hI, by rw [if_neg hL, if_neg hI]⟩)))
  · exact .inr (.inl ⟨h, he, e⟩)
  · exact .inl ⟨h, he, e⟩

theorem treeSymStep_cases (loaded : State → State) (k : Nat) (s : State) :
    (s.inq = [] ∧ s.inEos = false ∧ treeSymStep loaded k s = s) ∨
    (s.inq = [] ∧ s.inEos = true ∧ treeSymStep loaded k s = raise .treeEos (treePos (k + 1)) s) ∨
    ∃ b q, s.inq = b :: q ∧
      ((s.nodeCount = nodeCap ∧
          treeSymStep loaded k s = raise .treeNodeOverflow (treePos k) { s with inq := q }) ∨
       (s.nodeCount ≠ nodeCap ∧ s.sp = stackCap ∧
          treeSymStep loaded k s = raise .treeStackOverflow (treePos k)
            { s with inq := q, arena := s.arena ++ [Node.mkLeaf b] }) ∨
       (s.nodeCount ≠ nodeCap ∧ s.sp ≠ stackCap ∧
          treeSymStep loaded k s = treeLoadLoop loaded (k + 2) { s with
            inq := q, stk := BitVec.ofNat 9 s.nodeCount :: s.stk, arena := s.arena ++ [Node.mkLeaf b] })) := by
  unfold treeSymStep
  rcases onInPop_cases s (raise .treeEos (treePos (k + 1))) (fun b s =>
    alloc (Node.mkLeaf b) k s fun n s => push n k s (treeLoadLoop loaded (k + 2)))
    with ⟨b, q, h, e⟩ | ⟨h, he, e⟩ | ⟨h, he, e⟩
  · refine .inr (.inr ⟨b, q, h, ?_⟩)
    rw [e]
    rcases alloc_cases (Node.mkLeaf b) k { s with inq := q }
      (fun n s => push n k s (treeLoadLoop loaded (k + 2))) with ⟨h3, e3⟩ | ⟨h3, e3⟩
    · exact .inl ⟨h3, e3⟩
    · refine .inr ?_
      rw [e3]
      rcases push_cases (BitVec.ofNat 9 s.nodeCount) k
        { s with inq := q, arena := s.arena ++ [Node.mkLeaf b] }
        (treeLoadLoop loaded (k + 2)) with ⟨h4, e4⟩ | ⟨h4, e4⟩
      · exact .inl ⟨h3, h4, e4⟩
      · exact .inr ⟨h3, h4, e4⟩
  · exact .inr (.inl ⟨h, he, e⟩)
  · exact .inl ⟨h, he, e⟩

/-- The loop head: another token, or the end with one root, or with another number of items. -/
theorem treeLoadLoop_cases (loaded : State → State) (k : Nat) (s : State) :
    (k < s.treeLen ∧ treeLoadLoop loaded k s = atPoint (.treeTag k) s) ∨
    (s.treeLen ≤ k ∧ ∃ r, s.stk = [r] ∧
      treeLoadLoop loaded k s = loaded { s with root := r, stk := [], treeValid := true }) ∨
    (s.treeLen ≤ k ∧ s.sp ≠ 1 ∧
      treeLoadLoop loaded k s = raise .treeNotSingleRoot (BitVec.ofNat 32 s.sp) s) := by
  unfold treeLoadLoop
  split
  · next h => exact .inl ⟨h, rfl⟩
  · next h =>
    rcases treeLoadEnd_cases loaded s with ⟨r, h1, e⟩ | ⟨h1, e⟩
    · exact .inr (.inl ⟨by omega, r, h1, e⟩)
    · exact .inr (.inr ⟨by omega, h1, e⟩)

/-! ### A whole tree -/

/-- TREE_LOAD is latched and `f` is its `finish`, or DECODE_STREAM is and `f` is its decode part. -/
def LoadsThen (f : State → State) (w : Word) : Prop := (w = 0x05 ∧ f = finish) ∨ (w = 0x0C ∧ f = decodeBegin)

theorem step_treeTag {f : State → State} {s : State} {k : Nat} (h : LoadsThen f s.cmdword) (hi : s.inputs = [])
    (he : s.engine = .running (.treeTag k)) : step s = .next (treeTagStep f k s) := by
  rcases h with ⟨h, rfl⟩ | ⟨h, rfl⟩
  · rw [step_command (i := .treeLoad) hi he (by rw [h]; rfl)]
    show Host.Outcome.next (treeLoadStep s) = _
    rw [treeLoadStep_treeTag he]
  · rw [step_command (i := .decodeStream) hi he (by rw [h]; rfl)]
    show Host.Outcome.next (decodeStreamStep s) = _
    rw [decodeStreamStep_treeTag he]

theorem step_treeSym {f : State → State} {s : State} {k : Nat} (h : LoadsThen f s.cmdword) (hi : s.inputs = [])
    (he : s.engine = .running (.treeSym k)) : step s = .next (treeSymStep f k s) := by
  rcases h with ⟨h, rfl⟩ | ⟨h, rfl⟩
  · rw [step_command (i := .treeLoad) hi he (by rw [h]; rfl)]
    show Host.Outcome.next (treeLoadStep s) = _
    rw [treeLoadStep_treeSym he]
  · rw [step_command (i := .decodeStream) hi he (by rw [h]; rfl)]
    show Host.Outcome.next (decodeStreamStep s) = _
    rw [decodeStreamStep_treeSym he]

/-- From the loop head the token stream of a tree that fits puts its nodes on top of the arena and its root on top of the
stack (42_tree_codec.md R262, R264). -/
theorem run_tokens (f : State → State) (t : HuffTree) : ∀ (s : State) (k : Nat) (rest : List Byte), s.inputs = [] →
    LoadsThen f s.cmdword → s.inq = t.tokens ++ rest → k + t.tokens.length ≤ s.treeLen →
    s.arena.length + t.size ≤ 511 → s.stk.length + t.leaves ≤ 256 →
    ∃ n e, steps n (treeLoadLoop f k s) = .next (treeLoadLoop f (k + t.tokens.length) { s with
      inq := rest, arena := s.arena ++ t.nodes s.arena.length,
      stk := BitVec.ofNat 9 (s.arena.length + t.size - 1) :: s.stk, engine := e }) := by
  induction t with
  | leaf c =>
    intro s k rest hi hl hq hk ha hs
    simp only [HuffTree.tokens, List.length_cons, List.length_nil, HuffTree.size, HuffTree.leaves] at hk ha hs
    simp only [HuffTree.tokens, List.cons_append, List.nil_append] at hq
    have e1 : treeLoadLoop f k s = atPoint (.treeTag k) s := by simp [treeLoadLoop, show k < s.treeLen by omega]
    have s1 : step (treeLoadLoop f k s) = .next { s with inq := c :: rest, engine := .running (.treeSym k) } := by
      rw [e1, step_treeTag (f := f) (by exact hl) (by exact hi) rfl]
      simp only [treeTagStep]
      rw [onInPop_byte (s := atPoint (.treeTag k) s) hq, if_pos (show (0x4C : Byte) = tokenLeaf from rfl),
        if_neg (by show ¬ (k + 1 = s.treeLen); omega)]
      rfl
    have s2 : step { s with inq := c :: rest, engine := .running (.treeSym k) } = .next (treeLoadLoop f (k + 2)
        { s with
          inq := rest, arena := s.arena ++ [⟨true, c, 0, 0⟩], stk := BitVec.ofNat 9 (s.arena.length) :: s.stk,
          engine := .running (.treeSym k) }) := by
      rw [step_treeSym (f := f) (k := k) (by exact hl) (by exact hi) rfl]
      simp only [treeSymStep]
      rw [onInPop_byte (b := c) (q := rest) rfl]
      have h1 : s.arena.length ≠ 511 := by omega
      have h2 : s.stk.length ≠ 256 := by omega
      simp [alloc, State.nodeCount, h1, nodeCap, push, State.sp, h2, stackCap, Node.mkLeaf]
    refine ⟨2, .running (.treeSym k), ?_⟩
    rw [steps_succ s1, steps_one, s2]
    simp [HuffTree.tokens, HuffTree.nodes, HuffTree.size]
  | node l r hl' hr' =>
    intro s k rest hi hl hq hk ha hs
    have := l.leaves_pos
    have := r.leaves_pos
    have := l.size_pos
    have := r.size_pos
    simp only [HuffTree.tokens, List.length_append, List.length_cons, List.length_nil, HuffTree.size,
      HuffTree.leaves] at hk ha hs
    simp only [HuffTree.tokens, List.append_assoc] at hq
    obtain ⟨n1, e1, h1⟩ := hl' s k (r.tokens ++ ([0x49] ++ rest)) hi hl hq (by omega) (by omega) (by omega)
    obtain ⟨n2, e2, h2⟩ := hr'
      { s with
        inq := r.tokens ++ ([0x49] ++ rest), arena := s.arena ++ l.nodes s.arena.length,
        stk := BitVec.ofNat 9 (s.arena.length + l.size - 1) :: s.stk, engine := e1 }
      (k + l.tokens.length) ([0x49] ++ rest) hi hl rfl
      (by show k + l.tokens.length + r.tokens.length ≤ s.treeLen; omega) (by simp; omega) (by simp; omega)
    have h3 := steps_trans h1 h2
    simp only [List.length_append, HuffTree.nodes_length] at h3
    have hlt : k + l.tokens.length + r.tokens.length < s.treeLen := by omega
    let s3 : State := { s with
      inq := [0x49] ++ rest, arena := s.arena ++ l.nodes s.arena.length ++ r.nodes (s.arena.length + l.size),
      stk := BitVec.ofNat 9 (s.arena.length + l.size + r.size - 1) ::
        BitVec.ofNat 9 (s.arena.length + l.size - 1) :: s.stk
      engine := e2 }
    have h3' : steps (n1 + n2) (treeLoadLoop f k s) = .next (treeLoadLoop f (k + l.tokens.length + r.tokens.length) s3) := h3
    have e4 : treeLoadLoop f (k + l.tokens.length + r.tokens.length) s3 = atPoint (.treeTag (k + l.tokens.length + r.tokens.length)) s3 := by
      simp only [treeLoadLoop]
      rw [if_pos (by exact hlt)]
    have s4 : step (treeLoadLoop f (k + l.tokens.length + r.tokens.length) s3) = .next (treeLoadLoop f (k + l.tokens.length + r.tokens.length + 1) { s with
        inq := rest
        arena := s.arena ++ l.nodes s.arena.length ++ r.nodes (s.arena.length + l.size) ++
          [⟨false, 0, BitVec.ofNat 9 (s.arena.length + l.size - 1),
            BitVec.ofNat 9 (s.arena.length + l.size + r.size - 1)⟩]
        stk := BitVec.ofNat 9 (s.arena.length + l.size + r.size) :: s.stk, engine := .running (.treeTag (k + l.tokens.length + r.tokens.length)) }) := by
      rw [e4, step_treeTag (f := f) (by exact hl) (by exact hi) rfl]
      simp only [treeTagStep]
      rw [onInPop_byte (s := atPoint _ s3) (b := 0x49) (q := rest) rfl,
        if_neg (show ¬ (0x49 : Byte) = tokenLeaf by decide), if_pos (show (0x49 : Byte) = tokenInterior from rfl)]
      have h1 : s.arena.length + (l.size + r.size) ≠ 511 := by omega
      have h2 : s.stk.length ≠ 256 := by omega
      simp [treeInterior, pop, alloc, State.nodeCount, h1, nodeCap, push, State.sp, h2, stackCap, Node.mkInterior, s3,
        atPoint, Nat.add_assoc]
    refine ⟨(n1 + n2) + 1, .running (.treeTag (k + l.tokens.length + r.tokens.length)), ?_⟩
    rw [steps_trans h3' ((steps_one _).trans s4)]
    simp [HuffTree.tokens, HuffTree.nodes, HuffTree.size, Nat.add_assoc]
    rfl

end Sys2Proof.Machine
end

