-- ==== Sys2Proof/Tests/Slice0.lean ====
section
/-! SUPPORT. The model's own tests: the well-formedness smoke, the decoding of every row of the opcode table, one step
of each kind of instruction with the result 95_test_vectors.md gives, and a witness for the hypotheses of every
statement. -/

namespace Sys2Proof.Tests

open Sys2Proof Sys2Proof.Machine

/-! ## Helpers -/

/-- The reset state with FIFOs of 16 bytes and some MAGIC. -/
def base : State := { State.reset with params := ⟨0x4D414749, 15, 15⟩ }

/-- `base` with the command word `w` latched and its engine at `p`. -/
def running (w : Word) (p : Point) : State := { base with cmdword := w, engine := .running p }

/-- What `f` sees of the next state. -/
def after {α : Type} (f : State → α) : Result → Option α
  | .next t => some (f t)
  | .fault _ => none
  | .refused _ => none

/-- Tree E of 95_test_vectors.md: left FF, right 00. -/
def treeE : HuffTree := .node (.leaf 0xFF) (.leaf 0x00)

/-- Tree A of 95_test_vectors.md. -/
def treeA : HuffTree := .node treeE (.leaf 0x41)

/-- The arena 95_test_vectors.md gives for tree E, and its root. -/
def holdE (s : State) : State :=
  { s with arena := [⟨true, 0xFF, 0, 0⟩, ⟨true, 0x00, 0, 0⟩, ⟨false, 0, 0, 1⟩], root := 2, treeValid := true }

/-- The arena 95_test_vectors.md gives for tree A, and its root. -/
def holdA (s : State) : State :=
  { s with
    arena := [⟨true, 0xFF, 0, 0⟩, ⟨true, 0x00, 0, 0⟩, ⟨false, 0, 0, 1⟩, ⟨true, 0x41, 0, 0⟩, ⟨false, 0, 2, 3⟩]
    root := 4, treeValid := true }

/-- The code table 95_test_vectors.md V41.9 gives for tree A. -/
def codesA (s : State) : State := { s with lut := [(0x00, ⟨2, 2⟩), (0x41, ⟨1, 1⟩), (0xFF, ⟨2, 0⟩)] }

/-! ## Well-formedness -/

/-- 0x05 is TREE_LOAD, not a reserved word (R121, R122). -/
theorem test_wf_refuses_defined_word : (Instr.reserved 0x00000005).wf = false := by decide

/-- 0x0D and 0x105 are reserved words (R122). -/
theorem test_wf_accepts_reserved_words :
    (Instr.reserved 0x0000000D).wf = true ∧ (Instr.reserved 0x00000105).wf = true := by decide

/-! ## Decoding: every row of the opcode table, its word written out -/

/-- The opcode map of R121; one reserved word. -/
theorem test_decode_commands : [
    0x00, 0x01, 0x02, 0x03, 0x04, 0x05, 0x06, 0x07, 0x08, 0x09, 0x0A, 0x0B, 0x0C, 0x0D].map (decodeTableWord 32) = [
      some .nop, some .clear, some .lutWrite, some .lutRead, some .lutBuild, some .treeLoad, some .treeStore,
      some .encode, some .readBit, some .brDiscard, some .magicCheck, some .decode, some .decodeStream,
      some (.reserved 0x0D)] := by
  decide

/-- Reads 0x00 to 0x3C: TW of R123, rows of opcode_table.json. -/
theorem test_decode_reads_00 : [
    0x000, 0x004, 0x008, 0x00C, 0x010, 0x014, 0x018, 0x01C, 0x020, 0x024, 0x028, 0x02C, 0x030,
    0x034, 0x038, 0x03C].map (decodeTableWord 16) = [
      some .rdCmd, some .rdStatus, some .rdErrcode, some .rdErrpos, some .rdCtrl, some .rdIrqStatus,
      some .rdTreeSize, some .rdFileSizeLo, some .rdFileSizeHi, some .rdHdrMagic, some .rdSymcountLo,
      some .rdSymcountHi, some .rdOutbytesLo, some .rdOutbytesHi, some .rdTreeInfo, some .rdDecState] := by
  decide

/-- Reads 0x40 to 0x7C: TW of R123, rows of opcode_table.json. -/
theorem test_decode_reads_40 : [
    0x040, 0x044, 0x048, 0x04C, 0x050, 0x054, 0x058, 0x05C, 0x060, 0x064, 0x068, 0x06C, 0x070,
    0x074, 0x078, 0x07C].map (decodeTableWord 16) = [
      some .rdBrState, some .rdBitResult, some .rdLutSym, some .rdLutLen, some .rdLutBits0, some .rdLutBits1,
      some .rdLutBits2, some .rdLutBits3, some .rdLutBits4, some .rdLutBits5, some .rdLutBits6,
      some .rdLutBits7, some .rdInData, some .rdInCtrl, some .rdOutData, some .rdFifoStatus] := by
  decide

/-- Reads 0x80 to 0xBC: TW of R123, rows of opcode_table.json. -/
theorem test_decode_reads_80 : [
    0x080, 0x084, 0x088, 0x08C, 0x090, 0x094, 0x098, 0x09C, 0x0A0, 0x0A4, 0x0A8, 0x0AC, 0x0B0,
    0x0B4, 0x0B8, 0x0BC].map (decodeTableWord 16) = [
      some .rdNodeAddr, some .rdNodeData, some .rd0x88, some .rd0x8C, some .rd0x90, some .rd0x94, some .rd0x98,
      some .rd0x9C, some .rd0xA0, some .rd0xA4, some .rd0xA8, some .rd0xAC, some .rd0xB0, some .rd0xB4,
      some .rd0xB8, some .rd0xBC] := by
  decide

/-- Reads 0xC0 to 0xFC: TW of R123, rows of opcode_table.json. -/
theorem test_decode_reads_C0 : [
    0x0C0, 0x0C4, 0x0C8, 0x0CC, 0x0D0, 0x0D4, 0x0D8, 0x0DC, 0x0E0, 0x0E4, 0x0E8, 0x0EC, 0x0F0,
    0x0F4, 0x0F8, 0x0FC].map (decodeTableWord 16) = [
      some .rd0xC0, some .rd0xC4, some .rd0xC8, some .rd0xCC, some .rd0xD0, some .rd0xD4, some .rd0xD8,
      some .rd0xDC, some .rd0xE0, some .rd0xE4, some .rd0xE8, some .rd0xEC, some .rd0xF0, some .rd0xF4,
      some .rd0xF8, some .rd0xFC] := by
  decide

/-- Writes 0x00 to 0x3C: TW of R123, rows of opcode_table.json. -/
theorem test_decode_writes_00 : [
    0x100, 0x104, 0x108, 0x10C, 0x110, 0x114, 0x118, 0x11C, 0x120, 0x124, 0x128, 0x12C, 0x130,
    0x134, 0x138, 0x13C].map (decodeTableWord 16) = [
      some (.wrCmd 0), some (.wrStatus 0), some (.wrErrcode 0), some (.wrErrpos 0), some (.wrCtrl 0),
      some (.wrIrqStatus 0), some (.wrTreeSize 0), some (.wrFileSizeLo 0), some (.wrFileSizeHi 0),
      some (.wrHdrMagic 0), some (.wrSymcountLo 0), some (.wrSymcountHi 0), some (.wrOutbytesLo 0),
      some (.wrOutbytesHi 0), some (.wrTreeInfo 0), some (.wrDecState 0)] := by
  decide

/-- Writes 0x40 to 0x7C: TW of R123, rows of opcode_table.json. -/
theorem test_decode_writes_40 : [
    0x140, 0x144, 0x148, 0x14C, 0x150, 0x154, 0x158, 0x15C, 0x160, 0x164, 0x168, 0x16C, 0x170,
    0x174, 0x178, 0x17C].map (decodeTableWord 16) = [
      some (.wrBrState 0), some (.wrBitResult 0), some (.wrLutSym 0), some (.wrLutLen 0), some (.wrLutBits0 0),
      some (.wrLutBits1 0), some (.wrLutBits2 0), some (.wrLutBits3 0), some (.wrLutBits4 0),
      some (.wrLutBits5 0), some (.wrLutBits6 0), some (.wrLutBits7 0), some (.wrInData 0), some (.wrInCtrl 0),
      some (.wrOutData 0), some (.wrFifoStatus 0)] := by
  decide

/-- Writes 0x80 to 0xBC: TW of R123, rows of opcode_table.json. -/
theorem test_decode_writes_80 : [
    0x180, 0x184, 0x188, 0x18C, 0x190, 0x194, 0x198, 0x19C, 0x1A0, 0x1A4, 0x1A8, 0x1AC, 0x1B0,
    0x1B4, 0x1B8, 0x1BC].map (decodeTableWord 16) = [
      some (.wrNodeAddr 0), some (.wrNodeData 0), some (.wr0x88 0), some (.wr0x8C 0), some (.wr0x90 0),
      some (.wr0x94 0), some (.wr0x98 0), some (.wr0x9C 0), some (.wr0xA0 0), some (.wr0xA4 0),
      some (.wr0xA8 0), some (.wr0xAC 0), some (.wr0xB0 0), some (.wr0xB4 0), some (.wr0xB8 0), some (.wr0xBC 0)] := by
  decide

/-- Writes 0xC0 to 0xFC: TW of R123, rows of opcode_table.json. -/
theorem test_decode_writes_C0 : [
    0x1C0, 0x1C4, 0x1C8, 0x1CC, 0x1D0, 0x1D4, 0x1D8, 0x1DC, 0x1E0, 0x1E4, 0x1E8, 0x1EC, 0x1F0,
    0x1F4, 0x1F8, 0x1FC].map (decodeTableWord 16) = [
      some (.wr0xC0 0), some (.wr0xC4 0), some (.wr0xC8 0), some (.wr0xCC 0), some (.wr0xD0 0),
      some (.wr0xD4 0), some (.wr0xD8 0), some (.wr0xDC 0), some (.wr0xE0 0), some (.wr0xE4 0),
      some (.wr0xE8 0), some (.wr0xEC 0), some (.wr0xF0 0), some (.wr0xF4 0), some (.wr0xF8 0), some (.wr0xFC 0)] := by
  decide

/-- A write to 0x18 with WDATA carries it; a command word with RSVD ≠ 0 is reserved (R122, R123). -/
theorem test_decode_operands :
    (decodeAccess (.write 0x18 0x00012345)).toOption = some (.wrTreeSize 0x00012345) ∧
      decodeCommand 0x00000105 = .reserved 0x00000105 := by decide

/-- ADDR[1:0] ≠ 0 is no instruction (R86). -/
theorem test_decode_misaligned :
    decodeAccess (.read 0x01) = .error (.misaligned 0x01) ∧ decodeAccess (.write 0x7A 0) = .error (.misaligned 0x7A) := by
  decide

/-! ## One step of each instruction -/

/-- V40.1: what each register reads as after reset. -/
theorem test_reset_reads : [
    Instr.rdStatus, .rdFifoStatus, .rdBrState, .rdTreeInfo, .rdDecState, .rdErrcode, .rdErrpos, .rdSymcountLo,
    .rdSymcountHi, .rdOutbytesLo, .rdOutbytesHi].map (fun i => after State.rdata (exec i base)) =
    [some 0, some 0, some 0x800, some 0, some 0, some 0, some 0, some 0, some 0, some 0, some 0] := by
  decide

/-- V40.2: write-only registers and unmapped words read 0. -/
theorem test_reads_of_zero : [Instr.rdCmd, .rdInData, .rdInCtrl, .rd0x88, .rd0xFC].map
    (fun i => after State.rdata (exec i { base with rdata := 7 })) = [some 0, some 0, some 0, some 0, some 0] := by
  decide

/-- V40.3: STATUS cannot be written; nor can an unmapped word. -/
theorem test_writes_ignored :
    exec (.wrStatus 0xFFFFFFFF) base = .next base ∧ exec (.wr0x88 0xFFFFFFFF) base = .next base := by
  exact ⟨rfl, rfl⟩

/-- V40.4. -/
theorem test_wrTreeSize : after State.treeSize (exec (.wrTreeSize 0x12345) base) = some 0x2345 := by decide

/-- V40.5. -/
theorem test_wrLutLen : after State.lutLen (exec (.wrLutLen 0x3FF) base) = some 0x1FF := by decide

/-- R40, R84: FILE_SIZE_HI is the high half. -/
theorem test_wrFileSize :
    after State.fileSize (exec (.wrFileSizeHi 2) { base with fileSizeLo := 5 }) = some 0x200000005 := by decide

/-- R48: LUT_BITS1 bit 0 is code bit 32, and the other words stay. -/
theorem test_wrLutBits1 :
    after State.lutBits (exec (.wrLutBits1 1) { base with lutBits := BitVec.allOnes 256 }) =
      some (BitVec.ofNat 256 (2 ^ 256 - 2 ^ 64 + 2 ^ 32 + (2 ^ 32 - 1))) := by decide

/-- R48: LUT_BITS7 is bits 255 to 224 (V41.12: bit 254 shows as 0x40000000). -/
theorem test_rdLutBits7 :
    after State.rdata (exec .rdLutBits7 { base with lutBits := BitVec.ofNat 256 (2 ^ 254) }) = some 0x40000000 := by
  decide

/-- R48: the high bits of LUT_SYM's word are dropped. -/
theorem test_wrLutSym : after State.lutSym (exec (.wrLutSym 0x1FE) base) = some 0xFE := by decide

/-- V40.7, V40.8. -/
theorem test_interrupt_registers :
    after State.irq (exec (.wrCtrl 1) { base with irqPend := true }) = some true ∧
      after State.irqPend (exec (.wrIrqStatus 0) { base with irqPend := true }) = some true ∧
      after State.irqPend (exec (.wrIrqStatus 1) { base with irqPend := true }) = some false ∧
      after State.rdata (exec .rdIrqStatus { base with irqPend := true }) = some 1 := by decide

/-- V40.9: the fifth byte into a FIFO of 4 is dropped; V40.10: a byte after end of stream too. -/
theorem test_wrInData_dropped :
    after (fun t => (t.inq, t.inOvf)) (exec (.wrInData 5) { base with params := ⟨0, 3, 15⟩, inq := [1, 2, 3, 4] }) =
        some ([1, 2, 3, 4], true) ∧
      after (fun t => (t.inq, t.inOvf)) (exec (.wrInData 1) { base with inEos := true }) = some ([], true) := by
  decide

/-- R177: the low byte goes to the end. -/
theorem test_wrInData_pushed :
    after (fun t => (t.inq, t.inOvf)) (exec (.wrInData 0x105) { base with inq := [1] }) = some ([1, 5], false) := by
  decide

/-- V40.11: CLR_EOS and SET_EOS together; V40.15: FLUSH_IN while busy. -/
theorem test_wrInCtrl :
    after State.inEos (exec (.wrInCtrl 3) { base with inEos := true }) = some true ∧
      after State.inq (exec (.wrInCtrl 4) { running 7 .encIn with inq := [1] }) = some [1] := by decide

/-- P5: FLUSH_OUT empties OUTQ and clears OUT_INVALID. -/
theorem test_wrInCtrl_flush_out :
    after (fun t => (t.outq, t.outInvalid)) (exec (.wrInCtrl 8) { base with outq := [1, 2], outInvalid := true }) =
      some ([], false) := by decide

/-- V40.12, and a pop of P1: 0x41 reads as 0x141. -/
theorem test_rdOutData :
    after State.rdata (exec .rdOutData base) = some 0 ∧
      after (fun t => (t.rdata, t.outq)) (exec .rdOutData { base with outq := [0x41, 0x42] }) =
        some (0x141, [0x42]) := by decide

/-- V40.13: STATUS of a blocked ENCODE; V40.18: STATUS of a blocked TREE_STORE. -/
theorem test_rdStatus :
    after State.rdata (exec .rdStatus (running 7 .encIn)) = some 0x00070101 ∧
      after State.rdata (exec .rdStatus { running 6 (.treeOut 0xFF []) with
        params := ⟨0, 15, 0⟩, treeValid := true, outq := [0x4C] }) = some 0x00060209 := by decide

/-- V40.14: a command while busy is dropped. -/
theorem test_wrCmd_busy :
    exec (.wrCmd 0) (running 7 .encIn) = .next { running 7 .encIn with cmdOvr := true } := by rfl

/-- R175: acceptance clears DONE, ERR, ERRCODE, ERRPOS and OUTBYTES. -/
theorem test_wrCmd_accepted :
    after (fun t => (t.curOp, t.busy, t.done, t.err, t.errcode, t.outbytes))
      (exec (.wrCmd 0x105) { base with err := true, errcode := .lutMiss, outbytes := 9 }) =
      some (0x05, true, false, false, .none, 0) := by decide

/-- V40.18: FIFO_STATUS is {OUT_LEVEL, IN_LEVEL}. -/
theorem test_rdFifoStatus :
    after State.rdata (exec .rdFifoStatus { base with outq := [1], inq := [2, 3] }) = some 0x00010002 := by
  decide

/-- The NODE_DATA column of tree A, and 0 at NODE_COUNT. -/
theorem test_rdNodeData : [0, 1, 2, 3, 4, 5].map
    (fun a => after State.rdata (exec .rdNodeData { holdA base with nodeAddr := a })) =
    [some 0x83FC0000, some 0x80000000, some 0x00000200, some 0x81040000, some 0x00000602, some 0] := by
  decide

/-- V40.20: NODE_ADDR keeps 9 bits. -/
theorem test_wrNodeAddr : after State.nodeAddr (exec (.wrNodeAddr 0x3FF) base) = some 0x1FF := by decide

/-- TREE_INFO of tree A; DEC_STATE and BR_STATE after V45.1. -/
theorem test_engine_owned_reads :
    after State.rdata (exec .rdTreeInfo (holdA base)) = some 0x00040005 ∧
      after State.rdata (exec .rdDecState { base with cur := 4, dstate := .done }) = some 0x00040002 ∧
      after State.rdata (exec .rdBrState { base with brPos := 5, brByte := 0x06 }) = some 0x506 ∧
      after State.rdata (exec .rdBitResult { base with bitEos := true }) = some 0x2 := by decide

/-- R84: SYMCOUNT_HI is bits 63 to 32. -/
theorem test_rdSymcountHi :
    after State.rdata (exec .rdSymcountHi { base with symcount := 0x500000003 }) = some 5 := by decide

/-- V40.6. -/
theorem test_nop :
    after (fun t => (t.statusWord, t.irqPend, t.irq)) (exec .nop (running 0 .start)) = some (2, true, false) := by
  decide

/-- V40.17: CLEAR keeps IN_EOS, clears CMD_OVR, and BR_STATE is 0x800. -/
theorem test_clear :
    after (fun t => (t.statusWord, t.brStateWord, t.nodeCount))
      (exec .clear { holdE (running 1 .start) with inEos := true, cmdOvr := true, brByte := 3 }) =
      some (0x00010082, 0x800, 0) := by decide

/-- V60.2: the whole word is ERRPOS; no byte is taken. -/
theorem test_reserved :
    after (fun t => (t.errcode.code, t.errpos, t.statusWord, t.inq))
      (exec (.reserved 0x105) { running 0x105 .start with treeSize := 1, inq := [0x4C] }) =
      some (0x01, 0x105, 0x00050004, [0x4C]) := by decide

/-- V41.1, V41.6: the bits above LEN are cleared; LEN 0 removes the code. -/
theorem test_lutWrite :
    after State.lut (exec .lutWrite { running 2 .start with lutSym := 0x41, lutLen := 1, lutBits := 0xFFFFFFFF }) =
        some [(0x41, ⟨1, 1⟩)] ∧
      after State.lut (exec .lutWrite { running 2 .start with lutSym := 0x41, lut := [(0x41, ⟨1, 1⟩)] }) = some [] := by
  decide

/-- V41.4. -/
theorem test_lutWrite_bad_len :
    after (fun t => (t.errcode.code, t.errpos, t.lut))
      (exec .lutWrite { running 2 .start with lutSym := 0x20, lutLen := 257 }) = some (0x0E, 0x101, []) := by
  decide

/-- P2: LUT_READ of symbol 00 with tree A's codes. -/
theorem test_lutRead :
    after (fun t => (t.lutLen, t.lutBits)) (exec .lutRead (codesA (running 3 .start))) = some (2, 2) := by
  decide

/-- V41.9. -/
theorem test_lutBuild :
    after State.lut (exec .lutBuild (holdA (running 4 .start))) =
      some [(0x00, ⟨2, 2⟩), (0x41, ⟨1, 1⟩), (0xFF, ⟨2, 0⟩)] := by decide

/-- V41.7, V41.10. -/
theorem test_lutBuild_errors :
    after (fun t => t.errcode.code) (exec .lutBuild (running 4 .start)) = some 0x0A ∧
      after (fun t => t.errcode.code)
        (exec .lutBuild { running 4 .start with arena := [⟨true, 0x41, 0, 0⟩], treeValid := true }) = some 0x0B := by
  decide

/-- V42.1, last byte: the Interior token that completes tree E. -/
theorem test_treeLoad :
    after (fun t => (t.statusWord, t.arena, t.root, t.nodeCount))
      (exec .treeLoad { running 5 (.treeTag 4) with
        treeSize := 5, inq := [0x49], stk := [1, 0], arena := [⟨true, 0xFF, 0, 0⟩, ⟨true, 0x00, 0, 0⟩] }) =
      some (0x0005000A, (holdE base).arena, 2, 3) := by decide

/-- V42.2, V42.6, V42.8, last byte each. -/
theorem test_treeLoad_errors :
    after (fun t => (t.errcode.code, t.errpos))
        (exec .treeLoad { running 5 (.treeTag 4) with treeSize := 5, inq := [0x4C], stk := [1, 0] }) =
        some (0x05, 4) ∧
      after (fun t => (t.errcode.code, t.errpos))
        (exec .treeLoad { running 5 (.treeSym 4) with treeSize := 6, inq := [0x41], stk := [1, 0] }) =
        some (0x09, 3) ∧
      after (fun t => (t.errcode.code, t.errpos))
        (exec .treeLoad { running 5 (.treeSym 2) with treeSize := 5, inEos := true, stk := [0] }) =
        some (0x03, 3) := by decide

/-- V42.15: the eight bytes of tree A, the first of which is the next to be pushed. -/
theorem test_treeStore :
    after State.engine (exec .treeStore (holdA (running 6 .start))) =
      some (.running (.treeOut 0x4C [0xFF, 0x4C, 0x00, 0x49, 0x4C, 0x41, 0x49])) := by decide

/-- V42.16. -/
theorem test_treeStore_no_tree :
    after (fun t => (t.errcode.code, t.outbytes)) (exec .treeStore (running 6 .start)) = some (0x0A, 0) := by
  decide

/-- V43.2: after 00 and 41, the code "00" of FF is put at bits 3 and 4 of 06; the flush then writes 06. V43.3: the eighth
41 fills the byte FF. -/
theorem test_encode :
    after (fun t => (t.wbyte, t.wpos, t.symcount))
        (exec .encode (codesA { running 7 .encIn with inq := [0xFF], wbyte := 0x06, wpos := 3, symcount := 2 })) =
        some (0x06, 5, 3) ∧
      after (fun t => (t.outq, t.outbytes, t.statusWord))
        (exec .encode { running 7 .encFlush with inEos := true, wbyte := 0x06, wpos := 5 }) =
        some ([0x06], 1, 0x00070082) ∧
      after (fun t => (t.wbyte, t.engine))
        (exec .encode (codesA { running 7 .encIn with inq := [0x41], wbyte := 0x7F, wpos := 7 })) =
        some (0xFF, .running (.encOut [])) := by decide

/-- V43.7: the ninth byte of the input has no code, after a byte of output. -/
theorem test_encode_miss :
    after (fun t => (t.errcode.code, t.errpos, t.outInvalid, t.wpos))
      (exec .encode (codesA { running 7 .encIn with inq := [0x42], outq := [0xFF], outbytes := 1, wpos := 0 })) =
      some (0x0D, 0x42, true, 0) := by decide

/-- V44.1, first and last READ_BIT; V44.2. -/
theorem test_readBit :
    after (fun t => (t.bitResultWord, t.inq)) (exec .readBit { running 8 .bitIn with inq := [0xA5] }) = some (1, []) ∧
      after (fun t => (t.bitResultWord, t.brStateWord))
        (exec .readBit { running 8 .start with brByte := 0xA5, brPos := 7 }) = some (1, 0x8A5) ∧
      after (fun t => (t.bitResultWord, t.brStateWord, t.err)) (exec .readBit { running 8 .bitIn with inEos := true }) =
        some (2, 0x800, false) := by decide

/-- V44.3. -/
theorem test_brDiscard :
    after State.brStateWord (exec .brDiscard { running 9 .start with brByte := 0xA5, brPos := 3 }) = some 0x8A5 := by
  decide

/-- V45.8, V45.9. -/
theorem test_magicCheck :
    after (fun t => (t.errcode.code, t.errpos))
        (exec .magicCheck { running 10 .start with hdrMagic := 0x4D414748 }) = some (0x02, 0x4D414748) ∧
      after State.done (exec .magicCheck { running 10 .start with hdrMagic := 0x4D414749 }) = some true := by
  decide

/-- V45.1: bits 0 and 1 of 06 lead to the leaf 00, node 1; then the OutPush of the third symbol ends the command. V45.7:
the start with bit 1 of 06 buffered leads to the leaf 41, node 3. -/
theorem test_decode :
    after (fun t => (t.cur, t.engine))
        (exec .decode { holdA (running 11 .decodeIn) with fileSizeLo := 3, cur := 4, inq := [0x06] }) =
        some (1, .running .decodeOut) ∧
      after (fun t => (t.outq, t.symcount, t.decStateWord, t.brStateWord, t.done))
        (exec .decode { holdA (running 11 .decodeOut) with
          fileSizeLo := 3, symcount := 2, cur := 0, brByte := 0x06, brPos := 5 }) =
        some ([0xFF], 3, 0x00040002, 0x506, true) ∧
      after (fun t => (t.cur, t.engine, t.brStateWord))
        (exec .decode { holdA (running 11 .start) with fileSizeLo := 2, brByte := 0x06, brPos := 1 }) =
        some (3, .running .decodeOut, 0x206) := by decide

/-- V45.5: end of stream inside a code, after six symbols. -/
theorem test_decode_eos :
    after (fun t => (t.errcode.code, t.errpos, t.decStateWord, t.outInvalid))
      (exec .decode { holdA (running 11 .decodeIn) with
        fileSizeLo := 7, symcount := 6, outbytes := 6, cur := 2, dstate := .descending, inEos := true }) =
      some (0x0C, 1, 0x00020001, true) := by decide

/-- P3 (a): BAD_MAGIC takes no byte; P4: tree E complete and FILE_SIZE 0 end the command with A5 unread. -/
theorem test_decodeStream :
    after (fun t => (t.errcode.code, t.inq, t.statusWord))
        (exec .decodeStream { running 12 .start with hdrMagic := 0, treeSize := 6, inq := [0x4C], inEos := true }) =
        some (0x02, [0x4C], 0x000C0084) ∧
      after (fun t => (t.statusWord, t.inq, t.decStateWord, t.brStateWord))
        (exec .decodeStream { running 12 (.treeTag 4) with
          treeSize := 5, inq := [0x49, 0xA5], inEos := true, stk := [1, 0]
          arena := [⟨true, 0xFF, 0, 0⟩, ⟨true, 0x00, 0, 0⟩] }) =
        some (0x000C008A, [0xA5], 0x00020002, 0x800) := by decide

/-- A step takes the first input and runs it; a misaligned access is refused by name (R86, R89). -/
theorem test_step :
    after (fun t => (t.rdata, t.inputs)) (step { base with inputs := [.access (.read 0x40), .engine] }) =
        some (0x800, [.engine]) ∧
      step { base with inputs := [.access (.read 0x02)] } = .refused (.misalignedAccess 0x02) := by
  exact ⟨by decide, rfl⟩

/-- The host's fetch word: TREE_LOAD as a fresh command, and a bus write. -/
theorem test_withFetchWord :
    step (base.withFetchWord 32 5) = exec .treeLoad (accept 5 base) ∧
      step (base.withFetchWord 16 0x170) = exec (.wrInData 0) base := by
  exact ⟨rfl, rfl⟩

/-! ## Witnesses: concrete states and operands that meet the hypotheses of each statement -/

/-- The invariant of a block that holds tree E, with its engine at a control point outside ENCODE. -/
theorem holdE_inv (s : State) (p : Point) (ha : s.arena = (holdE base).arena) (hr : s.root = 2)
    (hl : s.lut = []) (hs : s.stk = []) (hd : s.done = false) (he : s.err = false) (hc : s.errcode = .none)
    (hp : s.errpos = 0) (hi : s.inq.length ≤ s.inDepth) (ho : s.outq.length ≤ s.outDepth)
    (hen : s.engine = .running p) (hpt : PointOk (decodeCommand s.cmdword) s p) (hpk : PackerOk s) : BlockInv s where
  inq_le := hi
  outq_le := ho
  lut_wf := by rw [hl]; rfl
  lut_codes := by simp [hl]
  arena_le := by rw [State.nodeCount, ha]; decide
  stk_le := by rw [State.sp, hs]; decide
  stk_below := by simp [hs]
  nodes := by
    rw [ha]
    refine ⟨by decide, by decide, fun i n h hn => ?_⟩
    rcases i with _ | _ | _ | i <;> simp [holdE] at h <;> subst h <;> simp_all
  tree := fun _ => by rw [ha, hr]; exact ⟨by decide, by decide, by decide⟩
  ends := by simp [hd]
  code := by simp [hc, he]
  pos := fun _ => hp
  running := fun _ => ⟨hd, he⟩
  point := by intro q hq; rw [hen] at hq; cases hq; exact hpt
  packer := hpk

/-- A DECODE of 3 symbols with tree E, `n` of them emitted, at its InPop at the root. -/
def decoding (inq : List Byte) (inEos : Bool) (n : BitVec 64) : State :=
  holdE { running 11 .decodeIn with
    fileSizeLo := 3, cur := 2, symcount := n, outbytes := n, inq := inq, inEos := inEos }

theorem decoding_inv (inq : List Byte) (inEos : Bool) (n : BitVec 64) (hn : n.toNat < 3) (hi : inq.length ≤ 16) :
    BlockInv (decoding inq inEos n) := by
  refine holdE_inv _ .decodeIn rfl rfl rfl rfl rfl rfl rfl rfl hi (show 0 ≤ 16 by decide) rfl
    ⟨Or.inl (show decodeCommand 11 = .decode by decide), rfl, rfl, ?_⟩ ⟨rfl, rfl⟩
  have hf : (decoding inq inEos n).fileSize.toNat = 3 := by
    rw [show (decoding inq inEos n).fileSize = (0 : Word) ++ (3 : Word) from rfl]; decide
  refine ⟨rfl, show (2 : Nat) < 3 by decide, ?_, rfl, DState.noConfusion, rfl⟩
  rw [hf]; exact hn

/-- The same DECODE about to push its second symbol into a full output FIFO of one byte. -/
def emitting : State :=
  holdE { running 11 .decodeOut with
    params := ⟨0, 15, 0⟩, fileSizeLo := 3, cur := 0, symcount := 1, outbytes := 1, outq := [0xFF] }

theorem emitting_inv : BlockInv emitting := by
  refine holdE_inv _ .decodeOut rfl rfl rfl rfl rfl rfl rfl rfl (by decide) (by decide) rfl
    ⟨Or.inl (show decodeCommand 11 = .decode by decide), rfl, ?_⟩ ⟨rfl, rfl⟩
  exact ⟨rfl, show (0 : Nat) < 3 by decide, by decide, rfl, by decide, rfl⟩

theorem witness_DecodeEncodeGivesTheInstructionBack :
    Instr.lutBuild.wf = true ∧ (Instr.reserved 0xFFFFFFFF).wf = true ∧ (Instr.wrLutBits7 0xFFFFFFFF).wf = true := by
  decide

theorem witness_EncodeDecodeGivesTheBitsBack :
    decode (.command 0x0000000C) = .ok .decodeStream ∧ decode (.access (.write 0xFC 5)) = .ok (.wr0xFC 5) := by
  decide

/-- Both clauses at both ends of the window. -/
theorem witness_DecodeRefusesExactlyTheMisaligned :
    (Access.read 0x01).addr.toNat % 4 ≠ 0 ∧ (Access.write 0xFF 0).addr.toNat % 4 ≠ 0 ∧
      (Access.read 0x00).addr.toNat % 4 = 0 ∧ (Access.write 0xFC 0).addr.toNat % 4 = 0 := by decide

/-- The last defined and the first reserved word of each field. -/
theorem witness_ReservedCommandWordsAreTheIllegalOnes :
    decodeCommand 0x0000000C = .decodeStream ∧ decodeCommand 0x0000000D = .reserved 0x0000000D ∧
      decodeCommand 0x00000100 = .reserved 0x00000100 := by decide

theorem witness_StepExecutesTheHostAccess :
    { base with inputs := [.access (.read 0x78)] }.inputs = .access (.read 0x78) :: [] ∧
      decodeAccess (.read 0x78) = .ok .rdOutData := by decide

theorem witness_StepOnTheEnginesTurn :
    ((running 0 .start).busy = true ∧ (running 0 .start).inputs = []) ∧
      { running 0 .start with inputs := [.engine] }.inputs = .engine :: [] ∧ base.busy = false ∧ base.inputs = [] := by
  decide

theorem witness_StepCompletesUnlessMisaligned :
    (∃ rest, { base with inputs := [.access (.read 0x03)] }.inputs = .access (.read 0x03) :: rest) ∧
      (Access.read 0x03).addr.toNat % 4 ≠ 0 ∧
      (∀ a rest, base.inputs = .access a :: rest → a.addr.toNat % 4 = 0) := by
  exact ⟨⟨[], rfl⟩, by decide, fun a rest h => by cases h⟩

theorem witness_ResetEventGivesTheResetState :
    { running 5 (.treeTag 0) with inputs := [.reset, .engine] }.inputs = .reset :: [.engine] := rfl

theorem witness_ControlAndInterruptRegisters :
    (1 : Word).getLsbD 0 = true ∧ (0xFFFFFFFE : Word).getLsbD 0 = false ∧
      { base with irqEn := true, irqPend := true }.irq = true := by decide

/-- Blocked on input, blocked on output, and neither, in states that keep the invariant. -/
theorem witness_WaitBitsShowTheBlockedEngine :
    (BlockInv (decoding [] false 0) ∧ (decoding [] false 0).waitIn = true) ∧
      (BlockInv emitting ∧ emitting.waitOut = true) ∧
      (BlockInv (decoding [1] false 0) ∧ (decoding [1] false 0).waitIn = false) ∧ isCommand .decode = true :=
  ⟨⟨decoding_inv _ _ _ (by decide) (by decide), rfl⟩, ⟨emitting_inv, rfl⟩,
    ⟨decoding_inv _ _ _ (by decide) (by decide), rfl⟩, by decide⟩

theorem witness_CmdWriteIsAcceptedOrDropped : base.busy = false ∧ (running 7 .encIn).busy = true := by decide

/-- One byte of room, none, and end of stream. -/
theorem witness_InDataWritePushesOrDrops :
    (base.inEos = false ∧ { base with inq := List.replicate 15 0 }.inq.length < base.inDepth) ∧
      { base with inq := List.replicate 16 0 }.inq.length = base.inDepth ∧
      { base with inEos := true }.inEos = true := by decide

theorem witness_InCtrlWriteFlushesAndMarksTheEnd : base.busy = false ∧ (running 7 .encIn).busy = true := by
  decide

/-- Bits 0 and 255 of LUT_BITS are bit 0 of word 0 and bit 31 of word 7. -/
theorem witness_OperandRegisterWrites :
    base.busy = false ∧ (running 7 .encIn).busy = true ∧
      (setLutWord 0 0 1).getLsbD (32 * 0 + 0) = true ∧ (setLutWord 0 7 0x80000000).getLsbD (32 * 7 + 31) = true := by
  decide

theorem witness_EngineOwnedReadsWhileIdle : (holdA base).busy = false := by decide

theorem witness_EngineOwnedReadsWhileBusyHaveNoSideEffect :
    Instr.rdTreeInfo ∈ [Instr.rdErrcode, .rdTreeInfo] ∧ (running 5 (.treeTag 0)).busy = true := by decide

theorem witness_OutDataAndFifoStatusReads :
    { base with outq := [0x41] }.outq = 0x41 :: [] ∧ base.outq = [] := by decide

/-- The last node, the first address past it, and a busy block. -/
theorem witness_NodeWindowShowsTheAddressedNode :
    ({ holdE base with nodeAddr := 2 }.busy = false ∧ (holdE base).arena[2]? = some ⟨false, 0, 0, 1⟩) ∧
      { holdE base with nodeAddr := 3 }.nodeCount ≤ (3 : NodeIdx).toNat ∧ (running 7 .encIn).busy = true := by
  decide

theorem witness_RaiseRecordsTheError :
    { base with outbytes := 1 }.outbytes ≠ 0 ∧ base.outbytes = 0 := by decide

theorem witness_NopAndBrDiscardFinish :
    (running 0 .start).engine = .running .start ∧ (running 9 .start).engine = .running .start := ⟨rfl, rfl⟩

theorem witness_ClearEmptiesTheBlock : (holdA (running 1 .start)).engine = .running .start := rfl

/-- The first reserved OPCODE, and the first RSVD bit over a defined OPCODE. -/
theorem witness_ReservedCommandEndsWithBadCommand :
    (running 0x0D .start).engine = .running .start ∧
      0x0D ≤ ((running 0x0D .start).cmdword.extractLsb' 0 8).toNat ∧
      (running 0x105 .start).cmdword.extractLsb' 8 24 ≠ 0 := by decide

/-- LUT_LEN at 0, 256 and 257. -/
theorem witness_LutWriteStoresTheMaskedCode :
    (running 2 .start).engine = .running .start ∧ (codesA (running 2 .start)).lut.wf = true ∧
      (running 2 .start).lutLen.toNat ≤ 256 ∧ { running 2 .start with lutLen := 256 }.lutLen.toNat ≤ 256 ∧
      256 < { running 2 .start with lutLen := 257 }.lutLen.toNat := by decide

theorem witness_LutReadCopiesTheEntry : (codesA (running 3 .start)).engine = .running .start := rfl

/-- Tree E has the least number of leaves. -/
theorem holds_treeE (s : State) : Holds (holdE s) treeE := ⟨rfl, rfl, rfl, by decide⟩

theorem holds_treeA (s : State) : Holds (holdA s) treeA := ⟨rfl, rfl, rfl, by decide⟩

theorem witness_LutBuildRecordsEveryLeafPath :
    ((running 4 .start).engine = .running .start ∧ (running 4 .start).treeValid = false) ∧
      (let s : State := { running 4 .start with arena := [⟨true, 0x41, 0, 0⟩], treeValid := true }
       s.treeValid = true ∧ (s.node s.root).leaf = true) ∧
      (holdE (running 4 .start)).engine = .running .start ∧ Holds (holdE (running 4 .start)) treeE ∧
      2 ≤ treeE.leaves :=
  ⟨⟨rfl, rfl⟩, ⟨rfl, rfl⟩, rfl, holds_treeE _, by decide⟩

/-- A state at the InPop of a tag, for each clause: end of stream; the last and an earlier Leaf tag; no, one, two items;
a full and a not yet full arena; another byte. -/
theorem witness_TreeLoadTakesATag :
    let s : State := { running 5 (.treeTag 4) with treeSize := 5 }
    s.engine = .running (.treeTag 4) ∧
      ({ s with inEos := true }.inq = [] ∧ { s with inEos := true }.inEos = true) ∧
      ({ s with inq := [0x4C] }.inq = 0x4C :: [] ∧ 4 + 1 = s.treeSize.toNat) ∧
      4 + 1 ≠ { s with treeSize := 6 }.treeSize.toNat ∧
      (s.stk.length < 2 ∧ { s with stk := [0] }.stk.length < 2) ∧
      (let full : State := { s with stk := [1, 0], arena := List.replicate 511 ⟨true, 0, 0, 0⟩ }
       full.stk = 1 :: 0 :: [] ∧ full.arena.length = 511) ∧
      (let most : State := { s with
          treeSize := 6, stk := List.replicate 256 0, arena := List.replicate 510 ⟨true, 0, 0, 0⟩ }
       most.stk = 0 :: 0 :: List.replicate 254 0 ∧ most.arena.length < 511 ∧
         (List.replicate 254 (0 : NodeIdx)).length < 256 ∧ 4 + 1 < most.treeSize.toNat) ∧
      ((0x58 : Byte) ≠ 0x4C ∧ (0x58 : Byte) ≠ 0x49) := by decide +kernel

/-- A state at the InPop of a symbol, for each clause: end of stream; 511 nodes; 510 nodes and 256 items; 510 nodes and
255 items. -/
theorem witness_TreeLoadTakesASymbol :
    let s : State := { running 12 (.treeSym 2) with treeSize := 5 }
    s.engine = .running (.treeSym 2) ∧
      ({ s with inEos := true }.inq = [] ∧ { s with inEos := true }.inEos = true) ∧
      { s with inq := [0x41] }.inq = 0x41 :: [] ∧
      { s with arena := List.replicate 511 ⟨true, 0, 0, 0⟩ }.arena.length = 511 ∧
      { s with arena := List.replicate 510 ⟨true, 0, 0, 0⟩ }.arena.length < 511 ∧
      { s with stk := List.replicate 256 0 }.stk.length = 256 ∧
      { s with stk := List.replicate 255 0 }.stk.length < 256 ∧ 2 + 2 < s.treeSize.toNat := by decide +kernel

theorem witness_TreeLoadBeginsAndEnds :
    ((running 5 .start).engine = .running .start ∧ (running 5 .start).treeSize = 0 ∧
      { running 5 .start with treeSize := 1 }.treeSize ≠ 0) ∧
      (let s : State := { running 5 (.treeTag 4) with
          treeSize := 5, inq := [0x49], stk := [1, 0], arena := [⟨true, 0xFF, 0, 0⟩, ⟨true, 0x00, 0, 0⟩] }
       s.engine = .running (.treeTag 4) ∧ s.inq = 0x49 :: [] ∧ s.arena.length < 511 ∧ 4 + 1 = s.treeSize.toNat ∧
         s.stk = 1 :: 0 :: [] ∧ { s with stk := [2, 1, 0] }.stk = 2 :: 1 :: [0]) ∧
      (let s : State := { running 5 (.treeSym 0) with treeSize := 2, inq := [0x41] }
       s.engine = .running (.treeSym 0) ∧ s.inq = 0x41 :: [] ∧ 0 + 2 = s.treeSize.toNat ∧ s.stk = [] ∧
         { s with stk := [0] }.stk ≠ [] ∧ { s with stk := [0] }.stk.length < 256) := by decide

/-- TREE_LOAD of tree E with the bytes of V42.1 and one more. -/
def loading : State := { running 5 .start with treeSize := 5, inq := [0x4C, 0xFF, 0x4C, 0x00, 0x49, 0x1F] }

theorem witness_TreeLoadAcceptsEveryDump :
    Begins 0x05 loading ∧ treeE.leaves ≤ 256 ∧ loading.treeSize.toNat = treeE.tokens.length ∧
      loading.inq = treeE.tokens ++ [0x1F] := ⟨⟨rfl, rfl, rfl⟩, by decide, by decide, rfl⟩

theorem witness_TreeLoadAcceptsOnlyDumps :
    Begins 0x05 loading ∧ loading.done = false ∧ ∃ u, steps 6 loading = .next u ∧ u.done = true :=
  ⟨⟨rfl, rfl, rfl⟩, rfl, _, rfl, rfl⟩

theorem witness_TreeStoreBeginsAndPushes :
    ((running 6 .start).engine = .running .start ∧ (running 6 .start).treeValid = false) ∧
      ((running 6 (.treeOut 0x4C [0x41])).engine = .running (.treeOut 0x4C (0x41 :: [])) ∧
        (running 6 (.treeOut 0x4C [0x41])).outq.length < base.outDepth) ∧
      (running 6 (.treeOut 0x41 [])).engine = .running (.treeOut 0x41 []) := by decide

/-- Tree A's 8 bytes just fit. -/
theorem witness_TreeStoreWritesTheDump :
    let s : State := holdA { running 6 .start with outq := List.replicate 8 0 }
    Begins 0x06 s ∧ Holds s treeA ∧ s.outq.length + treeA.tokens.length ≤ s.outDepth :=
  ⟨⟨rfl, rfl, rfl⟩, holds_treeA _, by decide⟩

/-- A code that fills the byte to 7 bits, to exactly 8, and past it; after the push no bit, 7 and 8 bits remain. -/
theorem witness_EncodeBeginsMissesAndEnds :
    (running 7 .start).engine = .running .start ∧
      (let s : State := { running 7 .encIn with inEos := true }
       s.engine = .running .encIn ∧ s.inq = [] ∧ s.inEos = true ∧ s.wpos = 0 ∧ { s with wpos := 1 }.wpos ≠ 0) ∧
      ((running 7 .encFlush).engine = .running .encFlush ∧ (running 7 .encFlush).outq.length < base.outDepth) ∧
      (let s : State := codesA { running 7 .encIn with inq := [0x42] }
       s.engine = .running .encIn ∧ s.inq = 0x42 :: [] ∧ (s.lut.get 0x42).len = 0) ∧
      (let s : State := codesA { running 7 .encIn with inq := [0x41], wpos := 6 }
       s.engine = .running .encIn ∧ s.inq = 0x41 :: [] ∧ (s.lut.get 0x41).len ≠ 0 ∧
         s.wpos.val + (s.lut.get 0x41).toBits.length < 8 ∧ 8 ≤ 7 + (s.lut.get 0x41).toBits.length ∧
         (s.lut.get 0xFF).len ≠ 0 ∧ 8 < 7 + (s.lut.get 0xFF).toBits.length) ∧
      (let s : State := running 7 (.encOut (List.replicate 7 true))
       s.engine = .running (.encOut (List.replicate 7 true)) ∧ s.outq.length < s.outDepth ∧
         ([] : List Bool).length < 8 ∧ (List.replicate 7 true).length < 8 ∧ 8 ≤ (List.replicate 8 true).length) := by
  decide

/-- V43.2, with one byte of room. -/
theorem witness_EncodePacksTheCodes :
    let s : State := codesA { running 7 .start with
      inq := [0x00, 0x41, 0xFF], inEos := true, outq := List.replicate 15 0 }
    Begins 0x07 s ∧ s.inq = [0x00, 0x41, 0xFF] ∧ s.inEos = true ∧ (∀ x ∈ s.inq, (s.lut.get x).len ≠ 0) ∧
      packed (s.inq.flatMap fun x => (s.lut.get x).toBits) = [0x06] ∧ s.outq.length + 1 ≤ s.outDepth :=
  ⟨⟨rfl, rfl, rfl⟩, rfl, rfl, by decide, by decide, by decide⟩

/-- BR_POS at 7 and at 8; a byte, end of stream, and neither. -/
theorem witness_ReadBitReturnsTheNextBit :
    ((running 8 .start).engine = .running .start ∧ { running 8 .start with brPos := 7 }.brPos ≠ 8 ∧
      (running 8 .start).brPos = 8) ∧
      ((running 8 .bitIn).engine = .running .bitIn ∧ { running 8 .bitIn with inq := [0xA5] }.inq = 0xA5 :: [] ∧
        (running 8 .bitIn).inq = [] ∧ (running 8 .bitIn).inEos = false ∧
        { running 8 .bitIn with inEos := true }.inEos = true) := by decide

theorem witness_MagicCheckComparesAllBits :
    (running 10 .start).engine = .running .start ∧
      { running 10 .start with hdrMagic := 0x4D414749 }.hdrMagic = base.params.magic ∧
      (running 10 .start).hdrMagic ≠ base.params.magic := by decide

/-- The start with BR_POS 8, 7 and 0. On tree E one buffered bit meets a leaf; on the comb of nine levels the eight
buffered bits of 80 do with the last, and those of 00 are used up at an interior node. The push of the last symbol, of
an earlier one, and on a leaf as root. -/
theorem witness_DecodeBeginsEmitsAndEnds :
    ((running 11 .start).engine = .running .start ∧ (running 11 .start).treeValid = false) ∧
      (let s : State := holdE (running 11 .start)
       s.treeValid = true ∧ s.fileSize = 0 ∧ (s.node s.root).leaf = false ∧ s.brPos = 8 ∧
         { s with fileSizeLo := 1 }.fileSize ≠ 0) ∧
      (let s : State := { running 11 .start with arena := [⟨true, 0x41, 0, 0⟩], treeValid := true, fileSizeLo := 1 }
       s.treeValid = true ∧ s.fileSize ≠ 0 ∧ (s.node s.root).leaf = true) ∧
      (let s : State := holdE { running 11 .decodeOut with fileSizeLo := 1, cur := 0 }
       s.engine = .running .decodeOut ∧ s.outq.length < s.outDepth ∧ s.symcount + 1 = s.fileSize ∧
         s.symcount + 1 ≠ { s with fileSizeLo := 2 }.fileSize ∧ (s.node s.root).leaf = false ∧
         ({ s with root := 0 }.node 0).leaf = true) ∧
      (let s : State := decoding [] true 0
       s.engine = .running .decodeIn ∧ s.inq = [] ∧ s.inEos = true) := by decide

/-- The comb of nine levels: every 0 bit goes down, a 1 bit to a leaf. -/
def comb : List Node := ⟨true, 0, 0, 0⟩ :: (List.range 9).flatMap fun i =>
  [⟨true, 1, 0, 0⟩, ⟨false, 0, BitVec.ofNat 9 (2 * i), BitVec.ofNat 9 (2 * i + 1)⟩]

/-- Each field of `WalksBuffered`: BR_POS 8; one buffered bit (BR_POS 7) to a leaf of tree E; eight (BR_POS 0) to a leaf
of the comb with the last, and to none. -/
theorem witness_WalksBuffered :
    (holdE (running 11 .start)).buffered = [] ∧
      (let s : State := { holdE (running 11 .start) with cur := 2, brPos := 7 }
       s.buffered.length = 1 ∧ (s.node (s.walk s.cur (s.buffered.take 1))).leaf = true) ∧
      (let s : State := { running 11 .start with arena := comb, cur := 18, brPos := 0, brByte := 0x80 }
       s.buffered.length = 8 ∧
         (∀ n, n < 8 → 1 ≤ n → (s.node (s.walk s.cur (s.buffered.take n))).leaf = false) ∧
         (s.node (s.walk s.cur (s.buffered.take 8))).leaf = true) ∧
      (let s : State := { running 11 .start with arena := comb, cur := 18, brPos := 0, brByte := 0x00 }
       s.buffered ≠ [] ∧
         ∀ n, n < 9 → 1 ≤ n → (s.node (s.walk s.cur (s.buffered.take n))).leaf = false) := by decide

/-- Tree E reaches a leaf with 1 bit. The comb of nine levels is still at an interior node after all 8 bits of 00, and
with the bit 1 as eighth it is at a leaf. -/
theorem witness_DecodeWalksOneLevelPerBit :
    (let s : State := decoding [0x01] false 0
     s.engine = .running .decodeIn ∧ s.inq = 0x01 :: [] ∧ s.symcount ≠ s.fileSize ∧
       (s.node (s.walk s.cur (firstBits 0x01 1))).leaf = true) ∧
      (let s : State := { decoding [0x00] false 0 with arena := comb, root := 18, cur := 18 }
       s.engine = .running .decodeIn ∧ s.inq = 0x00 :: [] ∧ s.symcount ≠ s.fileSize ∧
         (∀ n, n < 8 → 1 ≤ n → (s.node (s.walk s.cur (firstBits 0x00 n))).leaf = false) ∧
         (s.node (s.walk s.cur (firstBits 0x00 8))).leaf = false ∧
         (∀ n, n < 8 → 1 ≤ n → (s.node (s.walk s.cur (firstBits 0x80 n))).leaf = false) ∧
         (s.node (s.walk s.cur (firstBits 0x80 8))).leaf = true) := by decide

/-- V45.7, whose bits are all buffered after one READ_BIT; and V45.1, with a byte after the payload. -/
theorem witness_DecodeRecoversTheSymbols :
    (let s : State := holdA { running 11 .start with fileSizeLo := 2, brByte := 0x06, brPos := 1 }
     let xs : List (Byte × List Bool) := [(0x41, [true]), (0x41, [true])]
     Begins 0x0B s ∧ Holds s treeA ∧ 2 ≤ treeA.leaves ∧ (∀ x ∈ xs, x ∈ treeA.paths) ∧
       s.fileSize = BitVec.ofNat 64 xs.length ∧ s.outq.length + xs.length ≤ s.outDepth ∧
       s.pendingBits = xs.flatMap Prod.snd ++ [false, false, false, false, false]) ∧
    (let s : State := holdA { running 11 .start with fileSizeLo := 3, inq := [0x06, 0xAB] }
     let xs : List (Byte × List Bool) := [(0x00, [false, true]), (0x41, [true]), (0xFF, [false, false])]
     Begins 0x0B s ∧ Holds s treeA ∧ (∀ x ∈ xs, x ∈ treeA.paths) ∧ s.fileSize = BitVec.ofNat 64 xs.length ∧
       s.outq.length + xs.length ≤ s.outDepth ∧ s.brPos = 8 ∧ s.inq = packed (xs.flatMap Prod.snd) ++ [0xAB]) :=
  ⟨⟨⟨rfl, rfl, rfl⟩, holds_treeA _, by decide, by decide, by decide, by decide, by decide⟩,
    ⟨rfl, rfl, rfl⟩, holds_treeA _, by decide, by decide, by decide, rfl, by decide⟩

/-- The codes of 41 00 behind BR_POS 6, the last bit in INQ; and P2, the byte ENCODE wrote. -/
theorem witness_DecodeInvertsEncode :
    (let s : State := codesA (holdA { running 11 .start with fileSizeLo := 2, brByte := 0x40, brPos := 6, inq := [0x01] })
     let xs : List Byte := [0x41, 0x00]
     Begins 0x0B s ∧ Holds s treeA ∧ (∀ c, s.lut.get c = treeA.codeOf c) ∧ (∀ x ∈ xs, (s.lut.get x).len ≠ 0) ∧
       s.fileSize = BitVec.ofNat 64 xs.length ∧ s.outq.length + xs.length ≤ s.outDepth ∧
       s.pendingBits = (xs.flatMap fun x => (s.lut.get x).toBits) ++ List.replicate 7 false) ∧
    (let s : State := codesA (holdA { running 11 .start with fileSizeLo := 3, inq := [0x06] })
     let xs : List Byte := [0x00, 0x41, 0xFF]
     Begins 0x0B s ∧ Holds s treeA ∧ (∀ c, s.lut.get c = treeA.codeOf c) ∧ (∀ x ∈ xs, (s.lut.get x).len ≠ 0) ∧
       s.fileSize = BitVec.ofNat 64 xs.length ∧ s.outq.length + xs.length ≤ s.outDepth ∧ s.brPos = 8 ∧
       s.inq = packed (xs.flatMap fun x => (s.lut.get x).toBits) ++ []) :=
  ⟨⟨⟨rfl, rfl, rfl⟩, ⟨rfl, rfl, rfl, by decide⟩, by decide, by decide, by decide, by decide, by decide⟩,
    ⟨rfl, rfl, rfl⟩, ⟨rfl, rfl, rfl, by decide⟩, by decide, by decide, by decide, by decide, rfl, by decide⟩

/-- The start with the wrong and the right magic; a tree step that goes on and one that completes the tree. -/
theorem witness_DecodeStreamRunsItsParts :
    ((running 12 .start).engine = .running .start ∧ (running 12 .start).hdrMagic ≠ base.params.magic ∧
      { running 12 .start with hdrMagic := 0x4D414749 }.hdrMagic = base.params.magic) ∧
      (let s : State := { running 12 (.treeTag 4) with
          treeSize := 5, inq := [0x49], stk := [1, 0], arena := [⟨true, 0xFF, 0, 0⟩, ⟨true, 0x00, 0, 0⟩] }
       s.engine = .running (.treeTag 4) ∧ s.treeValid = false ∧
         after State.treeValid (exec .treeLoad s) = some true ∧
         after State.treeValid (exec .treeLoad { s with treeSize := 6 }) = some false) ∧
      (decoding [] false 0).engine = .running .decodeIn := by decide

/-- P1. -/
theorem witness_DecodeStreamDecodesAWholeStream :
    let s : State := { running 12 .start with
      hdrMagic := 0x4D414749, treeSize := 8, fileSizeLo := 5
      inq := [0x4C, 0xFF, 0x4C, 0x00, 0x49, 0x4C, 0x41, 0x49, 0x1F] }
    let xs : List (Byte × List Bool) := List.replicate 5 (0x41, [true])
    Begins 0x0C s ∧ s.hdrMagic = s.params.magic ∧ 2 ≤ treeA.leaves ∧ treeA.leaves ≤ 256 ∧
      s.treeSize.toNat = treeA.tokens.length ∧ (∀ x ∈ xs, x ∈ treeA.paths) ∧
      s.fileSize = BitVec.ofNat 64 xs.length ∧ s.inq = treeA.tokens ++ packed (xs.flatMap Prod.snd) ++ [] ∧
      s.outq.length + xs.length ≤ s.outDepth :=
  ⟨⟨rfl, rfl, rfl⟩, rfl, by decide, by decide, by decide, by decide, by decide, by decide, by decide⟩

theorem witness_StepKeepsInvariant :
    BlockInv (decoding [0x06] false 0) ∧ ∃ t, step (decoding [0x06] false 0) = .next t :=
  ⟨decoding_inv _ _ _ (by decide) (by decide), _, rfl⟩

theorem witness_HeldTreeMeetsTheTreeInvariants :
    BlockInv (decoding [0x06] false 0) ∧ (decoding [0x06] false 0).treeValid = true ∧
      (decoding [0x06] false 0).arena[2]? = some ⟨false, 0, 0, 1⟩ :=
  ⟨decoding_inv _ _ _ (by decide) (by decide), rfl, rfl⟩

theorem witness_EnabledEngineStepMovesTheEngine :
    BlockInv (decoding [0x06] false 0) ∧ (decoding [0x06] false 0).busy = true ∧
      (decoding [0x06] false 0).waitIn = false ∧ (decoding [0x06] false 0).waitOut = false :=
  ⟨decoding_inv _ _ _ (by decide) (by decide), rfl, rfl, rfl⟩

/-- A NOP that ends sets the bit; a write of IRQ_STATUS and a reset clear it. -/
theorem witness_IrqPendFollowsCommandEnds :
    ((running 0 .start).irqPend = false ∧ after State.irqPend (step (running 0 .start)) = some true ∧
      (running 0 .start).busy = true ∧ after State.busy (step (running 0 .start)) = some false) ∧
      after State.irqPend (step { base with irqPend := true, inputs := [.access (.write 0x14 1)] }) = some false ∧
      after State.irqPend (step { base with irqPend := true, inputs := [.reset] }) = some false := by decide

theorem witness_EachCommandRaisesOnlyItsErrors :
    isCommand .lutWrite = true ∧ ∃ t, exec .lutWrite { running 2 .start with lutLen := 257 } = .next t :=
  ⟨by decide, _, rfl⟩

theorem witness_OnlyTwoErrorsComeAfterOutput :
    BlockInv (decoding [] true 1) ∧ (decoding [] true 1).busy = true ∧
      ∃ t, engineTurn (decoding [] true 1) = .next t ∧ t.err = true ∧ t.outbytes ≠ 0 :=
  ⟨decoding_inv _ _ _ (by decide) (by decide), rfl, _, rfl, rfl, by decide⟩

/-- Both clauses: LUT_BUILD and, as the exception of the second, LUT_READ. -/
theorem witness_CommandsKeepHostOwnedState :
    isCommand .lutBuild = true ∧ Instr.lutBuild ≠ .lutRead ∧ isCommand .lutRead = true ∧
      ∃ t, exec .lutBuild (holdE (running 4 .start)) = .next t :=
  ⟨by decide, by decide, by decide, _, rfl⟩

/-- A push, a pop and an end-of-stream mark while a command runs; for the commuting clause ENCODE at its InPop with both
FIFOs one short of full. -/
theorem witness_HostAccessesKeepARunningCommand :
    (isCommand (.wrInData 1) = false ∧ isCommand .rdOutData = false ∧ isCommand (.wrInCtrl 1) = false ∧
      (running 7 .encIn).busy = true ∧ { running 7 .encIn with inEos := true }.inEos = true) ∧
      let s : State := { running 7 .encIn with inq := List.replicate 15 0x41, outq := List.replicate 15 0x06 }
      s.busy = true ∧ s.waitIn = false ∧ s.waitOut = false ∧ s.inEos = false ∧ s.inq.length < s.inDepth ∧
        s.outq ≠ [] ∧ isCommand .encode = true ∧
        (∃ t, exec (.wrInData 1) s = .next t) ∧ (∃ t, exec .rdOutData s = .next t) ∧ ∃ u, exec .encode s = .next u :=
  ⟨by decide, rfl, by decide, by decide, rfl, by decide, by decide, rfl, ⟨_, rfl⟩, ⟨_, rfl⟩, _, rfl⟩

/-- READ_BIT for every clause but the reader's and its result's; MAGIC_CHECK for all. -/
theorem witness_OnlyTheNamedCommandsChangeTreeTableReader :
    (Instr.magicCheck ≠ .clear ∧ Instr.magicCheck ∉ [Instr.treeLoad, .decodeStream] ∧
      Instr.magicCheck ∉ [Instr.lutWrite, .lutBuild] ∧
      Instr.magicCheck ∉ [Instr.readBit, .brDiscard, .treeLoad, .encode, .decode, .decodeStream] ∧
      Instr.magicCheck ∉ [Instr.decode, .decodeStream, .encode] ∧ Instr.magicCheck ≠ .readBit) ∧
      ∃ t, exec .magicCheck (running 10 .start) = .next t :=
  ⟨by decide, _, rfl⟩

theorem witness_EngineStepMovesAtMostOneByteEachWay :
    isCommand .treeStore = true ∧ ∃ t, exec .treeStore (running 6 (.treeOut 0x4C [0x41])) = .next t ∧
      t.outq = [0x4C] := ⟨by decide, _, rfl, rfl⟩

theorem witness_ReadsHaveNoSideEffect :
    encode .rdFifoStatus = .access (.read 0x7C) ∧ (0x7C : BitVec 8) ≠ 0x78 ∧ ∃ t, exec .rdFifoStatus base = .next t :=
  ⟨rfl, by decide, _, rfl⟩

end Sys2Proof.Tests
end

/-! ## Ownership

Which commands change the held tree, the code table, the bitstream reader, SYMCOUNT and BIT_RESULT. A quantity `g` read
from these five parts is followed through the model's operations: an operation keeps `g` when `g` ignores the parts it
writes. The end of a command, its control points and the FIFOs stand outside the five parts, so they keep every `g`. -/

namespace Sys2Proof.Machine

/-- The five parts of the state that only the commands owning them change (00_scope.md R7, 10_state.md R42, R47,
41_code_table.md R225, R230, 44_bitstream_reader.md R334). -/
structure Parts where
  /-- The arena, ROOT, TREE_VALID and the auxiliary stack. -/
  tree      : List Node × NodeIdx × Bool × List NodeIdx
  /-- The code table. -/
  table     : CodeTable
  /-- BR_BYTE and BR_POS. -/
  reader    : Byte × Fin 9
  /-- SYMCOUNT. -/
  symcount  : BitVec 64
  /-- BIT_RESULT's BIT and EOS. -/
  bitResult : Bool × Bool

/-- The five parts as a state holds them. -/
def State.parts (s : State) : Parts where
  tree      := (s.arena, s.root, s.treeValid, s.stk)
  table     := s.lut
  reader    := (s.brByte, s.brPos)
  symcount  := s.symcount
  bitResult := (s.bitVal, s.bitEos)

/-! ### Host accesses -/

theorem readEngineOwned_parts {v : Word} {s t : State} (h : readEngineOwned v s = .next t) : t.parts = s.parts := by
  rcases readEngineOwned_cases v s with ⟨_, e⟩ | ⟨_, e⟩ <;> cases e.symm.trans h <;> rfl

theorem popOutData_parts {s t : State} (h : popOutData s = .next t) : t.parts = s.parts := by
  rcases popOutData_cases s with ⟨_, _, _, e⟩ | ⟨_, e⟩ <;> cases e.symm.trans h <;> rfl

theorem writeOperand_parts {s' s t : State} (hs : s'.parts = s.parts) (h : writeOperand s' s = .next t) :
    t.parts = s.parts := by
  rcases writeOperand_cases s' s with ⟨_, e⟩ | ⟨_, e⟩ <;> cases e.symm.trans h
  · exact hs
  · rfl

theorem writeCmd_parts {w : Word} {s t : State} (h : writeCmd w s = .next t) : t.parts = s.parts := by
  rcases writeCmd_cases w s with ⟨_, e⟩ | ⟨_, e⟩ <;> cases e.symm.trans h <;> rfl

theorem pushInData_parts {w : Word} {s t : State} (h : pushInData w s = .next t) : t.parts = s.parts := by
  rcases pushInData_cases w s with ⟨_, _, e⟩ | ⟨_, e⟩ <;> cases e.symm.trans h <;> rfl

theorem writeInCtrl_parts {w : Word} {s t : State} (h : writeInCtrl w s = .next t) : t.parts = s.parts := by
  rcases writeInCtrl_cases w s with ⟨_, e⟩ | ⟨_, e⟩ <;> cases e.symm.trans h <;> rfl

/-- A host access changes none of the five parts. -/
theorem access_parts {i : Instr} {s t : State} (hi : isCommand i = false) (h : exec i s = .next t) :
    t.parts = s.parts := by
  cases i
  case nop | clear | lutWrite | lutRead | lutBuild | treeLoad | treeStore | encode | readBit | brDiscard |
      magicCheck | decode | decodeStream | reserved => simp [isCommand, Sys2Proof.encode] at hi
  case rdErrcode | rdErrpos | rdSymcountLo | rdSymcountHi | rdOutbytesLo | rdOutbytesHi | rdTreeInfo | rdDecState |
      rdBrState | rdBitResult | rdLutLen | rdLutBits0 | rdLutBits1 | rdLutBits2 | rdLutBits3 | rdLutBits4 |
      rdLutBits5 | rdLutBits6 | rdLutBits7 | rdNodeData => exact readEngineOwned_parts h
  case wrTreeSize | wrFileSizeLo | wrFileSizeHi | wrHdrMagic | wrLutSym | wrLutLen | wrLutBits0 | wrLutBits1 |
      wrLutBits2 | wrLutBits3 | wrLutBits4 | wrLutBits5 | wrLutBits6 | wrLutBits7 =>
    exact writeOperand_parts (by rfl) h
  case rdOutData => exact popOutData_parts h
  case wrCmd => exact writeCmd_parts h
  case wrInData => exact pushInData_parts h
  case wrInCtrl => exact writeInCtrl_parts h
  -- The exact reads, the writes with no effect, and CTRL, IRQ_STATUS and NODE_ADDR.
  all_goals cases h; rfl

/-! ### What an operation keeps -/

section
variable {α : Type}

/-- `g` does not depend on the held tree. -/
def IgnoresTree (g : Parts → α) : Prop := ∀ p x, g { p with tree := x } = g p

/-- `g` does not depend on the code table. -/
def IgnoresTable (g : Parts → α) : Prop := ∀ p x, g { p with table := x } = g p

/-- `g` does not depend on the bitstream reader. -/
def IgnoresReader (g : Parts → α) : Prop := ∀ p x, g { p with reader := x } = g p

/-- `g` does not depend on SYMCOUNT. -/
def IgnoresSymcount (g : Parts → α) : Prop := ∀ p x, g { p with symcount := x } = g p

/-- `g` does not depend on BIT_RESULT. -/
def IgnoresBitResult (g : Parts → α) : Prop := ∀ p x, g { p with bitResult := x } = g p

/-- `f` leaves the quantity `g` of the five parts as it was. -/
def Keeps (g : Parts → α) (f : State → State) : Prop := ∀ s, g (f s).parts = g s.parts

variable {g : Parts → α}

theorem Keeps.finish : Keeps g finish := fun _ => rfl
theorem Keeps.raise (e : ErrCode) (w : Word) : Keeps g (raise e w) := fun _ => rfl
theorem Keeps.atPoint (p : Point) : Keeps g (atPoint p) := fun _ => rfl

theorem Keeps.fromStart {f : State → State} (hf : Keeps g f) : Keeps g (fromStart f) := by
  intro s
  rcases fromStart_cases f s with ⟨_, e⟩ | ⟨_, e⟩ <;> rw [e]
  exact hf s

/-! ### Stream primitives -/

theorem Keeps.onInPop {eos : State → State} {byte : Byte → State → State} (he : Keeps g eos)
    (hb : ∀ b, Keeps g (byte b)) : Keeps g fun s => onInPop s eos byte := by
  intro s
  rcases onInPop_cases s eos byte with ⟨b, q, _, e⟩ | ⟨_, _, e⟩ | ⟨_, _, e⟩ <;> simp only [e]
  · exact hb b { s with inq := q }
  · exact he s

theorem onOutPush_keeps {cont : State → State} (hc : Keeps g cont) (b : Byte) (s : State) :
    g (onOutPush b s cont).parts = g s.parts := by
  rcases onOutPush_cases b s cont with ⟨_, e⟩ | ⟨_, e⟩ <;> rw [e]
  exact hc { s with outq := s.outq ++ [b], outbytes := s.outbytes + 1 }

theorem Keeps.readBit (hr : IgnoresReader g) (p : Point) {cont : Bool → State → State}
    (hc : ∀ b, Keeps g (cont b)) : Keeps g fun s => readBit p s cont := by
  intro s
  rcases readBit_cases p s cont with ⟨_, e⟩ | ⟨_, e⟩ <;> simp only [e]
  · rfl
  · exact (hc _ _).trans (hr s.parts _)

theorem Keeps.refillBit (hr : IgnoresReader g) {eos : State → State} {cont : Bool → State → State}
    (he : Keeps g eos) (hc : ∀ b, Keeps g (cont b)) : Keeps g fun s => refillBit s eos cont :=
  Keeps.onInPop he fun _ s => (hc _ _).trans (hr s.parts _)

/-! ### READ_BIT -/

theorem Keeps.bitRead (hb : IgnoresBitResult g) (b : Bool) : Keeps g (bitRead b) := fun s => hb s.parts (b, false)
theorem Keeps.bitAtEos (hb : IgnoresBitResult g) : Keeps g bitAtEos := fun s => hb s.parts (false, true)

theorem Keeps.readBitStep (hr : IgnoresReader g) (hb : IgnoresBitResult g) : Keeps g readBitStep := by
  intro s
  unfold Machine.readBitStep
  split
  · exact Keeps.readBit hr _ (Keeps.bitRead hb) s
  · exact Keeps.refillBit hr (Keeps.bitAtEos hb) (Keeps.bitRead hb) s
  · rfl

/-! ### The code table commands -/

theorem Keeps.lutWriteBody (hl : IgnoresTable g) : Keeps g lutWriteBody := by
  intro s
  unfold Machine.lutWriteBody
  split
  · exact hl s.parts _
  · rfl

theorem Keeps.lutReadBody : Keeps g lutReadBody := fun _ => rfl

theorem Keeps.lutBuildBody (hl : IgnoresTable g) : Keeps g lutBuildBody := by
  intro s
  unfold Machine.lutBuildBody
  split
  · split
    · rfl
    · exact hl s.parts _
  · rfl

/-! ### TREE_LOAD and TREE_STORE -/

theorem Keeps.alloc (ht : IgnoresTree g) (n : Node) (k : Nat) {cont : NodeIdx → State → State}
    (hc : ∀ i, Keeps g (cont i)) : Keeps g fun s => alloc n k s cont := by
  intro s
  rcases alloc_cases n k s cont with ⟨_, e⟩ | ⟨_, e⟩ <;> simp only [e]
  · rfl
  · exact (hc _ _).trans (ht s.parts _)

theorem Keeps.push (ht : IgnoresTree g) (n : NodeIdx) (k : Nat) {cont : State → State} (hc : Keeps g cont) :
    Keeps g fun s => push n k s cont := by
  intro s
  rcases push_cases n k s cont with ⟨_, e⟩ | ⟨_, e⟩ <;> simp only [e]
  · rfl
  · exact (hc _).trans (ht s.parts _)

theorem Keeps.pop (ht : IgnoresTree g) (k : Nat) {cont : NodeIdx → State → State} (hc : ∀ i, Keeps g (cont i)) :
    Keeps g fun s => pop k s cont := by
  intro s
  rcases pop_cases k s cont with ⟨_, e⟩ | ⟨n, rest, _, e⟩ <;> simp only [e]
  · rfl
  · exact (hc _ _).trans (ht s.parts _)

section
variable {loaded : State → State}

theorem Keeps.treeLoadLoop (ht : IgnoresTree g) (hl : Keeps g loaded) (k : Nat) :
    Keeps g (treeLoadLoop loaded k) := by
  intro s
  rcases treeLoadLoop_cases loaded k s with ⟨_, e⟩ | ⟨_, r, _, e⟩ | ⟨_, _, e⟩ <;> rw [e]
  · rfl
  · exact (hl _).trans (ht s.parts _)
  · rfl

theorem Keeps.treeLoadBegin (ht : IgnoresTree g) (hr : IgnoresReader g) (hl : Keeps g loaded) :
    Keeps g (treeLoadBegin loaded) := fun s =>
  (Keeps.treeLoadLoop ht hl 0 _).trans ((ht { s.parts with reader := (s.brByte, 8) } _).trans (hr s.parts _))

theorem Keeps.treeInterior (ht : IgnoresTree g) (hl : Keeps g loaded) (k : Nat) : Keeps g (treeInterior loaded k) :=
  Keeps.pop ht k fun _ => Keeps.pop ht k fun _ => Keeps.alloc ht _ k fun _ =>
    Keeps.push ht _ k (Keeps.treeLoadLoop ht hl _)

theorem Keeps.treeTagStep (ht : IgnoresTree g) (hl : Keeps g loaded) (k : Nat) : Keeps g (treeTagStep loaded k) := by
  refine Keeps.onInPop (Keeps.raise _ _) fun b s => ?_
  split
  · split <;> rfl
  · split
    · exact Keeps.treeInterior ht hl k s
    · rfl

theorem Keeps.treeSymStep (ht : IgnoresTree g) (hl : Keeps g loaded) (k : Nat) : Keeps g (treeSymStep loaded k) :=
  Keeps.onInPop (Keeps.raise _ _) fun _ => Keeps.alloc ht _ k fun _ => Keeps.push ht _ k (Keeps.treeLoadLoop ht hl _)

end

theorem Keeps.treeLoadStep (ht : IgnoresTree g) (hr : IgnoresReader g) : Keeps g treeLoadStep := by
  intro s
  unfold Machine.treeLoadStep
  split
  · exact Keeps.treeLoadBegin ht hr Keeps.finish s
  · exact Keeps.treeTagStep ht Keeps.finish _ s
  · exact Keeps.treeSymStep ht Keeps.finish _ s
  · rfl

theorem Keeps.treeStoreNext (bytes : List Byte) : Keeps g (treeStoreNext bytes) := by
  intro s
  cases bytes <;> rfl

theorem Keeps.treeStoreStep : Keeps g treeStoreStep := by
  intro s
  unfold Machine.treeStoreStep
  split
  · split
    · exact Keeps.treeStoreNext _ s
    · rfl
  · exact onOutPush_keeps (Keeps.treeStoreNext _) _ s
  · rfl

/-! ### MAGIC_CHECK, DECODE and DECODE_STREAM -/

theorem Keeps.checkMagic {cont : State → State} (hc : Keeps g cont) : Keeps g (checkMagic cont) := by
  intro s
  unfold Machine.checkMagic
  split
  · exact hc s
  · rfl

theorem Keeps.decodeCheck {cont : State → State} (hc : Keeps g cont) : Keeps g fun s => decodeCheck s cont := by
  intro s
  dsimp only [Machine.decodeCheck]
  split
  · rfl
  · split
    · rfl
    · exact hc s

theorem Keeps.descend (b : Bool) {loop : State → State} (hl : Keeps g loop) : Keeps g fun s => descend b s loop := by
  intro s
  dsimp only
  cases h : (s.node (s.child s.cur b)).leaf with
  | true => rw [descend_leaf loop h]; rfl
  | false =>
    rw [descend_inner loop h]
    exact hl { s with cur := s.child s.cur b, dstate := .descending }

theorem Keeps.decodeLoop (hr : IgnoresReader g) (n : Nat) : Keeps g (decodeLoop n) := by
  induction n with
  | zero => exact Keeps.decodeCheck (Keeps.atPoint _)
  | succ n ih => exact Keeps.decodeCheck (Keeps.readBit hr _ fun b => Keeps.descend b ih)

theorem Keeps.decodeBegin (hr : IgnoresReader g) (hs : IgnoresSymcount g) : Keeps g decodeBegin := by
  intro s
  unfold Machine.decodeBegin
  split
  · exact (Keeps.decodeLoop hr _ _).trans (hs s.parts _)
  · rfl

theorem Keeps.decodeInStep (hr : IgnoresReader g) : Keeps g decodeInStep :=
  Keeps.refillBit hr (fun _ => rfl) fun b => Keeps.descend b (Keeps.decodeLoop hr 7)

theorem Keeps.decodeOutStep (hr : IgnoresReader g) (hs : IgnoresSymcount g) : Keeps g decodeOutStep := by
  intro s
  refine onOutPush_keeps (fun s => ?_) _ s
  exact (Keeps.decodeLoop hr _ _).trans (hs s.parts _)

theorem Keeps.decodeStep (hr : IgnoresReader g) (hs : IgnoresSymcount g) : Keeps g decodeStep := by
  intro s
  unfold Machine.decodeStep
  split
  · exact Keeps.decodeBegin hr hs s
  · exact Keeps.decodeInStep hr s
  · exact Keeps.decodeOutStep hr hs s
  · rfl

theorem Keeps.decodeStreamStep (ht : IgnoresTree g) (hr : IgnoresReader g) (hs : IgnoresSymcount g) :
    Keeps g decodeStreamStep := by
  have hd : Keeps g Machine.decodeBegin := Keeps.decodeBegin hr hs
  intro s
  unfold Machine.decodeStreamStep
  split
  · exact Keeps.checkMagic (Keeps.treeLoadBegin ht hr hd) s
  · exact Keeps.treeTagStep ht hd _ s
  · exact Keeps.treeSymStep ht hd _ s
  · exact Keeps.decodeInStep hr s
  · exact Keeps.decodeOutStep hr hs s
  · rfl

/-! ### ENCODE -/

theorem Keeps.putBits (hs : IgnoresSymcount g) (bits : List Bool) : Keeps g (putBits bits) := by
  induction bits with
  | nil => exact fun s => hs s.parts _
  | cons b rest ih =>
    intro s
    unfold Machine.putBits
    dsimp only
    split
    · rfl
    · exact ih { placeBit b s with wpos := (placeBit b s).wpos + 1 }

theorem Keeps.encodeByte (hs : IgnoresSymcount g) (c : Byte) : Keeps g (encodeByte c) := by
  intro s
  unfold Machine.encodeByte
  dsimp only
  split
  · rfl
  · exact Keeps.putBits hs _ s

theorem Keeps.encodeEnd : Keeps g encodeEnd := by
  intro s
  unfold Machine.encodeEnd
  split <;> rfl

theorem Keeps.encodeStep (hr : IgnoresReader g) (hs : IgnoresSymcount g) : Keeps g encodeStep := by
  intro s
  unfold Machine.encodeStep
  split
  · exact (hs { s.parts with reader := (s.brByte, 8) } _).trans (hr s.parts _)
  · exact Keeps.onInPop Keeps.encodeEnd (Keeps.encodeByte hs) s
  · exact onOutPush_keeps (fun s => Keeps.putBits hs _ (clearPacker s)) _ s
  · exact onOutPush_keeps (fun s => Keeps.finish (clearPacker s)) _ s
  · rfl

/-! ### Every instruction -/

/-- An instruction other than CLEAR keeps every quantity that ignores the parts the instruction owns. -/
theorem exec_keeps {i : Instr} {s t : State} (h : exec i s = .next t) (hc : i ≠ .clear)
    (ht : i ∈ [Instr.treeLoad, .decodeStream] → IgnoresTree g)
    (hl : i ∈ [Instr.lutWrite, .lutBuild] → IgnoresTable g)
    (hr : i ∈ [Instr.readBit, .brDiscard, .treeLoad, .encode, .decode, .decodeStream] → IgnoresReader g)
    (hs : i ∈ [Instr.decode, .decodeStream, .encode] → IgnoresSymcount g)
    (hb : i = .readBit → IgnoresBitResult g) : g t.parts = g s.parts := by
  cases i
  case clear => exact absurd rfl hc
  case nop => cases h; exact Keeps.fromStart Keeps.finish s
  case lutWrite => cases h; exact Keeps.fromStart (Keeps.lutWriteBody (hl (by decide))) s
  case lutRead => cases h; exact Keeps.fromStart Keeps.lutReadBody s
  case lutBuild => cases h; exact Keeps.fromStart (Keeps.lutBuildBody (hl (by decide))) s
  case treeLoad => cases h; exact Keeps.treeLoadStep (ht (by decide)) (hr (by decide)) s
  case treeStore => cases h; exact Keeps.treeStoreStep s
  case encode => cases h; exact Keeps.encodeStep (hr (by decide)) (hs (by decide)) s
  case readBit => cases h; exact Keeps.readBitStep (hr (by decide)) (hb rfl) s
  case brDiscard => 
    cases h
    refine Keeps.fromStart ?_ s
    exact fun s => hr (by decide) s.parts _
  case magicCheck => cases h; exact Keeps.fromStart (Keeps.checkMagic Keeps.finish) s
  case decode => cases h; exact Keeps.decodeStep (hr (by decide)) (hs (by decide)) s
  case decodeStream => cases h; exact Keeps.decodeStreamStep (ht (by decide)) (hr (by decide)) (hs (by decide)) s
  case reserved => cases h; exact Keeps.fromStart (Keeps.raise _ _) s
  all_goals exact congrArg g (access_parts rfl h)

end

/-- Settles O58: each of the five parts ignores the other four, so every instruction that does not own it keeps it. -/
theorem onlyTheNamedCommandsChangeTreeTableReader : Obligations.OnlyTheNamedCommandsChangeTreeTableReader := by
  unfold Obligations.OnlyTheNamedCommandsChangeTreeTableReader
  intro i s t h hc
  refine ⟨fun hi => ?_, fun hi => ?_, fun hi => ?_, fun hi => ?_, fun hi => ?_⟩
  · have hk := exec_keeps (g := Parts.tree) h hc (absurd · hi) (fun _ _ _ => rfl) (fun _ _ _ => rfl)
      (fun _ _ _ => rfl) (fun _ _ _ => rfl)
    simpa [State.parts] using hk
  · exact exec_keeps (g := Parts.table) h hc (fun _ _ _ => rfl) (absurd · hi) (fun _ _ _ => rfl)
      (fun _ _ _ => rfl) (fun _ _ _ => rfl)
  · have hk := exec_keeps (g := Parts.reader) h hc (fun _ _ _ => rfl) (fun _ _ _ => rfl) (absurd · hi)
      (fun _ _ _ => rfl) (fun _ _ _ => rfl)
    simpa [State.parts] using hk
  · exact exec_keeps (g := Parts.symcount) h hc (fun _ _ _ => rfl) (fun _ _ _ => rfl) (fun _ _ _ => rfl)
      (absurd · hi) (fun _ _ _ => rfl)
  · have hk := exec_keeps (g := Parts.bitResult) h hc (fun _ _ _ => rfl) (fun _ _ _ => rfl) (fun _ _ _ => rfl)
      (fun _ _ _ => rfl) (absurd · hi)
    simpa [State.parts] using hk

end Sys2Proof.Machine

/-! ## The invariant of the block

`BlockInv` is kept by every step. Between two control points a command does not meet `BlockInv`, which speaks of the
point the engine stands at: there `Inside` holds, with what the running loop needs besides (`Loading`, `Decoding`).
Each operation is followed from such a state to the next control point or to the command's end. -/

namespace Sys2Proof.Machine

/-! ### Inside an engine step -/

/-- What `BlockInv` says of a running command, but for its control point and the bit packer: it holds all through an
engine step. -/
structure Inside (s : State) : Prop where
  inq_le    : s.inq.length ≤ s.inDepth
  outq_le   : s.outq.length ≤ s.outDepth
  lut_wf    : s.lut.wf = true
  lut_codes : ∀ e ∈ s.lut, e.2.ok = true
  arena_le  : s.nodeCount ≤ nodeCap
  stk_le    : s.sp ≤ stackCap
  stk_below : ∀ n ∈ s.stk, n.toNat < s.nodeCount
  nodes     : NodesOk s.arena
  tree      : s.treeValid = true → TreeOk s.arena s.root
  done      : s.done = false
  err       : s.err = false
  errcode   : s.errcode = .none
  errpos    : s.errpos = 0

/-- The bit packer holds no bit (10_state.md R58). -/
def PackerEmpty (s : State) : Prop := s.wbyte = 0 ∧ s.wpos = 0

theorem BlockInv.inside {s : State} {p : Point} (h : BlockInv s) (he : s.engine = .running p) : Inside s := by
  obtain ⟨hd, herr⟩ := h.running (busy_eq_true.2 ⟨p, he⟩)
  exact { h with done := hd, err := herr, errcode := h.code.2 herr, errpos := h.pos herr }

/-- At a control point of the latched command a state inside an engine step meets the invariant. -/
theorem BlockInv.of_running {s : State} {i : Instr} {p : Point} (h : Inside s) (he : s.engine = .running p)
    (hc : decodeCommand s.cmdword = i) (hp : PointOk i s p) (hw : PackerOk s) : BlockInv s where
  inq_le := h.inq_le
  outq_le := h.outq_le
  lut_wf := h.lut_wf
  lut_codes := h.lut_codes
  arena_le := h.arena_le
  stk_le := h.stk_le
  stk_below := h.stk_below
  nodes := h.nodes
  tree := h.tree
  ends := by simp [h.done]
  code := by simp [h.errcode, h.err]
  pos _ := h.errpos
  running _ := ⟨h.done, h.err⟩
  point q hq := by
    cases he.symm.trans hq
    exact hc ▸ hp
  packer := hw

theorem Inside.finish {s : State} (h : Inside s) (hw : PackerEmpty s) : BlockInv (finish s) :=
  { h with
    ends := by simp [h.err]
    code := by simp [h.errcode, h.err]
    pos := fun _ => h.errpos
    running := by simp
    point := by simp
    packer := hw }

theorem Inside.raise {s : State} {e : ErrCode} (h : Inside s) (hw : PackerEmpty s) (he : e ≠ .none) (pos : Word) :
    BlockInv (raise e pos s) :=
  { h with
    ends := by simp [h.done]
    code := by simp [he]
    pos := by simp
    running := by simp
    point := by simp
    packer := hw }

/-- Outside ENCODE the packer is empty. -/
theorem BlockInv.packerEmpty {s : State} {p : Point} (h : BlockInv s) (he : s.engine = .running p)
    (hp : p ≠ .encIn ∧ (∀ rest, p ≠ .encOut rest) ∧ p ≠ .encFlush) : PackerEmpty s := by
  obtain ⟨h1, h2, h3⟩ := hp
  have hk := h.packer
  unfold PackerOk at hk
  rw [he] at hk
  cases p
  case encIn => exact absurd rfl h1
  case encOut rest => exact absurd rfl (h2 rest)
  case encFlush => exact absurd rfl h3
  all_goals exact hk

theorem Inside.takeByte {s : State} {b : Byte} {q : List Byte} (h : Inside s) (hq : s.inq = b :: q) :
    Inside { s with inq := q } :=
  { h with
    inq_le := by
      have := h.inq_le
      rw [hq, List.length_cons] at this
      exact Nat.le_of_succ_le this }

theorem Inside.putByte {s : State} (h : Inside s) (hr : s.outq.length < s.outDepth) (b : Byte) :
    Inside { s with outq := s.outq ++ [b], outbytes := s.outbytes + 1 } :=
  { h with outq_le := by simpa [State.outDepth] using hr }

/-- A command without control points keeps the invariant when its one step does. -/
theorem BlockInv.fromStart {s : State} {f : State → State} (h : BlockInv s)
    (hf : Inside s → PackerEmpty s → BlockInv (f s)) : BlockInv (fromStart f s) := by
  rcases fromStart_cases f s with ⟨he, e⟩ | ⟨_, e⟩ <;> rw [e]
  · exact hf (h.inside he) (h.packerEmpty he (by simp))
  · exact h

/-! ### The code table (10_state.md R55) -/

/-- The table is in canonical form with every entry of its form. -/
def TableOk (t : CodeTable) : Prop := t.wf = true ∧ ∀ e ∈ t, e.2.ok = true

theorem TableOk.nil : TableOk [] := ⟨rfl, by simp⟩

theorem TableOk.set {t : CodeTable} {c : Code} (h : TableOk t) (hc : c.ok = true) (k : Byte) : TableOk (t.set k c) := by
  refine ⟨CodeTable.wf_set k c h.1, fun e he => ?_⟩
  rcases CodeTable.mem_set he with he | ⟨rfl, _⟩
  · exact h.2 e he
  · exact hc

theorem Inside.withTable {s : State} {t : CodeTable} (h : Inside s) (ht : TableOk t) : Inside { s with lut := t } :=
  { h with lut_wf := ht.1, lut_codes := ht.2 }

theorem Code.ok_iff {c : Code} : c.ok = true ↔ c.len.toNat ≤ 256 ∧ c.bits = c.bits &&& mask c.len.toNat := by
  simp [Code.ok]

/-- A masked code is of the entries' form (41_code_table.md R225). -/
theorem Code.ok_masked {len : BitVec 9} (h : len.toNat ≤ 256) (bits : BitVec 256) :
    Code.ok ⟨len, bits &&& mask len.toNat⟩ = true := by
  rw [Code.ok_iff]
  exact ⟨h, by rw [BitVec.and_assoc, BitVec.and_self]⟩

/-- A path of at most 256 steps is a code of the entries' form (41_code_table.md R240). -/
theorem Code.ok_ofPath {path : List Bool} (h : path.length ≤ 256) : (Code.ofPath path).ok = true := by
  have hl : (Code.ofPath path).len.toNat = path.length := by
    rw [Code.ofPath, BitVec.toNat_ofNat]
    exact Nat.mod_eq_of_lt (by omega)
  rw [Code.ok_iff, hl]
  refine ⟨h, BitVec.eq_of_getLsbD_eq fun i hi => ?_⟩
  rw [BitVec.getLsbD_and, mask_getLsbD]
  rcases Nat.lt_or_ge i path.length with h1 | h1
  · simp [hi, h1]
  · simp [Code.ofPath, h1]

theorem lutWriteBody_inv {s : State} (h : Inside s) (hw : PackerEmpty s) : BlockInv (lutWriteBody s) := by
  unfold lutWriteBody
  split
  · next hl => exact (h.withTable (TableOk.set ⟨h.lut_wf, h.lut_codes⟩ (Code.ok_masked hl _) _)).finish hw
  · exact h.raise hw (by simp) _

/-! ### Nodes below NODE_COUNT, and the depth of a held tree -/

theorem node_getElem? {s : State} {i : NodeIdx} (h : i.toNat < s.nodeCount) :
    s.arena[i.toNat]? = some (s.node i) := by
  rw [State.node, List.getD_eq_getElem?_getD, List.getElem?_eq_getElem h]
  rfl

theorem NodesOk.child_lt {s : State} {i : NodeIdx} (h : NodesOk s.arena) (hi : i.toNat < s.nodeCount)
    (hl : (s.node i).leaf = false) (b : Bool) : (s.child i b).toNat < i.toNat := by
  have hb := h.below _ _ (node_getElem? hi) hl
  cases b
  · exact hb.1
  · exact hb.2

/-- How many interior nodes stand at or above index `i`. -/
def innerFrom (a : List Node) (i : Nat) : Nat := (a.drop i).countP fun n => !n.leaf

theorem innerFrom_mono {a : List Node} {i j : Nat} (h : i ≤ j) : innerFrom a j ≤ innerFrom a i :=
  (List.drop_sublist_drop_left a h).countP_le

/-- An interior node counts itself. -/
theorem innerFrom_inner {s : State} {i : NodeIdx} (hi : i.toNat < s.nodeCount) (hl : (s.node i).leaf = false) :
    innerFrom s.arena i.toNat = innerFrom s.arena (i.toNat + 1) + 1 := by
  have hn := node_getElem? hi
  rw [List.getElem?_eq_getElem hi, Option.some.injEq] at hn
  rw [innerFrom, List.drop_eq_getElem_cons hi, List.countP_cons, hn, hl]
  rfl

/-- A complete tree has at most 255 interior nodes. -/
theorem TreeOk.innerFrom_le {a : List Node} {root : NodeIdx} (h : TreeOk a root) (hl : a.length ≤ nodeCap) (i : Nat) :
    innerFrom a i ≤ 255 := by
  have h0 : innerFrom a i ≤ innerFrom a 0 := innerFrom_mono (Nat.zero_le i)
  have hs : a.length = leafCount a + innerFrom a 0 := by
    simpa [leafCount, innerFrom] using List.length_eq_countP_add_countP (fun n : Node => n.leaf) (l := a)
  have := h.count
  simp only [nodeCap] at hl
  omega

/-- The walk from a node that lies no deeper than there are interior nodes above it records codes of the entries' form:
a step down leaves one more interior node above. -/
theorem codeWalk_ok {s : State} (hn : NodesOk s.arena) (hd : ∀ i, innerFrom s.arena i ≤ 255) (fuel : Nat) :
    ∀ {i : NodeIdx} {path : List Bool} {t : CodeTable}, i.toNat < s.nodeCount →
      path.length ≤ innerFrom s.arena (i.toNat + 1) → TableOk t → TableOk (codeWalk s fuel i path t) := by
  induction fuel with
  | zero => exact fun _ _ ht => ht
  | succ fuel ih =>
    intro i path t hi hp ht
    unfold codeWalk
    dsimp only
    cases hl : (s.node i).leaf with
    | true =>
      rw [if_pos rfl]
      have := hd (i.toNat + 1)
      exact ht.set (Code.ok_ofPath (by omega)) _
    | false =>
      rw [if_neg (by simp)]
      have hstep : ∀ b {t}, TableOk t → TableOk (codeWalk s fuel (s.child i b) (path ++ [b]) t) := by
        intro b t ht
        have hc := hn.child_lt hi hl b
        have hm : innerFrom s.arena i.toNat ≤ innerFrom s.arena ((s.child i b).toNat + 1) := innerFrom_mono hc
        have he := innerFrom_inner hi hl
        refine ih (by omega) ?_ ht
        simp only [List.length_append, List.length_singleton]
        omega
      exact hstep true (hstep false ht)

theorem TreeOk.root_lt {a : List Node} {root : NodeIdx} (h : TreeOk a root) : root.toNat < a.length := by
  have := h.root_last
  omega

theorem lutBuildBody_inv {s : State} (h : Inside s) (hw : PackerEmpty s) : BlockInv (lutBuildBody s) := by
  unfold lutBuildBody
  split
  · next hv =>
    have ht := h.tree hv
    split
    · exact h.raise hw (by simp) _
    · have hd := ht.innerFrom_le h.arena_le
      exact (h.withTable (codeWalk_ok h.nodes hd _ ht.root_lt (Nat.zero_le _) TableOk.nil)).finish hw
  · exact h.raise hw (by simp) _

/-! ### NOP, CLEAR, LUT_READ, BR_DISCARD and READ_BIT -/

theorem lutReadBody_inv {s : State} (h : Inside s) (hw : PackerEmpty s) : BlockInv (lutReadBody s) :=
  Inside.finish { h with } hw

theorem clear_inv {s : State} (h : Inside s) : BlockInv (finish (clearState s)) :=
  Inside.finish
    { h with
      lut_wf := rfl, lut_codes := by simp [clearState], arena_le := by simp [clearState, State.nodeCount]
      stk_le := by simp [clearState, State.sp], stk_below := by simp [clearState], nodes := NodesOk.nil
      tree := by simp [clearState] } ⟨rfl, rfl⟩

theorem brDiscard_inv {s : State} (h : Inside s) (hw : PackerEmpty s) : BlockInv (finish { s with brPos := 8 }) :=
  Inside.finish { h with } hw

theorem readBitStep_inv {s : State} (h : BlockInv s) (hc : decodeCommand s.cmdword = .readBit) :
    BlockInv (readBitStep s) := by
  unfold readBitStep
  split
  · next he =>
    have hi := h.inside he
    have hw := h.packerEmpty he (by simp)
    rcases readBit_cases .bitIn s bitRead with ⟨h8, e⟩ | ⟨_, e⟩ <;> rw [e]
    · exact BlockInv.of_running (p := .bitIn) { hi with } rfl hc ⟨rfl, h8, h.point _ he⟩ hw
    · exact Inside.finish { hi with } hw
  · next he =>
    have hi := h.inside he
    have hw := h.packerEmpty he (by simp)
    rcases refillBit_cases s bitAtEos bitRead with ⟨b, q, hq, e⟩ | ⟨_, _, e⟩ | ⟨_, _, e⟩ <;> rw [e]
    · exact Inside.finish { hi.takeByte hq with } hw
    · exact Inside.finish { hi with } hw
    · exact h
  · exact h

/-! ### TREE_LOAD (42_tree_codec.md R262) -/

/-- Inside TREE_LOAD's loop, as the command `i`: no tree is held, nothing was pushed out, and the arena is a forest. -/
structure Loading (i : Instr) (s : State) : Prop where
  inside    : Inside s
  packer    : PackerEmpty s
  latched   : decodeCommand s.cmdword = i
  invalid   : s.treeValid = false
  no_output : s.outbytes = 0
  forest    : Forest s.arena s.stk

/-- What runs after a complete tree keeps the invariant. -/
def Continues (i : Instr) (loaded : State → State) : Prop :=
  ∀ s, Inside s → PackerEmpty s → decodeCommand s.cmdword = i → s.treeValid = true → s.outbytes = 0 →
    BlockInv (loaded s)

theorem Continues.finish (i : Instr) : Continues i finish := fun _ h hw _ _ _ => h.finish hw

/-- Another arena and stack within their bounds, while no tree is held. -/
theorem Inside.withForest {s : State} (h : Inside s) (hv : s.treeValid = false) {a : List Node} {stk : List NodeIdx}
    (ha : a.length ≤ 511) (hs : stk.length ≤ 256) (hb : ∀ n ∈ stk, n.toNat < a.length) (hn : NodesOk a) :
    Inside { s with arena := a, stk := stk } :=
  { h with
    arena_le := ha, stk_le := hs, stk_below := hb, nodes := hn
    tree := fun hv' => absurd (hv.symm.trans hv') (by simp) }

theorem Inside.arena_lt {s : State} (h : Inside s) (hc : s.nodeCount ≠ nodeCap) : s.arena.length < 511 :=
  Nat.lt_of_le_of_ne h.arena_le hc

theorem Inside.stk_lt {s : State} (h : Inside s) (hc : s.sp ≠ stackCap) : s.stk.length < 256 :=
  Nat.lt_of_le_of_ne h.stk_le hc

/-- A stack of old items and the new node is below the new NODE_COUNT. -/
theorem below_push {a : List Node} {stk : List NodeIdx} (h : ∀ n ∈ stk, n.toNat < a.length) (hl : a.length < 511)
    (x : Node) : ∀ n ∈ BitVec.ofNat 9 a.length :: stk, n.toNat < (a ++ [x]).length := by
  intro n hn
  rw [List.length_append, List.length_singleton]
  rcases List.mem_cons.1 hn with rfl | hn
  · rw [toNat_index hl]
    exact Nat.lt_succ_self _
  · exact Nat.lt_succ_of_lt (h n hn)

theorem Loading.takeByte {i : Instr} {s : State} {b : Byte} {q : List Byte} (h : Loading i s) (hq : s.inq = b :: q) :
    Loading i { s with inq := q } :=
  { h with inside := h.inside.takeByte hq }

section
variable {i : Instr} {loaded : State → State}

theorem treeLoadLoop_inv (hi : i = .treeLoad ∨ i = .decodeStream) (hl : Continues i loaded) {s : State}
    (h : Loading i s) (k : Nat) : BlockInv (treeLoadLoop loaded k s) := by
  have hin := h.inside
  rcases treeLoadLoop_cases loaded k s with ⟨hk, e⟩ | ⟨_, r, hr, e⟩ | ⟨_, _, e⟩ <;> rw [e]
  · exact BlockInv.of_running (p := .treeTag k) { hin with } rfl h.latched
      ⟨hi, hk, h.invalid, h.no_output, h.forest⟩ h.packer
  · have hf := h.forest
    rw [hr] at hf
    exact hl _ { hin with
      stk_le := by simp [State.sp], stk_below := by simp, tree := fun _ => hf.tree } h.packer h.latched rfl h.no_output
  · exact hin.raise h.packer (by simp) _

theorem treeLoadBegin_inv (hi : i = .treeLoad ∨ i = .decodeStream) (hl : Continues i loaded) {s : State}
    (h : Inside s) (hw : PackerEmpty s) (hc : decodeCommand s.cmdword = i) (ho : s.outbytes = 0) :
    BlockInv (treeLoadBegin loaded s) := by
  refine treeLoadLoop_inv hi hl (s := { s with brPos := 8, treeValid := false, arena := [], root := 0, stk := [] })
    ⟨?_, hw, hc, rfl, ho, Forest.nil⟩ 0
  exact { h with
    arena_le := by simp [State.nodeCount], stk_le := by simp [State.sp], stk_below := by simp
    nodes := NodesOk.nil, tree := by simp }

/-- A tag (R262): a Leaf's symbol is next, or two items are joined under a new interior node, or the tag, the stack or
the arena does not allow it. -/
theorem treeTagStep_inv (hi : i = .treeLoad ∨ i = .decodeStream) (hl : Continues i loaded) {s : State}
    (hs : BlockInv s) (h : Loading i s) {k : Nat} (hk : k < s.treeLen) : BlockInv (treeTagStep loaded k s) := by
  have hb := h.inside.stk_below
  have hsl := h.inside.stk_le
  rcases treeTagStep_cases loaded k s with ⟨_, _, e⟩ | ⟨_, _, e⟩ | ⟨b, q, hq, hcases⟩
  · rwa [e]
  · rw [e]; exact h.inside.raise h.packer (by simp) _
  have hp := h.takeByte hq
  have hpi := hp.inside
  rcases hcases with ⟨_, _, e⟩ | ⟨_, hk1, e⟩ | ⟨_, _, e⟩ | ⟨r, l, rest, _, hst, hj⟩ | ⟨_, _, e⟩
  · rw [e]; exact hpi.raise h.packer (by simp) _
  · rw [e]
    exact BlockInv.of_running (p := .treeSym k) { hpi with } rfl h.latched
      ⟨hi, Nat.lt_of_le_of_ne hk hk1, h.invalid, h.no_output, h.forest⟩ h.packer
  · rw [e]
    exact Inside.raise (hpi.withForest h.invalid (stk := []) hpi.arena_le (by simp) (by simp) hpi.nodes)
      h.packer (by simp) _
  · rw [hst] at hb
    have hrest : ∀ n ∈ rest, n.toNat < s.arena.length := fun n hn => hb n (by simp [hn])
    have hlen : rest.length + 1 + 1 ≤ 256 := by
      rw [State.sp, hst] at hsl
      exact hsl
    have hnodes := h.inside.nodes.interior (l := l) (r := r) (hb l (by simp)) (hb r (by simp))
    rcases hj with ⟨_, e⟩ | ⟨_, hfull, _⟩ | ⟨hn, _, e⟩
    · rw [e]
      exact Inside.raise (hpi.withForest h.invalid (stk := rest) hpi.arena_le (by omega) hrest hpi.nodes)
        h.packer (by simp) _
    · simp only [stackCap] at hfull
      omega
    · rw [e]
      have hlt := h.inside.arena_lt hn
      have hf := h.forest
      rw [hst] at hf
      refine treeLoadLoop_inv hi hl { hp with
        inside := hpi.withForest h.invalid ?_ ?_ (below_push hrest hlt _) hnodes
        forest := hf.interior h.inside.nodes hb hlt } (k + 1)
      · rw [List.length_append, List.length_singleton]; omega
      · rw [List.length_cons]; omega
  · rw [e]; exact hpi.raise h.packer (by simp) _

/-- The symbol of a Leaf token (R262): the new leaf is pushed, or the arena or the stack is full. -/
theorem treeSymStep_inv (hi : i = .treeLoad ∨ i = .decodeStream) (hl : Continues i loaded) {s : State}
    (hs : BlockInv s) (h : Loading i s) (k : Nat) : BlockInv (treeSymStep loaded k s) := by
  have hb := h.inside.stk_below
  rcases treeSymStep_cases loaded k s with ⟨_, _, e⟩ | ⟨_, _, e⟩ | ⟨b, q, hq, hcases⟩
  · rwa [e]
  · rw [e]; exact h.inside.raise h.packer (by simp) _
  have hp := h.takeByte hq
  have hpi := hp.inside
  have hnodes := h.inside.nodes.leaf b
  rcases hcases with ⟨_, e⟩ | ⟨hn, _, e⟩ | ⟨hn, hsp, e⟩ <;> rw [e]
  · exact hpi.raise h.packer (by simp) _
  · have hlt := h.inside.arena_lt hn
    refine Inside.raise (hpi.withForest h.invalid (stk := s.stk) ?_ hpi.stk_le ?_ hnodes) h.packer (by simp) _
    · rw [List.length_append, List.length_singleton]; omega
    · exact fun n hn => below_push hb hlt _ n (List.mem_cons_of_mem _ hn)
  · have hlt := h.inside.arena_lt hn
    have hslt := h.inside.stk_lt hsp
    refine treeLoadLoop_inv hi hl { hp with
      inside := hpi.withForest h.invalid ?_ ?_ (below_push hb hlt _) hnodes
      forest := h.forest.leaf h.inside.nodes hb hlt b } (k + 2)
    · rw [List.length_append, List.length_singleton]; omega
    · rw [List.length_cons]; omega

/-- TREE_LOAD's loop is entered from its control points. -/
theorem Loading.of_point {s : State} {p : Point} (hs : BlockInv s) (he : s.engine = .running p)
    (hc : decodeCommand s.cmdword = i) (hp : p ≠ .encIn ∧ (∀ rest, p ≠ .encOut rest) ∧ p ≠ .encFlush)
    (hv : s.treeValid = false) (ho : s.outbytes = 0) (hf : Forest s.arena s.stk) : Loading i s :=
  ⟨hs.inside he, hs.packerEmpty he hp, hc, hv, ho, hf⟩

end

theorem treeLoadStep_inv {s : State} (h : BlockInv s) (hc : decodeCommand s.cmdword = .treeLoad) :
    BlockInv (treeLoadStep s) := by
  have hl := Continues.finish .treeLoad
  unfold treeLoadStep
  split
  · next he => exact treeLoadBegin_inv (.inl rfl) hl (h.inside he) (h.packerEmpty he (by simp)) hc (h.point _ he)
  · next k he =>
    obtain ⟨_, hk, hv, ho, hf⟩ := h.point _ he
    exact treeTagStep_inv (.inl rfl) hl h (.of_point h he hc (by simp) hv ho hf) hk
  · next k he =>
    obtain ⟨_, _, hv, ho, hf⟩ := h.point _ he
    exact treeSymStep_inv (.inl rfl) hl h (.of_point h he hc (by simp) hv ho hf) k
  · exact h

/-! ### TREE_STORE (42_tree_codec.md R280) -/

theorem treeStoreNext_inv {s : State} (bytes : List Byte) (h : Inside s) (hw : PackerEmpty s)
    (hc : decodeCommand s.cmdword = .treeStore) (hv : s.treeValid = true) : BlockInv (treeStoreNext bytes s) := by
  cases bytes with
  | nil => exact h.finish hw
  | cons b rest => exact BlockInv.of_running (p := .treeOut b rest) { h with } rfl hc ⟨rfl, hv⟩ hw

theorem treeStoreStep_inv {s : State} (h : BlockInv s) (hc : decodeCommand s.cmdword = .treeStore) :
    BlockInv (treeStoreStep s) := by
  unfold treeStoreStep
  split
  · next he =>
    have hw := h.packerEmpty he (by simp)
    split
    · next hv => exact treeStoreNext_inv _ (h.inside he) hw hc hv
    · exact (h.inside he).raise hw (by simp) _
  · next b rest he =>
    rcases onOutPush_cases b s (treeStoreNext rest) with ⟨hr, e⟩ | ⟨_, e⟩ <;> rw [e]
    · obtain ⟨_, hv⟩ := h.point _ he
      exact treeStoreNext_inv rest ((h.inside he).putByte hr b) (h.packerEmpty he (by simp)) hc hv
    · exact h
  · exact h

/-! ### DECODE and DECODE_STREAM (45_decoder.md R365, R380) -/

/-- At the head of DECODE's loop: the current node is one of the held tree, and at most FILE_SIZE symbols are out. -/
structure Decoding (s : State) : Prop where
  inside     : Inside s
  packer     : PackerEmpty s
  latched    : decodeCommand s.cmdword = .decode ∨ decodeCommand s.cmdword = .decodeStream
  valid      : s.treeValid = true
  cur_lt     : s.cur.toNat < s.nodeCount
  le_n       : s.symcount.toNat ≤ s.fileSize.toNat
  counted    : s.outbytes = s.symcount
  not_done   : s.dstate ≠ .done
  root_inner : (s.node s.cur).leaf = false → (s.node s.root).leaf = false

/-- A walk through interior nodes stays in the arena. -/
theorem walk_lt {s : State} (hn : NodesOk s.arena) (bits : List Bool) : ∀ {i : NodeIdx}, i.toNat < s.nodeCount →
    Inner s i bits → (s.walk i bits).toNat < s.nodeCount := by
  induction bits with
  | nil => exact fun hi _ => hi
  | cons b bits ih =>
    intro i hi hin
    have hc := hn.child_lt hi (hin 0 (by simp)) b
    exact ih (hc.trans hi) fun k hk => hin (k + 1) (by simpa using hk)

theorem lt_of_symcount_ne {s : State} (h : s.symcount.toNat ≤ s.fileSize.toNat) (hne : s.symcount ≠ s.fileSize) :
    s.symcount.toNat < s.fileSize.toNat :=
  Nat.lt_of_le_of_ne h fun e => hne (BitVec.eq_of_toNat_eq e)

/-- DECODE's loop, entered anywhere in the held tree, stops at a control point or ends the command. -/
theorem Decoding.loop {s : State} (h : Decoding s) : BlockInv (decodeLoop (bufferedBits s) s) := by
  have hin := h.inside
  rcases decodeLoop_cases s with ⟨_, e⟩ | ⟨_, _, e⟩ | ⟨hne, hl, pos, bits, ds, hw, hds, hstop⟩
  · rw [e]; exact Inside.finish { hin with } h.packer
  · rw [e]; exact hin.raise h.packer (by simp) _
  have hds' : ds ≠ .done := by
    rcases hds with rfl | rfl
    · exact h.not_done
    · simp
  have hd : ∀ en, DecodeOk { s with brPos := pos, cur := s.walk s.cur bits, dstate := ds, engine := en } := fun en =>
    { h with
      cur_lt := walk_lt hin.nodes bits h.cur_lt hw
      below_n := lt_of_symcount_ne h.le_n hne
      not_done := hds'
      root_inner := h.root_inner hl }
  rcases hstop with ⟨h8, hleaf, e⟩ | ⟨hleaf, e⟩ <;> rw [e]
  · exact BlockInv.of_running (p := .decodeIn) { hin with } rfl rfl ⟨h.latched, h8, hleaf, hd _⟩ h.packer
  · exact BlockInv.of_running (p := .decodeOut) { hin with } rfl rfl ⟨h.latched, hleaf, hd _⟩ h.packer

theorem decodeBegin_inv {s : State} (h : Inside s) (hw : PackerEmpty s)
    (hc : decodeCommand s.cmdword = .decode ∨ decodeCommand s.cmdword = .decodeStream) (ho : s.outbytes = 0) :
    BlockInv (decodeBegin s) := by
  unfold decodeBegin
  split
  · next hv =>
    exact Decoding.loop (s := { s with symcount := 0, cur := s.root, dstate := .atRoot })
      ⟨{ h with }, hw, hc, hv, (h.tree hv).root_lt, Nat.zero_le _, ho, by simp, id⟩
  · exact h.raise hw (by simp) _

theorem Continues.decodeBegin : Continues .decodeStream decodeBegin :=
  fun _ h hw hc _ ho => decodeBegin_inv h hw (.inr hc) ho

/-- The step at DECODE's InPop: one level down with the first bit of the new byte, to a leaf's OutPush or back to the
loop; DECODE_EOS; or no step. -/
theorem decodeInStep_cases (s : State) :
    (∃ b q, s.inq = b :: q ∧
      (((s.node (s.child s.cur (b.getLsbD 0))).leaf = true ∧ decodeInStep s = { s with
          inq := q, brByte := b, brPos := 1, cur := s.child s.cur (b.getLsbD 0), engine := .running .decodeOut }) ∨
       ∃ u : State, (s.node (s.child s.cur (b.getLsbD 0))).leaf = false ∧ u = { s with
          inq := q, brByte := b, brPos := 1, cur := s.child s.cur (b.getLsbD 0), dstate := .descending } ∧
          decodeInStep s = decodeLoop (bufferedBits u) u)) ∨
    (s.inq = [] ∧ s.inEos = true ∧ decodeInStep s = raise .decodeEos (s.dstate.code.setWidth 32) s) ∨
    (s.inq = [] ∧ s.inEos = false ∧ decodeInStep s = s) := by
  unfold decodeInStep
  rcases refillBit_cases s (fun s => raise .decodeEos (s.dstate.code.setWidth 32) s)
    (fun b s => descend b s (decodeLoop 7)) with ⟨b, q, hq, e⟩ | h | h
  · refine .inl ⟨b, q, hq, ?_⟩
    rw [e]
    cases hl : (s.node (s.child s.cur (b.getLsbD 0))).leaf with
    | true => exact .inl ⟨rfl, descend_leaf _ hl⟩
    | false => exact .inr ⟨_, rfl, rfl, descend_inner _ hl⟩
  · exact .inr (.inl h)
  · exact .inr (.inr h)

theorem decodeInStep_inv {s : State} (h : BlockInv s) (he : s.engine = .running .decodeIn) :
    BlockInv (decodeInStep s) := by
  have hw := h.packerEmpty he (by simp)
  obtain ⟨hc, h8, hl, hd⟩ := h.point _ he
  have hlt := fun b => (h.nodes.child_lt hd.cur_lt hl b).trans hd.cur_lt
  rcases decodeInStep_cases s with ⟨b, q, hq, hcases⟩ | ⟨_, _, e⟩ | ⟨_, _, e⟩
  · have hin := (h.inside he).takeByte hq
    rcases hcases with ⟨hleaf, e⟩ | ⟨u, hleaf, rfl, e⟩ <;> rw [e]
    · exact BlockInv.of_running (p := .decodeOut) { hin with } rfl rfl
        ⟨hc, hleaf, { hd with cur_lt := hlt _ }⟩ hw
    · exact Decoding.loop { hd with
        inside := { hin with }, packer := hw, latched := hc, cur_lt := hlt _, le_n := hd.below_n.le
        not_done := by simp, root_inner := fun _ => hd.root_inner }
  · rw [e]; exact (h.inside he).raise hw (by simp) _
  · rwa [e]

theorem decodeOutStep_inv {s : State} (h : BlockInv s) (he : s.engine = .running .decodeOut) :
    BlockInv (decodeOutStep s) := by
  unfold decodeOutStep
  rcases onOutPush_cases (s.node s.cur).sym s (fun s =>
    decodeLoop (bufferedBits s) { s with symcount := s.symcount + 1, cur := s.root, dstate := .atRoot })
    with ⟨hr, e⟩ | ⟨_, e⟩ <;> rw [e]
  · obtain ⟨hc, _, hd⟩ := h.point _ he
    refine Decoding.loop (s := { s with
        outq := s.outq ++ [(s.node s.cur).sym], outbytes := s.outbytes + 1, symcount := s.symcount + 1
        cur := s.root, dstate := .atRoot }) { hd with
      inside := { (h.inside he).putByte hr (s.node s.cur).sym with }, packer := h.packerEmpty he (by simp)
      latched := hc, cur_lt := (h.tree hd.valid).root_lt, le_n := ?_, counted := ?_, not_done := by simp
      root_inner := fun _ => hd.root_inner }
    · have := hd.below_n
      show (s.symcount + 1).toNat ≤ s.fileSize.toNat
      bv_omega
    · exact congrArg (· + 1) hd.counted
  · exact h

theorem decodeStep_inv {s : State} (h : BlockInv s) (hc : decodeCommand s.cmdword = .decode) :
    BlockInv (decodeStep s) := by
  unfold decodeStep
  split
  · next he => exact decodeBegin_inv (h.inside he) (h.packerEmpty he (by simp)) (.inl hc) (h.point _ he)
  · next he => exact decodeInStep_inv h he
  · next he => exact decodeOutStep_inv h he
  · exact h

theorem checkMagic_inv {s : State} {cont : State → State} (h : Inside s) (hw : PackerEmpty s)
    (hk : BlockInv (cont s)) : BlockInv (checkMagic cont s) := by
  unfold checkMagic
  split
  · exact hk
  · exact h.raise hw (by simp) _

theorem decodeStreamStep_inv {s : State} (h : BlockInv s) (hc : decodeCommand s.cmdword = .decodeStream) :
    BlockInv (decodeStreamStep s) := by
  have hl := Continues.decodeBegin
  unfold decodeStreamStep
  split
  · next he =>
    have hi := h.inside he
    have hw := h.packerEmpty he (by simp)
    exact checkMagic_inv hi hw (treeLoadBegin_inv (.inr rfl) hl hi hw hc (h.point _ he))
  · next k he =>
    obtain ⟨_, hk, hv, ho, hf⟩ := h.point _ he
    exact treeTagStep_inv (.inr rfl) hl h (.of_point h he hc (by simp) hv ho hf) hk
  · next k he =>
    obtain ⟨_, _, hv, ho, hf⟩ := h.point _ he
    exact treeSymStep_inv (.inr rfl) hl h (.of_point h he hc (by simp) hv ho hf) k
  · next he => exact decodeInStep_inv h he
  · next he => exact decodeOutStep_inv h he
  · exact h

/-! ### ENCODE (43_encoder_bitpacker.md R301, R303) -/

/-- Bits put above those of the packer's byte leave none at or above their end. -/
theorem placed_lt {b : Byte} {pos : Nat} {bits : List Bool} (hb : b.toNat < 2 ^ pos) :
    (placed b pos bits).toNat < 2 ^ (pos + bits.length) := by
  refine Nat.lt_pow_two_of_testBit _ fun i hi => ?_
  rw [BitVec.testBit_toNat]
  rcases Nat.lt_or_ge i 8 with h8 | h8
  · have hbi : b.getLsbD i = false := by
      rw [← BitVec.testBit_toNat]
      exact Nat.testBit_lt_two_pow (hb.trans_le (Nat.pow_le_pow_right (by simp) (by omega)))
    rw [placed_getLsbD _ _ _ h8, hbi, List.getD_eq_getElem?_getD, List.getElem?_eq_none (by omega)]
    simp
  · exact BitVec.getLsbD_of_ge _ _ h8

theorem putBits_inv {s : State} (h : Inside s) (hc : decodeCommand s.cmdword = .encode)
    (hb : s.wbyte.toNat < 2 ^ s.wpos.val) (bits : List Bool) : BlockInv (putBits bits s) := by
  obtain ⟨hfit, hfull⟩ := putBits_placed bits s
  rcases Nat.lt_or_ge (s.wpos.val + bits.length) 8 with hlt | hge
  · rw [hfit hlt]
    refine BlockInv.of_running (p := .encIn) { h with } rfl hc rfl ?_
    show (placed s.wbyte s.wpos.val bits).toNat < 2 ^ ((s.wpos.val + bits.length) % 8)
    rw [Nat.mod_eq_of_lt hlt]
    exact placed_lt hb
  · rw [hfull hge]
    exact BlockInv.of_running (p := .encOut _) { h with } rfl hc ⟨rfl, rfl⟩ trivial

theorem Inside.clearPacker {s : State} (h : Inside s) : Inside (clearPacker s) := { h with }

/-- The empty packer holds no bit at or above WPOS. -/
theorem clearPacker_below (s : State) : (clearPacker s).wbyte.toNat < 2 ^ (clearPacker s).wpos.val := Nat.one_pos

theorem encodeByte_inv {s : State} (h : Inside s) (hc : decodeCommand s.cmdword = .encode)
    (hb : s.wbyte.toNat < 2 ^ s.wpos.val) (c : Byte) : BlockInv (encodeByte c s) := by
  unfold encodeByte
  dsimp only
  split
  · exact h.clearPacker.raise ⟨rfl, rfl⟩ (by simp) _
  · exact putBits_inv h hc hb _

theorem encodeEnd_inv {s : State} (h : Inside s) (hc : decodeCommand s.cmdword = .encode)
    (hb : s.wbyte.toNat < 2 ^ s.wpos.val) : BlockInv (encodeEnd s) := by
  unfold encodeEnd
  split
  · next h0 =>
    have hz : s.wbyte.toNat < 1 := by simpa [h0] using hb
    exact h.finish ⟨BitVec.eq_of_toNat_eq (Nat.lt_one_iff.1 hz), h0⟩
  · next h0 => exact BlockInv.of_running (p := .encFlush) { h with } rfl hc ⟨rfl, h0⟩ hb

theorem encodeStep_inv {s : State} (h : BlockInv s) (hc : decodeCommand s.cmdword = .encode) :
    BlockInv (encodeStep s) := by
  unfold encodeStep
  split
  · next he => exact BlockInv.of_running (p := .encIn) { h.inside he with } rfl hc rfl (clearPacker_below s)
  · next he =>
    have hb : s.wbyte.toNat < 2 ^ s.wpos.val := by simpa [PackerOk, he] using h.packer
    rcases onInPop_cases s encodeEnd encodeByte with ⟨b, q, hq, e⟩ | ⟨_, _, e⟩ | ⟨_, _, e⟩ <;> rw [e]
    · exact encodeByte_inv ((h.inside he).takeByte hq) hc hb b
    · exact encodeEnd_inv (h.inside he) hc hb
    · exact h
  · next rest he =>
    rcases onOutPush_cases s.wbyte s (fun s => putBits rest (clearPacker s)) with ⟨hr, e⟩ | ⟨_, e⟩ <;> rw [e]
    · exact putBits_inv ((h.inside he).putByte hr s.wbyte).clearPacker hc (clearPacker_below _) rest
    · exact h
  · next he =>
    rcases onOutPush_cases s.wbyte s (fun s => finish (clearPacker s)) with ⟨hr, e⟩ | ⟨_, e⟩ <;> rw [e]
    · exact ((h.inside he).putByte hr s.wbyte).clearPacker.finish ⟨rfl, rfl⟩
    · exact h
  · exact h

/-! ### A step of a command -/

/-- A step of the latched command keeps the invariant. -/
theorem command_inv {i : Instr} {s t : State} (hi : isCommand i = true) (h : BlockInv s)
    (hc : decodeCommand s.cmdword = i) (he : exec i s = .next t) : BlockInv t := by
  cases i
  case nop => cases he; exact h.fromStart Inside.finish
  case clear => cases he; exact h.fromStart fun hin _ => clear_inv hin
  case lutWrite => cases he; exact h.fromStart lutWriteBody_inv
  case lutRead => cases he; exact h.fromStart lutReadBody_inv
  case lutBuild => cases he; exact h.fromStart lutBuildBody_inv
  case treeLoad => cases he; exact treeLoadStep_inv h hc
  case treeStore => cases he; exact treeStoreStep_inv h hc
  case encode => cases he; exact encodeStep_inv h hc
  case readBit => cases he; exact readBitStep_inv h hc
  case brDiscard => cases he; exact h.fromStart brDiscard_inv
  case magicCheck => cases he; exact h.fromStart fun hin hw => checkMagic_inv hin hw (hin.finish hw)
  case decode => cases he; exact decodeStep_inv h hc
  case decodeStream => cases he; exact decodeStreamStep_inv h hc
  case reserved w => cases he; exact h.fromStart fun hin hw => hin.raise hw (by simp) w
  all_goals cases hi

/-! ### A host access (40_host_interface.md section 1) -/

/-- `t` is `s` but for the bytes in the FIFOs and what belongs to the host alone. -/
def SameCommand (s t : State) : Prop :=
  t = { s with
    inq := t.inq, outq := t.outq, inEos := t.inEos, irqEn := t.irqEn, irqPend := t.irqPend, outInvalid := t.outInvalid
    cmdOvr := t.cmdOvr, inOvf := t.inOvf, nodeAddr := t.nodeAddr, rdata := t.rdata, draws := t.draws
    inputs := t.inputs }

/-- `t` is `s` but for the operand registers. -/
def SameButOperands (s t : State) : Prop :=
  t = { s with
    treeSize := t.treeSize, fileSizeLo := t.fileSizeLo, fileSizeHi := t.fileSizeHi, hdrMagic := t.hdrMagic
    lutSym := t.lutSym, lutLen := t.lutLen, lutBits := t.lutBits }

/-- The control point does not depend on the FIFOs' contents and the host's side of the state. -/
theorem PointOk.congr {i : Instr} {s t : State} {p : Point} (h : PointOk i s p) (e : SameCommand s t) :
    PointOk i t p := by
  unfold SameCommand at e
  rw [e]
  cases p
  case decodeIn =>
    obtain ⟨hi, h8, hl, hd⟩ := h
    exact ⟨hi, h8, hl, { hd with }⟩
  case decodeOut =>
    obtain ⟨hi, hl, hd⟩ := h
    exact ⟨hi, hl, { hd with }⟩
  all_goals exact h

/-- The invariant depends on the host's side of the state by the bounds of the FIFOs only. -/
theorem BlockInv.congr {s t : State} (h : BlockInv s) (e : SameCommand s t) (hi : t.inq.length ≤ s.inDepth)
    (ho : t.outq.length ≤ s.outDepth) : BlockInv t := by
  have hp : ∀ p, s.engine = .running p → PointOk (decodeCommand s.cmdword) t p := fun p he => (h.point p he).congr e
  unfold SameCommand at e
  rw [e] at hp ⊢
  exact { h with inq_le := hi, outq_le := ho, point := hp, packer := h.packer }

/-- While the engine is Idle the invariant does not depend on the operand registers. -/
theorem BlockInv.congr_operands {s t : State} (h : BlockInv s) (hb : s.busy = false) (e : SameButOperands s t) :
    BlockInv t := by
  unfold SameButOperands at e
  rw [e]
  exact { h with point := fun p hp => by simp [busy_eq_false.1 hb] at hp, packer := h.packer }

theorem accept_inv {s : State} (w : Word) (h : BlockInv s) (hb : s.busy = false) : BlockInv (accept w s) :=
  have hw : PackerEmpty s := by simpa [PackerOk, PackerEmpty, busy_eq_false.1 hb] using h.packer
  { h with
    ends := by simp, code := by simp, pos := by simp, running := by simp
    point := fun p hp => by cases hp; rfl
    packer := hw }

theorem readEngineOwned_inv {v : Word} {s t : State} (h : BlockInv s) (he : readEngineOwned v s = .next t) :
    BlockInv t := by
  rcases readEngineOwned_cases v s with ⟨_, e⟩ | ⟨_, e⟩ <;> cases e.symm.trans he
  · exact h.congr rfl h.inq_le h.outq_le
  · exact h.congr rfl h.inq_le h.outq_le

theorem popOutData_inv {s t : State} (h : BlockInv s) (he : popOutData s = .next t) : BlockInv t := by
  have ho := h.outq_le
  rcases popOutData_cases s with ⟨b, q, hq, e⟩ | ⟨_, e⟩ <;> cases e.symm.trans he
  · rw [hq] at ho
    exact h.congr rfl h.inq_le (Nat.le_of_succ_le ho)
  · exact h.congr rfl h.inq_le h.outq_le

theorem writeOperand_inv {s' s t : State} (h : BlockInv s) (e' : SameButOperands s s')
    (he : writeOperand s' s = .next t) : BlockInv t := by
  rcases writeOperand_cases s' s with ⟨hb, e⟩ | ⟨_, e⟩ <;> cases e.symm.trans he
  · exact h.congr_operands hb e'
  · exact h

theorem writeCmd_inv {w : Word} {s t : State} (h : BlockInv s) (he : writeCmd w s = .next t) : BlockInv t := by
  rcases writeCmd_cases w s with ⟨hb, e⟩ | ⟨_, e⟩ <;> cases e.symm.trans he
  · exact accept_inv w h hb
  · exact h.congr rfl h.inq_le h.outq_le

theorem pushInData_inv {w : Word} {s t : State} (h : BlockInv s) (he : pushInData w s = .next t) : BlockInv t := by
  rcases pushInData_cases w s with ⟨_, hlt, e⟩ | ⟨_, e⟩ <;> cases e.symm.trans he
  · exact h.congr rfl (by simpa using hlt) h.outq_le
  · exact h.congr rfl h.inq_le h.outq_le

theorem writeInCtrl_inv {w : Word} {s t : State} (h : BlockInv s) (he : writeInCtrl w s = .next t) : BlockInv t := by
  rcases writeInCtrl_cases w s with ⟨_, e⟩ | ⟨_, e⟩ <;> cases e.symm.trans he
  · exact h.congr rfl h.inq_le h.outq_le
  · refine h.congr rfl ?_ ?_
    · dsimp only
      split
      · exact Nat.zero_le _
      · exact h.inq_le
    · dsimp only
      split
      · exact Nat.zero_le _
      · exact h.outq_le

/-- A host access keeps the invariant. -/
theorem access_inv {i : Instr} {s t : State} (hi : isCommand i = false) (h : BlockInv s) (he : exec i s = .next t) :
    BlockInv t := by
  cases i
  case nop | clear | lutWrite | lutRead | lutBuild | treeLoad | treeStore | encode | readBit | brDiscard |
      magicCheck | decode | decodeStream | reserved => cases hi
  case rdErrcode | rdErrpos | rdSymcountLo | rdSymcountHi | rdOutbytesLo | rdOutbytesHi | rdTreeInfo | rdDecState |
      rdBrState | rdBitResult | rdLutLen | rdLutBits0 | rdLutBits1 | rdLutBits2 | rdLutBits3 | rdLutBits4 |
      rdLutBits5 | rdLutBits6 | rdLutBits7 | rdNodeData => exact readEngineOwned_inv h he
  case wrTreeSize | wrFileSizeLo | wrFileSizeHi | wrHdrMagic | wrLutSym | wrLutLen | wrLutBits0 | wrLutBits1 |
      wrLutBits2 | wrLutBits3 | wrLutBits4 | wrLutBits5 | wrLutBits6 | wrLutBits7 =>
    exact writeOperand_inv h (by exact rfl) he
  case rdOutData => exact popOutData_inv h he
  case wrCmd => exact writeCmd_inv h he
  case wrInData => exact pushInData_inv h he
  case wrInCtrl => exact writeInCtrl_inv h he
  -- The exact reads, the writes with no effect, and CTRL, IRQ_STATUS and NODE_ADDR.
  all_goals cases he; exact h.congr rfl h.inq_le h.outq_le

/-! ### Every step -/

theorem isCommand_decodeCommand (w : Word) : isCommand (decodeCommand w) = true := by
  unfold decodeCommand
  split
  · split
    · next r hr =>
      have hall : ∀ r ∈ commandRows, isCommand r.instr = true := by decide
      exact hall r (List.mem_of_find?_eq_some hr)
    · rfl
  · rfl

theorem isCommand_accessRows (w : Word) : ∀ r ∈ accessRows, isCommand (r.instr w) = false := by
  have hall : accessRows.all (fun r => !isCommand (r.instr w)) = true := rfl
  simpa using hall

theorem isCommand_decodeAccess {a : Access} {i : Instr} (h : decodeAccess a = .ok i) : isCommand i = false := by
  unfold decodeAccess at h
  split at h
  · next r hr =>
    cases h
    exact isCommand_accessRows _ r (List.mem_of_find?_eq_some hr)
  · cases h

theorem engineTurn_inv {s t : State} (h : BlockInv s) (he : engineTurn s = .next t) : BlockInv t := by
  rcases engineTurn_cases s with ⟨_, e⟩ | ⟨_, e⟩
  · exact command_inv (isCommand_decodeCommand _) h rfl (e.symm.trans he)
  · cases e.symm.trans he
    exact h

/-- The platform's reset meets the invariant whatever was before. -/
theorem platformReset_inv (s : State) : BlockInv (platformReset s) where
  inq_le := Nat.zero_le _
  outq_le := Nat.zero_le _
  lut_wf := rfl
  lut_codes := by simp [State.reset]
  arena_le := Nat.zero_le _
  stk_le := Nat.zero_le _
  stk_below := by simp [State.reset]
  nodes := NodesOk.nil
  tree := by simp [State.reset]
  ends := by simp [State.reset]
  code := by simp [State.reset]
  pos _ := rfl
  running := by simp
  point := by simp [State.reset]
  packer := ⟨rfl, rfl⟩

/-- Settles O50: the engine's turn keeps the invariant by the latched command's step, a host access because it leaves
what the control point speaks of, and reset establishes it. -/
theorem stepKeepsInvariant : Obligations.StepKeepsInvariant := by
  unfold Obligations.StepKeepsInvariant
  intro s t h hs
  have hin : ∀ rest, BlockInv { s with inputs := rest } := fun rest => h.congr rfl h.inq_le h.outq_le
  rcases step_cases hs with ⟨_, he⟩ | ⟨rest, _, he⟩ | ⟨a, rest, i, _, hd, he⟩ | ⟨rest, _, rfl⟩
  · exact engineTurn_inv h he
  · exact engineTurn_inv (hin rest) he
  · exact access_inv (isCommand_decodeAccess hd) (hin rest) he
  · exact platformReset_inv _

end Sys2Proof.Machine
/-! ## The held tree -/

namespace Sys2Proof.Machine

theorem childRefs_split (a b : List Node) (j : Nat) : childRefs (a ++ b) j = childRefs a j + childRefs b j := by
  simp [childRefs]

/-- An interior node with the child `j` is counted. -/
theorem childRefs_pos {a : List Node} {n : Node} {j : Nat} (hn : n ∈ a) (hl : n.leaf = false)
    (hj : n.left.toNat = j ∨ n.right.toNat = j) : 1 ≤ childRefs a j := by
  by_contra h
  obtain ⟨h1, h2⟩ := childRefs_eq_zero.1 (Nat.lt_one_iff.1 (Nat.not_le.1 h)) n hn hl
  exact hj.elim h1 h2

/-- Two interior nodes with the same child `j` are counted twice. -/
theorem two_le_childRefs {a : List Node} {i k : Nat} {n m : Node} {j : Nat} (hik : i < k) (hn : a[i]? = some n)
    (hnl : n.leaf = false) (hnj : n.left.toNat = j ∨ n.right.toNat = j) (hm : a[k]? = some m) (hml : m.leaf = false)
    (hmj : m.left.toNat = j ∨ m.right.toNat = j) : 2 ≤ childRefs a j := by
  have h1 : n ∈ a.take k := List.mem_of_getElem? ((List.getElem?_take_of_lt hik).trans hn)
  have h2 : m ∈ a.drop k := List.mem_of_getElem? (i := 0) (by rw [List.getElem?_drop]; exact hm)
  have h3 := childRefs_split (a.take k) (a.drop k) j
  rw [List.take_append_drop] at h3
  have := childRefs_pos h1 hnl hnj
  have := childRefs_pos h2 hml hmj
  omega

theorem linksTo_le_childRefs {a : List Node} {n : Node} (hn : n ∈ a) (j : Nat) : linksTo n j ≤ childRefs a j := by
  obtain ⟨b, c, rfl⟩ := List.append_of_mem hn
  have h1 := childRefs_split b (n :: c) j
  have h2 := childRefs_split [n] c j
  have h3 := childRefs_append [] n j
  simp only [List.nil_append, List.singleton_append] at h2 h3
  omega

theorem TreeOk.childRefs_le {a : List Node} {root : NodeIdx} (h : TreeOk a root) {j : Nat} (hj : j < a.length) :
    childRefs a j ≤ 1 := by
  rw [h.once j hj]
  split <;> omega

/-- The children of an interior node differ (10_state.md R53). -/
theorem TreeOk.children_ne {a : List Node} {root : NodeIdx} (h : TreeOk a root) (hn : NodesOk a) {i : Nat} {n : Node}
    (hi : a[i]? = some n) (hl : n.leaf = false) : n.left ≠ n.right := by
  intro e
  have hlt : n.left.toNat < a.length :=
    (hn.below i n hi hl).1.trans (List.getElem?_eq_some_iff.1 hi).1
  have h2 : linksTo n n.left.toNat = 2 := by simp [linksTo, hl, ← e]
  have := linksTo_le_childRefs (List.mem_of_getElem? hi) n.left.toNat
  have := h.childRefs_le hlt
  omega

/-- Every node but the root has exactly one parent (10_state.md R53). -/
theorem TreeOk.parent_unique {a : List Node} {root : NodeIdx} (h : TreeOk a root) {j : Nat} (hj : j < a.length)
    (hr : j ≠ root.toNat) :
    ∃! i : Nat, ∃ n : Node, a[i]? = some n ∧ n.leaf = false ∧ (n.left.toNat = j ∨ n.right.toNat = j) := by
  have hone : childRefs a j = 1 := by rw [h.once j hj, if_neg hr]
  refine existsUnique_of_exists_of_unique ?_ ?_
  · by_contra hno
    have hz : childRefs a j = 0 := by
      refine childRefs_eq_zero.2 fun n hn hl => not_or.1 fun hnj => ?_
      obtain ⟨i, hi⟩ := List.getElem?_of_mem hn
      exact hno ⟨i, n, hi, hl, hnj⟩
    omega
  · rintro i k ⟨n, hn, hnl, hnj⟩ ⟨m, hm, hml, hmj⟩
    rcases Nat.lt_trichotomy i k with hik | hik | hik
    · have := two_le_childRefs hik hn hnl hnj hm hml hmj
      omega
    · exact hik
    · have := two_le_childRefs hik hm hml hmj hn hnl hnj
      omega

/-- Settles O51: the tree invariants of `BlockInv` count the links to each node; one link is one parent. -/
theorem heldTreeMeetsTheTreeInvariants : Obligations.HeldTreeMeetsTheTreeInvariants := by
  unfold Obligations.HeldTreeMeetsTheTreeInvariants
  intro s h hv
  have ht := h.tree hv
  have hroot := ht.root_last
  have hcount := ht.count
  have hcap : s.arena.length ≤ 511 := h.arena_le
  refine ⟨fun i n hi hl => ?_, fun j hj hr => ht.parent_unique hj hr, hroot, hcount, by omega, by omega⟩
  obtain ⟨hleft, hright⟩ := h.nodes.below i n hi hl
  exact ⟨hleft, hright, ht.children_ne h.nodes hi hl⟩

/-! ## The blocked engine -/

/-- WAIT_IN or WAIT_OUT is 1 (10_state.md R34). -/
def Blocked (s : State) : Prop := s.waitIn = true ∨ s.waitOut = true

theorem waitIn_iff {s : State} :
    s.waitIn = true ↔ ∃ p, s.engine = .running p ∧ p.isIn = true ∧ s.inq = [] ∧ s.inEos = false := by
  unfold State.waitIn
  cases s.engine <;> simp [and_assoc]

theorem waitOut_iff {s : State} :
    s.waitOut = true ↔ ∃ p, s.engine = .running p ∧ p.isOut = true ∧ s.outDepth ≤ s.outq.length := by
  unfold State.waitOut
  cases s.engine <;> simp

theorem Point.isOut_eq_false_of_isIn {p : Point} (h : p.isIn = true) : p.isOut = false := by
  cases p
  case treeTag | treeSym | encIn | bitIn | decodeIn => rfl
  all_goals cases h

section
variable {s : State} {p : Point}

/-- A blocked engine stands at a primitive, not at a command's start. -/
theorem Blocked.isIn_or_isOut (h : Blocked s) (he : s.engine = .running p) : p.isIn = true ∨ p.isOut = true := by
  rcases h with h | h
  · obtain ⟨q, hq, hin, _⟩ := waitIn_iff.1 h
    cases he.symm.trans hq
    exact .inl hin
  · obtain ⟨q, hq, hout, _⟩ := waitOut_iff.1 h
    cases he.symm.trans hq
    exact .inr hout

theorem Blocked.fromStart (h : Blocked s) (f : State → State) : fromStart f s = s := by
  rcases fromStart_cases f s with ⟨he, _⟩ | ⟨_, e⟩
  · rcases h.isIn_or_isOut he with hp | hp <;> cases hp
  · exact e

theorem Blocked.onInPop (h : Blocked s) (he : s.engine = .running p) (hp : p.isIn = true) (eos : State → State)
    (byte : Byte → State → State) : onInPop s eos byte = s := by
  rcases h with h | h
  · obtain ⟨_, _, _, hq, heos⟩ := waitIn_iff.1 h
    exact onInPop_blocked hq heos eos byte
  · obtain ⟨q, hq, hout, _⟩ := waitOut_iff.1 h
    cases he.symm.trans hq
    exact absurd (hout.symm.trans (Point.isOut_eq_false_of_isIn hp)) (by simp)

theorem Blocked.onOutPush (h : Blocked s) (he : s.engine = .running p) (hp : p.isOut = true) (b : Byte)
    (cont : State → State) : onOutPush b s cont = s := by
  rcases h with h | h
  · obtain ⟨q, hq, hin, _⟩ := waitIn_iff.1 h
    cases he.symm.trans hq
    exact absurd (hp.symm.trans (Point.isOut_eq_false_of_isIn hin)) (by simp)
  · obtain ⟨_, _, _, hfull⟩ := waitOut_iff.1 h
    exact onOutPush_full hfull b cont

theorem Blocked.not_start (h : Blocked s) : s.engine ≠ .running .start := by
  intro he
  rcases h.isIn_or_isOut he with hp | hp <;> cases hp

theorem Blocked.treeLoadStep (h : Blocked s) : treeLoadStep s = s := by
  unfold Machine.treeLoadStep
  split
  · next he => exact absurd he h.not_start
  · next k he => exact h.onInPop he rfl _ _
  · next k he => exact h.onInPop he rfl _ _
  · rfl

theorem Blocked.treeStoreStep (h : Blocked s) : treeStoreStep s = s := by
  unfold Machine.treeStoreStep
  split
  · next he => exact absurd he h.not_start
  · next b rest he => exact h.onOutPush he rfl _ _
  · rfl

theorem Blocked.encodeStep (h : Blocked s) : encodeStep s = s := by
  unfold Machine.encodeStep
  split
  · next he => exact absurd he h.not_start
  · next he => exact h.onInPop he rfl _ _
  · next rest he => exact h.onOutPush he rfl _ _
  · next he => exact h.onOutPush he rfl _ _
  · rfl

theorem Blocked.readBitStep (h : Blocked s) : readBitStep s = s := by
  unfold Machine.readBitStep
  split
  · next he => exact absurd he h.not_start
  · next he => exact h.onInPop he rfl _ _
  · rfl

theorem Blocked.decodeInStep (h : Blocked s) (he : s.engine = .running .decodeIn) : decodeInStep s = s := by
  unfold Machine.decodeInStep refillBit
  exact h.onInPop he rfl _ _

theorem Blocked.decodeStep (h : Blocked s) : decodeStep s = s := by
  unfold Machine.decodeStep
  split
  · next he => exact absurd he h.not_start
  · next he => exact h.decodeInStep he
  · next he => exact h.onOutPush he rfl _ _
  · rfl

theorem Blocked.decodeStreamStep (h : Blocked s) : decodeStreamStep s = s := by
  unfold Machine.decodeStreamStep
  split
  · next he => exact absurd he h.not_start
  · next k he => exact h.onInPop he rfl _ _
  · next k he => exact h.onInPop he rfl _ _
  · next he => exact h.decodeInStep he
  · next he => exact h.onOutPush he rfl _ _
  · rfl

end

/-- A step of any command leaves a blocked state as it is (40_host_interface.md R194; log entries 2, 9). -/
theorem Blocked.exec {s : State} {i : Instr} (h : Blocked s) (hi : isCommand i = true) : exec i s = .next s := by
  cases i
  case nop | clear | lutWrite | lutRead | lutBuild | brDiscard | magicCheck | reserved =>
    exact congrArg _ (h.fromStart _)
  case treeLoad => exact congrArg _ h.treeLoadStep
  case treeStore => exact congrArg _ h.treeStoreStep
  case encode => exact congrArg _ h.encodeStep
  case readBit => exact congrArg _ h.readBitStep
  case decode => exact congrArg _ h.decodeStep
  case decodeStream => exact congrArg _ h.decodeStreamStep
  all_goals cases hi

/-- Settles O15: the invariant bounds OUTQ, so a full one holds exactly OUT_DEPTH bytes; a blocked primitive is not
enabled. -/
theorem waitBitsShowTheBlockedEngine : Obligations.WaitBitsShowTheBlockedEngine := by
  unfold Obligations.WaitBitsShowTheBlockedEngine
  intro s
  refine ⟨waitIn_iff, fun h => ?_, fun hb i hi => Blocked.exec hb hi⟩
  have hle := h.outq_le
  have hfull : s.outDepth ≤ s.outq.length ↔ s.outq.length = s.outDepth := by omega
  rw [waitOut_iff, hfull]

/-! ## The node window -/

/-- Settles O24: below NODE_COUNT the window shows the addressed node's word, at or above it 0. -/
theorem nodeWindowShowsTheAddressedNode : Obligations.NodeWindowShowsTheAddressedNode := by
  unfold Obligations.NodeWindowShowsTheAddressedNode
  intro w s
  have hidle : s.busy = false → exec .rdNodeData s = .next { s with rdata := s.nodeDataWord } := by
    intro hb
    rcases readEngineOwned_cases s.nodeDataWord s with ⟨_, e⟩ | ⟨hb', _⟩
    · exact e
    · exact absurd (hb.symm.trans hb') (by simp)
  refine ⟨rfl, fun n hb hn => ?_, fun hb hge => ?_, fun hb => ?_⟩
  · have hlt : s.nodeAddr.toNat < s.nodeCount := (List.getElem?_eq_some_iff.1 hn).1
    have hnode : s.node s.nodeAddr = n := Option.some.inj ((node_getElem? hlt).symm.trans hn)
    rw [hidle hb, State.nodeDataWord, if_pos hlt, hnode]
    rfl
  · rw [hidle hb, State.nodeDataWord, if_neg (Nat.not_lt.2 hge)]
  · rcases readEngineOwned_cases s.nodeDataWord s with ⟨hb', _⟩ | ⟨_, e⟩
    · exact absurd (hb.symm.trans hb') (by simp)
    · exact ⟨_, e⟩

/-! ## What belongs to the host

No step of a command writes a host-owned register, and only LUT_READ the staging registers. As for the five parts above,
an operation is followed through what runs after it. -/

/-- The host-owned registers, the mark of the input's end, the latched word, the parameters, the host's record, and the
staging registers LUT_LEN and LUT_BITS (10_state.md R32, R48, R64). -/
structure HostOwned where
  irqEn      : Bool
  treeSize   : BitVec 16
  fileSizeLo : Word
  fileSizeHi : Word
  hdrMagic   : Word
  lutSym     : Byte
  nodeAddr   : BitVec 9
  inEos      : Bool
  cmdword    : Word
  params     : Params
  rdata      : Word
  draws      : Nat
  inputs     : List Input
  staging    : BitVec 9 × BitVec 256

/-- What belongs to the host as a state holds it. -/
def State.hostOwned (s : State) : HostOwned where
  irqEn      := s.irqEn
  treeSize   := s.treeSize
  fileSizeLo := s.fileSizeLo
  fileSizeHi := s.fileSizeHi
  hdrMagic   := s.hdrMagic
  lutSym     := s.lutSym
  nodeAddr   := s.nodeAddr
  inEos      := s.inEos
  cmdword    := s.cmdword
  params     := s.params
  rdata      := s.rdata
  draws      := s.draws
  inputs     := s.inputs
  staging    := (s.lutLen, s.lutBits)

/-- `f` leaves what belongs to the host as it was. -/
def KeepsHost (f : State → State) : Prop := ∀ s, (f s).hostOwned = s.hostOwned

theorem KeepsHost.finish : KeepsHost finish := fun _ => rfl
theorem KeepsHost.clearState : KeepsHost clearState := fun _ => rfl
theorem KeepsHost.clearPacker : KeepsHost clearPacker := fun _ => rfl
theorem KeepsHost.raise (e : ErrCode) (w : Word) : KeepsHost (raise e w) := fun _ => rfl

theorem KeepsHost.thenFinish {f : State → State} (hf : KeepsHost f) : KeepsHost fun s => Machine.finish (f s) := hf

theorem KeepsHost.fromStart {f : State → State} (hf : KeepsHost f) : KeepsHost (fromStart f) := by
  intro s
  rcases fromStart_cases f s with ⟨_, e⟩ | ⟨_, e⟩ <;> rw [e]
  exact hf s

theorem KeepsHost.onInPop {eos : State → State} {byte : Byte → State → State} (he : KeepsHost eos)
    (hb : ∀ b, KeepsHost (byte b)) : KeepsHost fun s => onInPop s eos byte := by
  intro s
  rcases onInPop_cases s eos byte with ⟨b, q, _, e⟩ | ⟨_, _, e⟩ | ⟨_, _, e⟩ <;> simp only [e]
  · exact hb b { s with inq := q }
  · exact he s

theorem onOutPush_keepsHost {cont : State → State} (hc : KeepsHost cont) (b : Byte) (s : State) :
    (onOutPush b s cont).hostOwned = s.hostOwned := by
  rcases onOutPush_cases b s cont with ⟨_, e⟩ | ⟨_, e⟩ <;> rw [e]
  exact hc { s with outq := s.outq ++ [b], outbytes := s.outbytes + 1 }

theorem KeepsHost.lutWriteBody : KeepsHost lutWriteBody := by
  intro s
  unfold Machine.lutWriteBody
  split <;> rfl

theorem KeepsHost.lutBuildBody : KeepsHost lutBuildBody := by
  intro s
  unfold Machine.lutBuildBody
  split
  · split <;> rfl
  · rfl

theorem KeepsHost.readBitStep : KeepsHost readBitStep := by
  intro s
  unfold Machine.readBitStep
  split
  · rcases readBit_cases .bitIn s bitRead with ⟨_, e⟩ | ⟨_, e⟩ <;> rw [e] <;> rfl
  · rcases refillBit_cases s bitAtEos bitRead with ⟨_, _, _, e⟩ | ⟨_, _, e⟩ | ⟨_, _, e⟩ <;> rw [e] <;> rfl
  · rfl

section
variable {loaded : State → State}

theorem KeepsHost.treeLoadLoop (hl : KeepsHost loaded) (k : Nat) : KeepsHost (treeLoadLoop loaded k) := by
  intro s
  rcases treeLoadLoop_cases loaded k s with ⟨_, e⟩ | ⟨_, r, _, e⟩ | ⟨_, _, e⟩ <;> rw [e]
  · rfl
  · exact hl { s with root := r, stk := [], treeValid := true }
  · rfl

theorem KeepsHost.treeLoadBegin (hl : KeepsHost loaded) : KeepsHost (treeLoadBegin loaded) := fun s =>
  KeepsHost.treeLoadLoop hl 0 { s with brPos := 8, treeValid := false, arena := [], root := 0, stk := [] }

theorem KeepsHost.treeTagStep (hl : KeepsHost loaded) (k : Nat) : KeepsHost (treeTagStep loaded k) := by
  intro s
  rcases treeTagStep_cases loaded k s with ⟨_, _, e⟩ | ⟨_, _, e⟩ | ⟨b, q, _, hcases⟩
  · rw [e]
  · rw [e]; rfl
  rcases hcases with ⟨_, _, e⟩ | ⟨_, _, e⟩ | ⟨_, _, e⟩ | ⟨r, l, rest, _, _, hj⟩ | ⟨_, _, e⟩
  · rw [e]; rfl
  · rw [e]; rfl
  · rw [e]; rfl
  · rcases hj with ⟨_, e⟩ | ⟨_, _, e⟩ | ⟨_, _, e⟩ <;> rw [e]
    · rfl
    · rfl
    · exact KeepsHost.treeLoadLoop hl (k + 1) _
  · rw [e]; rfl

theorem KeepsHost.treeSymStep (hl : KeepsHost loaded) (k : Nat) : KeepsHost (treeSymStep loaded k) := by
  intro s
  rcases treeSymStep_cases loaded k s with ⟨_, _, e⟩ | ⟨_, _, e⟩ | ⟨b, q, _, hcases⟩
  · rw [e]
  · rw [e]; rfl
  rcases hcases with ⟨_, e⟩ | ⟨_, _, e⟩ | ⟨_, _, e⟩ <;> rw [e]
  · rfl
  · rfl
  · exact KeepsHost.treeLoadLoop hl (k + 2) _

end

theorem KeepsHost.treeLoadStep : KeepsHost treeLoadStep := by
  intro s
  unfold Machine.treeLoadStep
  split
  · exact KeepsHost.treeLoadBegin KeepsHost.finish s
  · exact KeepsHost.treeTagStep KeepsHost.finish _ s
  · exact KeepsHost.treeSymStep KeepsHost.finish _ s
  · rfl

theorem KeepsHost.treeStoreNext (bytes : List Byte) : KeepsHost (treeStoreNext bytes) := by
  intro s
  cases bytes <;> rfl

theorem KeepsHost.treeStoreStep : KeepsHost treeStoreStep := by
  intro s
  unfold Machine.treeStoreStep
  split
  · split
    · exact KeepsHost.treeStoreNext _ s
    · rfl
  · exact onOutPush_keepsHost (KeepsHost.treeStoreNext _) _ s
  · rfl

theorem KeepsHost.checkMagic {cont : State → State} (hc : KeepsHost cont) : KeepsHost (checkMagic cont) := by
  intro s
  unfold Machine.checkMagic
  split
  · exact hc s
  · rfl

theorem decodeLoop_keepsHost (s : State) : (decodeLoop (bufferedBits s) s).hostOwned = s.hostOwned := by
  rcases decodeLoop_cases s with ⟨_, e⟩ | ⟨_, _, e⟩ | ⟨_, _, _, _, _, _, _, ⟨_, _, e⟩ | ⟨_, e⟩⟩ <;> rw [e] <;> rfl

theorem KeepsHost.decodeBegin : KeepsHost decodeBegin := by
  intro s
  unfold Machine.decodeBegin
  split
  · exact decodeLoop_keepsHost { s with symcount := 0, cur := s.root, dstate := .atRoot }
  · rfl

theorem KeepsHost.decodeInStep : KeepsHost decodeInStep := by
  intro s
  rcases decodeInStep_cases s with ⟨b, q, _, ⟨_, e⟩ | ⟨u, _, hu, e⟩⟩ | ⟨_, _, e⟩ | ⟨_, _, e⟩ <;> rw [e]
  · rfl
  · rw [decodeLoop_keepsHost, hu]
    rfl
  · rfl

theorem KeepsHost.decodeOutStep : KeepsHost decodeOutStep := fun s =>
  onOutPush_keepsHost
    (fun s => decodeLoop_keepsHost { s with symcount := s.symcount + 1, cur := s.root, dstate := .atRoot }) _ s

theorem KeepsHost.decodeStep : KeepsHost decodeStep := by
  intro s
  unfold Machine.decodeStep
  split
  · exact KeepsHost.decodeBegin s
  · exact KeepsHost.decodeInStep s
  · exact KeepsHost.decodeOutStep s
  · rfl

theorem KeepsHost.decodeStreamStep : KeepsHost decodeStreamStep := by
  have hd := KeepsHost.decodeBegin
  intro s
  unfold Machine.decodeStreamStep
  split
  · exact KeepsHost.checkMagic (KeepsHost.treeLoadBegin hd) s
  · exact KeepsHost.treeTagStep hd _ s
  · exact KeepsHost.treeSymStep hd _ s
  · exact KeepsHost.decodeInStep s
  · exact KeepsHost.decodeOutStep s
  · rfl

theorem KeepsHost.putBits (bits : List Bool) : KeepsHost (putBits bits) := by
  intro s
  obtain ⟨hfit, hfull⟩ := putBits_placed bits s
  rcases Nat.lt_or_ge (s.wpos.val + bits.length) 8 with h | h
  · rw [hfit h]; rfl
  · rw [hfull h]; rfl

theorem KeepsHost.encodeByte (c : Byte) : KeepsHost (encodeByte c) := by
  intro s
  unfold Machine.encodeByte
  dsimp only
  split
  · rfl
  · exact KeepsHost.putBits _ s

theorem KeepsHost.encodeEnd : KeepsHost encodeEnd := by
  intro s
  unfold Machine.encodeEnd
  split <;> rfl

theorem KeepsHost.encodeStep : KeepsHost encodeStep := by
  intro s
  unfold Machine.encodeStep
  split
  · rfl
  · exact KeepsHost.onInPop KeepsHost.encodeEnd KeepsHost.encodeByte s
  · exact onOutPush_keepsHost (fun s => KeepsHost.putBits _ (Machine.clearPacker s)) _ s
  · exact onOutPush_keepsHost (KeepsHost.thenFinish KeepsHost.clearPacker) _ s
  · rfl

/-- LUT_READ keeps what belongs to the host but for the staging registers. -/
theorem lutRead_hostOwned (s : State) :
    ∃ g, (fromStart lutReadBody s).hostOwned = { s.hostOwned with staging := g } := by
  rcases fromStart_cases lutReadBody s with ⟨_, e⟩ | ⟨_, e⟩ <;> rw [e]
  · exact ⟨_, rfl⟩
  · exact ⟨_, rfl⟩

/-- A command other than LUT_READ keeps all that belongs to the host. -/
theorem command_hostOwned {i : Instr} {s t : State} (hi : isCommand i = true) (hl : i ≠ .lutRead)
    (h : exec i s = .next t) : t.hostOwned = s.hostOwned := by
  cases i
  case lutRead => exact absurd rfl hl
  case nop => cases h; exact KeepsHost.fromStart KeepsHost.finish s
  case clear => cases h; exact KeepsHost.fromStart (KeepsHost.thenFinish KeepsHost.clearState) s
  case lutWrite => cases h; exact KeepsHost.fromStart KeepsHost.lutWriteBody s
  case lutBuild => cases h; exact KeepsHost.fromStart KeepsHost.lutBuildBody s
  case treeLoad => cases h; exact KeepsHost.treeLoadStep s
  case treeStore => cases h; exact KeepsHost.treeStoreStep s
  case encode => cases h; exact KeepsHost.encodeStep s
  case readBit => cases h; exact KeepsHost.readBitStep s
  case brDiscard =>
    cases h
    refine KeepsHost.fromStart ?_ s
    exact fun _ => rfl
  case magicCheck => cases h; exact KeepsHost.fromStart (KeepsHost.checkMagic KeepsHost.finish) s
  case decode => cases h; exact KeepsHost.decodeStep s
  case decodeStream => cases h; exact KeepsHost.decodeStreamStep s
  case reserved => cases h; exact KeepsHost.fromStart (KeepsHost.raise _ _) s
  all_goals cases hi

/-- A command keeps what belongs to the host, all of it unless it is LUT_READ. -/
theorem command_hostOwned_staging {i : Instr} {s t : State} (hi : isCommand i = true) (h : exec i s = .next t) :
    ∃ g, t.hostOwned = { s.hostOwned with staging := g } ∧ (i ≠ .lutRead → g = (s.lutLen, s.lutBits)) := by
  by_cases hl : i = .lutRead
  · subst hl
    cases h
    obtain ⟨g, hg⟩ := lutRead_hostOwned s
    exact ⟨g, hg, fun hne => absurd rfl hne⟩
  · exact ⟨_, command_hostOwned hi hl h, fun _ => rfl⟩

/-- Settles O56: no operation of a command writes what belongs to the host, and only LUT_READ the staging registers. -/
theorem commandsKeepHostOwnedState : Obligations.CommandsKeepHostOwnedState := by
  unfold Obligations.CommandsKeepHostOwnedState
  intro i s t hi h
  obtain ⟨g, hg, hst⟩ := command_hostOwned_staging hi h
  simp only [State.hostOwned, HostOwned.mk.injEq] at hg
  obtain ⟨h1, h2, h3, h4, h5, h6, h7, h8, h9, h10, h11, h12, h13, h14⟩ := hg
  refine ⟨⟨h1, h2, h3, h4, h5, h6, h7, h8, h9, h10, h11, h12, h13⟩, fun hl => ?_⟩
  exact Prod.mk.inj (h14.trans (hst hl))

end Sys2Proof.Machine

/-! ## Aligned accesses

The bus rows stand at every fourth TW, and WE, TW's top bit, weighs 256: an access has a row exactly when its address
is word-aligned (20_memory.md R86). -/

namespace Sys2Proof.Machine

/-- The TWs of the bus rows are the 128 multiples of 4, in order (30_encoding.md R123, R124). -/
theorem accessRows_tw : accessRows.map (·.tw.toNat) = List.range' 0 128 4 := by decide

theorem exists_accessRow_iff {tw : BitVec 9} : (∃ r ∈ accessRows, r.tw = tw) ↔ tw.toNat % 4 = 0 := by
  have hmem : (∃ r ∈ accessRows, r.tw = tw) ↔ tw.toNat ∈ accessRows.map (·.tw.toNat) := by
    simp only [List.mem_map, BitVec.toNat_inj]
  rw [hmem, accessRows_tw, List.mem_range']
  constructor
  · rintro ⟨k, _, hk⟩
    omega
  · intro h
    exact ⟨tw.toNat / 4, by omega, by omega⟩

/-- Bits above the low 8 do not count modulo 4. -/
theorem append_mod_four (we : BitVec 1) (addr : BitVec 8) : (we ++ addr).toNat % 4 = addr.toNat % 4 := by
  rw [BitVec.toNat_append, ← Nat.shiftLeft_add_eq_or_of_lt addr.isLt, Nat.shiftLeft_eq]
  omega

theorem access_tw_mod_four (a : Access) : a.tw.toNat % 4 = a.addr.toNat % 4 := by
  cases a with
  | read addr => exact append_mod_four 0 addr
  | write addr _ => exact append_mod_four 1 addr

theorem decodeAccess_of_misaligned {a : Access} (h : a.addr.toNat % 4 ≠ 0) :
    decodeAccess a = .error (.misaligned a.addr) := by
  have hnone : accessRows.find? (fun r => r.tw == a.tw) = none := by
    refine List.find?_eq_none.2 fun r hr he => ?_
    have htw : a.tw.toNat % 4 = 0 := exists_accessRow_iff.1 ⟨r, hr, eq_of_beq he⟩
    exact h ((access_tw_mod_four a).symm.trans htw)
  rw [decodeAccess, hnone]

theorem decodeAccess_of_aligned {a : Access} (h : a.addr.toNat % 4 = 0) : ∃ i, decodeAccess a = .ok i := by
  obtain ⟨r, hr, he⟩ := exists_accessRow_iff.2 ((access_tw_mod_four a).trans h)
  have hsome : (accessRows.find? fun r => r.tw == a.tw).isSome := List.find?_isSome.2 ⟨r, hr, beq_iff_eq.2 he⟩
  obtain ⟨row, hrow⟩ := Option.isSome_iff_exists.1 hsome
  exact ⟨row.instr a.wdata, by rw [decodeAccess, hrow]⟩

/-- Settles O3: a misaligned access has no row, an aligned one has. -/
theorem decodeRefusesExactlyTheMisaligned : Obligations.DecodeRefusesExactlyTheMisaligned := by
  unfold Obligations.DecodeRefusesExactlyTheMisaligned
  exact fun _ => ⟨decodeAccess_of_misaligned, decodeAccess_of_aligned⟩

/-! ## A step with a host access first -/

theorem step_access {s : State} {a : Access} {rest : List Input} (h : s.inputs = .access a :: rest) :
    step s = hostAccess a { s with inputs := rest } := by
  simp [step, h]

theorem hostAccess_ok {a : Access} {i : Instr} (h : decodeAccess a = .ok i) (s : State) :
    hostAccess a s = exec i s := by
  simp [hostAccess, h]

theorem hostAccess_misaligned {a : Access} (h : a.addr.toNat % 4 ≠ 0) (s : State) :
    hostAccess a s = .refused (.misalignedAccess a.addr) := by
  simp [hostAccess, decodeAccess_of_misaligned h]

theorem hostAccess_aligned {a : Access} (h : a.addr.toNat % 4 = 0) (s : State) : ∃ t, hostAccess a s = .next t := by
  obtain ⟨i, hi⟩ := decodeAccess_of_aligned h
  rw [hostAccess_ok hi]
  exact exec_next i s

theorem engineTurn_next (s : State) : ∃ t, engineTurn s = .next t := by
  rcases engineTurn_cases s with ⟨_, e⟩ | ⟨_, e⟩ <;> rw [e]
  · exact exec_next _ s
  · exact ⟨s, rfl⟩

/-- Settles O6: the access is taken off the inputs and its instruction executed. -/
theorem stepExecutesTheHostAccess : Obligations.StepExecutesTheHostAccess := by
  unfold Obligations.StepExecutesTheHostAccess
  intro s a rest i hs hd
  rw [step_access hs, hostAccess_ok hd]

/-- Settles O8: no instruction and no turn of the engine stops the block, and an aligned access is an instruction. -/
theorem stepCompletesUnlessMisaligned : Obligations.StepCompletesUnlessMisaligned := by
  unfold Obligations.StepCompletesUnlessMisaligned
  intro s
  refine ⟨fun a rest hs ha => ?_, fun hal => ?_⟩
  · rw [step_access hs, hostAccess_misaligned ha]
  · unfold step
    split
    · exact engineTurn_next s
    · exact engineTurn_next _
    · next a rest hs => exact hostAccess_aligned (hal a rest hs) _
    · exact ⟨_, rfl⟩

/-! ## Reads -/

/-- `t` is `s` but for RDATA and the count of drawn values. -/
def SameButRead (s t : State) : Prop := t = { s with rdata := t.rdata, draws := t.draws }

theorem readEngineOwned_frame {v : Word} {s t : State} (h : readEngineOwned v s = .next t) : SameButRead s t := by
  rcases readEngineOwned_cases v s with ⟨_, e⟩ | ⟨_, e⟩ <;> cases e.symm.trans h <;> rfl

/-- Settles O60: a read is exact, or of an engine-owned register, or that of OUT_DATA. -/
theorem readsHaveNoSideEffect : Obligations.ReadsHaveNoSideEffect := by
  unfold Obligations.ReadsHaveNoSideEffect
  intro i a s t ha hne h
  cases i
  case rdOutData => cases ha; exact absurd rfl hne
  case rdErrcode | rdErrpos | rdSymcountLo | rdSymcountHi | rdOutbytesLo | rdOutbytesHi | rdTreeInfo | rdDecState |
      rdBrState | rdBitResult | rdLutLen | rdLutBits0 | rdLutBits1 | rdLutBits2 | rdLutBits3 | rdLutBits4 |
      rdLutBits5 | rdLutBits6 | rdLutBits7 | rdNodeData => exact readEngineOwned_frame h
  -- Commands and writes are no reads; the other reads are exact.
  all_goals cases ha
  all_goals cases h; rfl

/-! ## The engine's bytes

A step of a command passes at most one stream primitive, an InPop or an OutPush (40_host_interface.md R195); all that
runs before and after it leaves both FIFOs and OUTBYTES as they are. -/

/-- INQ, OUTQ and OUTBYTES. -/
def State.fifos (s : State) : List Byte × List Byte × BitVec 64 := (s.inq, s.outq, s.outbytes)

/-- From `s` to `t` INQ is left or loses its oldest byte, and OUTQ is left or, while there is room, gets one byte, which
OUTBYTES counts. -/
def Moves (s t : State) : Prop :=
  (t.inq = s.inq ∨ ∃ b, s.inq = b :: t.inq) ∧
  ((t.outq = s.outq ∧ t.outbytes = s.outbytes) ∨
    ∃ b, s.outq.length < s.outDepth ∧ t.outq = s.outq ++ [b] ∧ t.outbytes = s.outbytes + 1)

section
variable {s t : State} {b : Byte}

theorem fifos_eq_iff {i o : List Byte} {n : BitVec 64} :
    t.fifos = (i, o, n) ↔ t.inq = i ∧ t.outq = o ∧ t.outbytes = n := by
  simp [State.fifos]

theorem Moves.none (h : t.fifos = s.fifos) : Moves s t := by
  obtain ⟨hi, ho⟩ := fifos_eq_iff.1 h
  exact ⟨.inl hi, .inl ho⟩

theorem Moves.pop {q : List Byte} (hq : s.inq = b :: q) (h : t.fifos = (q, s.outq, s.outbytes)) : Moves s t := by
  obtain ⟨hi, ho⟩ := fifos_eq_iff.1 h
  exact ⟨.inr ⟨b, by rw [hq, hi]⟩, .inl ho⟩

theorem Moves.push (hr : s.outq.length < s.outDepth) (h : t.fifos = (s.inq, s.outq ++ [b], s.outbytes + 1)) :
    Moves s t := by
  obtain ⟨hi, ho⟩ := fifos_eq_iff.1 h
  exact ⟨.inl hi, .inr ⟨b, hr, ho⟩⟩

end

/-- `f` leaves both FIFOs and OUTBYTES as they were. -/
def KeepsFifos (f : State → State) : Prop := ∀ s, (f s).fifos = s.fifos

theorem KeepsFifos.finish : KeepsFifos finish := fun _ => rfl
theorem KeepsFifos.raise (e : ErrCode) (w : Word) : KeepsFifos (raise e w) := fun _ => rfl
theorem KeepsFifos.clearState : KeepsFifos clearState := fun _ => rfl
theorem KeepsFifos.clearPacker : KeepsFifos clearPacker := fun _ => rfl
theorem KeepsFifos.lutReadBody : KeepsFifos lutReadBody := fun _ => rfl
theorem KeepsFifos.bitRead (b : Bool) : KeepsFifos (bitRead b) := fun _ => rfl
theorem KeepsFifos.bitAtEos : KeepsFifos bitAtEos := fun _ => rfl

theorem KeepsFifos.thenFinish {f : State → State} (hf : KeepsFifos f) : KeepsFifos fun s => Machine.finish (f s) := hf

theorem KeepsFifos.fromStart_moves {f : State → State} (hf : KeepsFifos f) (s : State) : Moves s (fromStart f s) := by
  rcases fromStart_cases f s with ⟨_, e⟩ | ⟨_, e⟩ <;> rw [e]
  · exact .none (hf s)
  · exact .none rfl

/-! ### The two primitives -/

theorem onInPop_moves {eos : State → State} {byte : Byte → State → State} (he : KeepsFifos eos)
    (hb : ∀ b, KeepsFifos (byte b)) (s : State) : Moves s (onInPop s eos byte) := by
  rcases onInPop_cases s eos byte with ⟨b, q, hq, e⟩ | ⟨_, _, e⟩ | ⟨_, _, e⟩ <;> rw [e]
  · exact .pop hq (hb b { s with inq := q })
  · exact .none (he s)
  · exact .none rfl

theorem onOutPush_moves {cont : State → State} (hc : KeepsFifos cont) (b : Byte) (s : State) :
    Moves s (onOutPush b s cont) := by
  rcases onOutPush_cases b s cont with ⟨hr, e⟩ | ⟨_, e⟩ <;> rw [e]
  · exact .push hr (hc { s with outq := s.outq ++ [b], outbytes := s.outbytes + 1 })
  · exact .none rfl

/-! ### The code table commands and READ_BIT -/

theorem KeepsFifos.lutWriteBody : KeepsFifos lutWriteBody := by
  intro s
  unfold Machine.lutWriteBody
  split <;> rfl

theorem KeepsFifos.lutBuildBody : KeepsFifos lutBuildBody := by
  intro s
  unfold Machine.lutBuildBody
  split
  · split <;> rfl
  · rfl

theorem readBitStep_moves (s : State) : Moves s (readBitStep s) := by
  unfold readBitStep
  split
  · rcases readBit_cases .bitIn s bitRead with ⟨_, e⟩ | ⟨_, e⟩ <;> rw [e] <;> exact .none rfl
  · exact onInPop_moves KeepsFifos.bitAtEos (fun b s => KeepsFifos.bitRead _ { s with brByte := b, brPos := 1 }) s
  · exact .none rfl

/-! ### TREE_LOAD and TREE_STORE -/

section
variable {loaded : State → State}

theorem KeepsFifos.treeLoadLoop (hl : KeepsFifos loaded) (k : Nat) : KeepsFifos (treeLoadLoop loaded k) := by
  intro s
  rcases treeLoadLoop_cases loaded k s with ⟨_, e⟩ | ⟨_, r, _, e⟩ | ⟨_, _, e⟩ <;> rw [e]
  · rfl
  · exact hl { s with root := r, stk := [], treeValid := true }
  · rfl

theorem KeepsFifos.treeLoadBegin (hl : KeepsFifos loaded) : KeepsFifos (treeLoadBegin loaded) := fun s =>
  KeepsFifos.treeLoadLoop hl 0 { s with brPos := 8, treeValid := false, arena := [], root := 0, stk := [] }

theorem treeTagStep_moves (hl : KeepsFifos loaded) (k : Nat) (s : State) : Moves s (treeTagStep loaded k s) := by
  rcases treeTagStep_cases loaded k s with ⟨_, _, e⟩ | ⟨_, _, e⟩ | ⟨b, q, hq, hcases⟩
  · rw [e]; exact .none rfl
  · rw [e]; exact .none rfl
  refine .pop hq ?_
  rcases hcases with ⟨_, _, e⟩ | ⟨_, _, e⟩ | ⟨_, _, e⟩ | ⟨r, l, rest, _, _, hj⟩ | ⟨_, _, e⟩
  · rw [e]; rfl
  · rw [e]; rfl
  · rw [e]; rfl
  · rcases hj with ⟨_, e⟩ | ⟨_, _, e⟩ | ⟨_, _, e⟩ <;> rw [e]
    · rfl
    · rfl
    · exact KeepsFifos.treeLoadLoop hl (k + 1) _
  · rw [e]; rfl

theorem treeSymStep_moves (hl : KeepsFifos loaded) (k : Nat) (s : State) : Moves s (treeSymStep loaded k s) := by
  rcases treeSymStep_cases loaded k s with ⟨_, _, e⟩ | ⟨_, _, e⟩ | ⟨b, q, hq, hcases⟩
  · rw [e]; exact .none rfl
  · rw [e]; exact .none rfl
  refine .pop hq ?_
  rcases hcases with ⟨_, e⟩ | ⟨_, _, e⟩ | ⟨_, _, e⟩ <;> rw [e]
  · rfl
  · rfl
  · exact KeepsFifos.treeLoadLoop hl (k + 2) _

end

theorem treeLoadStep_moves (s : State) : Moves s (treeLoadStep s) := by
  unfold treeLoadStep
  split
  · exact .none (KeepsFifos.treeLoadBegin KeepsFifos.finish s)
  · exact treeTagStep_moves KeepsFifos.finish _ s
  · exact treeSymStep_moves KeepsFifos.finish _ s
  · exact .none rfl

theorem KeepsFifos.treeStoreNext (bytes : List Byte) : KeepsFifos (treeStoreNext bytes) := by
  intro s
  cases bytes <;> rfl

theorem treeStoreStep_moves (s : State) : Moves s (treeStoreStep s) := by
  unfold treeStoreStep
  split
  · split
    · exact .none (KeepsFifos.treeStoreNext _ s)
    · exact .none rfl
  · exact onOutPush_moves (KeepsFifos.treeStoreNext _) _ s
  · exact .none rfl

/-! ### MAGIC_CHECK, DECODE and DECODE_STREAM -/

theorem KeepsFifos.checkMagic {cont : State → State} (hc : KeepsFifos cont) : KeepsFifos (checkMagic cont) := by
  intro s
  unfold Machine.checkMagic
  split
  · exact hc s
  · rfl

theorem decodeLoop_fifos (s : State) : (decodeLoop (bufferedBits s) s).fifos = s.fifos := by
  rcases decodeLoop_cases s with ⟨_, e⟩ | ⟨_, _, e⟩ | ⟨_, _, _, _, _, _, _, ⟨_, _, e⟩ | ⟨_, e⟩⟩ <;> rw [e] <;> rfl

theorem KeepsFifos.decodeBegin : KeepsFifos decodeBegin := by
  intro s
  unfold Machine.decodeBegin
  split
  · exact decodeLoop_fifos { s with symcount := 0, cur := s.root, dstate := .atRoot }
  · rfl

theorem decodeInStep_moves (s : State) : Moves s (decodeInStep s) := by
  rcases decodeInStep_cases s with ⟨b, q, hq, hcases⟩ | ⟨_, _, e⟩ | ⟨_, _, e⟩
  · refine .pop hq ?_
    rcases hcases with ⟨_, e⟩ | ⟨u, _, rfl, e⟩ <;> rw [e]
    · rfl
    · exact decodeLoop_fifos _
  · rw [e]; exact .none rfl
  · rw [e]; exact .none rfl

theorem decodeOutStep_moves (s : State) : Moves s (decodeOutStep s) :=
  onOutPush_moves
    (fun s => decodeLoop_fifos { s with symcount := s.symcount + 1, cur := s.root, dstate := .atRoot }) _ s

theorem decodeStep_moves (s : State) : Moves s (decodeStep s) := by
  unfold decodeStep
  split
  · exact .none (KeepsFifos.decodeBegin s)
  · exact decodeInStep_moves s
  · exact decodeOutStep_moves s
  · exact .none rfl

theorem decodeStreamStep_moves (s : State) : Moves s (decodeStreamStep s) := by
  have hd := KeepsFifos.decodeBegin
  unfold decodeStreamStep
  split
  · exact .none (KeepsFifos.checkMagic (KeepsFifos.treeLoadBegin hd) s)
  · exact treeTagStep_moves hd _ s
  · exact treeSymStep_moves hd _ s
  · exact decodeInStep_moves s
  · exact decodeOutStep_moves s
  · exact .none rfl

/-! ### ENCODE -/

theorem KeepsFifos.putBits (bits : List Bool) : KeepsFifos (putBits bits) := by
  intro s
  obtain ⟨hfit, hfull⟩ := putBits_placed bits s
  rcases Nat.lt_or_ge (s.wpos.val + bits.length) 8 with h | h
  · rw [hfit h]; rfl
  · rw [hfull h]; rfl

theorem KeepsFifos.encodeByte (c : Byte) : KeepsFifos (encodeByte c) := by
  intro s
  unfold Machine.encodeByte
  dsimp only
  split
  · rfl
  · exact KeepsFifos.putBits _ s

theorem KeepsFifos.encodeEnd : KeepsFifos encodeEnd := by
  intro s
  unfold Machine.encodeEnd
  split <;> rfl

theorem encodeStep_moves (s : State) : Moves s (encodeStep s) := by
  unfold encodeStep
  split
  · exact .none rfl
  · exact onInPop_moves KeepsFifos.encodeEnd KeepsFifos.encodeByte s
  · exact onOutPush_moves (fun s => KeepsFifos.putBits _ (clearPacker s)) _ s
  · exact onOutPush_moves KeepsFifos.clearPacker.thenFinish _ s
  · exact .none rfl

/-- Settles O59: a step passes at most one stream primitive, and nothing else of it moves a byte. -/
theorem engineStepMovesAtMostOneByteEachWay : Obligations.EngineStepMovesAtMostOneByteEachWay := by
  unfold Obligations.EngineStepMovesAtMostOneByteEachWay
  intro i s t hi h
  show Moves s t
  cases i
  case nop => cases h; exact KeepsFifos.finish.fromStart_moves s
  case clear => cases h; exact KeepsFifos.clearState.thenFinish.fromStart_moves s
  case lutWrite => cases h; exact KeepsFifos.lutWriteBody.fromStart_moves s
  case lutRead => cases h; exact KeepsFifos.lutReadBody.fromStart_moves s
  case lutBuild => cases h; exact KeepsFifos.lutBuildBody.fromStart_moves s
  case treeLoad => cases h; exact treeLoadStep_moves s
  case treeStore => cases h; exact treeStoreStep_moves s
  case encode => cases h; exact encodeStep_moves s
  case readBit => cases h; exact readBitStep_moves s
  case brDiscard =>
    cases h
    refine KeepsFifos.fromStart_moves ?_ s
    exact fun _ => rfl
  case magicCheck => cases h; exact (KeepsFifos.checkMagic KeepsFifos.finish).fromStart_moves s
  case decode => cases h; exact decodeStep_moves s
  case decodeStream => cases h; exact decodeStreamStep_moves s
  case reserved w => cases h; exact (KeepsFifos.raise .badCommand w).fromStart_moves s
  all_goals cases hi

end Sys2Proof.Machine

/-! ## Decoding and encoding

The rows of a table say what both directions need: the opcodes of the opcode map are 0 to 12 (30_encoding.md R121), the
TWs of the bus rows the multiples of 4, and the instruction of a row encodes to the row's own bits. -/

namespace Sys2Proof.Machine

/-- The row a search by key finds is one of the table, and has that key. -/
theorem mem_and_key_of_find? {α β : Type} [DecidableEq β] {rows : List α} {key : α → β} {k : β} {r : α}
    (h : rows.find? (fun r => key r == k) = some r) : r ∈ rows ∧ key r = k :=
  ⟨List.mem_of_find?_eq_some h, by simpa using List.find?_some h⟩

/-! ### Command words -/

theorem reservedWord_iff {w : Word} :
    reservedWord w = true ↔ 0x0D ≤ (w.extractLsb' 0 8).toNat ∨ w.extractLsb' 8 24 ≠ 0 := by
  simp [reservedWord]

theorem commandRows_opcode : commandRows.map (·.opcode.toNat) = List.range 13 := by decide

theorem exists_commandRow_iff {op : Byte} : (∃ r ∈ commandRows, r.opcode = op) ↔ op.toNat < 13 := by
  rw [← List.mem_range, ← commandRows_opcode]
  simp only [List.mem_map, BitVec.toNat_inj]

theorem commandRow_wf_encode {r : CommandRow} (hr : r ∈ commandRows) :
    r.instr.wf = true ∧ encode r.instr = .command (r.opcode.setWidth 32) := by
  have hall : ∀ r ∈ commandRows, r.instr.wf = true ∧ encode r.instr = .command (r.opcode.setWidth 32) := by decide
  exact hall r hr

theorem decodeCommand_of_reserved {w : Word} (h : reservedWord w = true) : decodeCommand w = .reserved w := by
  unfold decodeCommand
  split
  · next hrsvd =>
    have hop : 0x0D ≤ (w.extractLsb' 0 8).toNat := (reservedWord_iff.1 h).resolve_right (absurd hrsvd)
    have hnone : commandRows.find? (fun r => r.opcode == w.extractLsb' 0 8) = none := by
      refine List.find?_eq_none.2 fun r hr he => ?_
      have hlt := exists_commandRow_iff.1 ⟨r, hr, eq_of_beq he⟩
      omega
    rw [hnone]
  · rfl

theorem decodeCommand_of_defined {w : Word} (h : reservedWord w = false) :
    ∃ r ∈ commandRows, r.opcode = w.extractLsb' 0 8 ∧ decodeCommand w = r.instr := by
  obtain ⟨hop, hrsvd⟩ := not_or.1 (mt reservedWord_iff.2 (Bool.not_eq_true _ ▸ h))
  obtain ⟨r₀, hr₀, he₀⟩ := exists_commandRow_iff.2 (Nat.lt_of_not_le hop)
  have hsome : (commandRows.find? fun r => r.opcode == w.extractLsb' 0 8).isSome :=
    List.find?_isSome.2 ⟨r₀, hr₀, beq_iff_eq.2 he₀⟩
  obtain ⟨r, hfind⟩ := Option.isSome_iff_exists.1 hsome
  obtain ⟨hr, he⟩ := mem_and_key_of_find? hfind
  refine ⟨r, hr, he, ?_⟩
  rw [decodeCommand, if_pos (not_not.1 hrsvd), hfind]

theorem decodeCommand_wf (w : Word) : (decodeCommand w).wf = true := by
  cases h : reservedWord w with
  | true => rw [decodeCommand_of_reserved h]; exact h
  | false =>
    obtain ⟨r, hr, -, he⟩ := decodeCommand_of_defined h
    rw [he]
    exact (commandRow_wf_encode hr).1

theorem decodeCommand_eq_reserved_iff {w : Word} : decodeCommand w = .reserved w ↔ reservedWord w = true := by
  refine ⟨fun h => ?_, decodeCommand_of_reserved⟩
  have hwf := decodeCommand_wf w
  rwa [h] at hwf

/-- A word whose RSVD field is 0 is its OPCODE, zero-extended (30_encoding.md R120). -/
theorem opcode_setWidth {w : Word} (h : w.extractLsb' 8 24 = 0) : (w.extractLsb' 0 8).setWidth 32 = w := by
  have hhi : w.toNat / 256 % 2 ^ 24 = 0 := by
    simpa [Nat.shiftRight_eq_div_pow] using congrArg BitVec.toNat h
  refine BitVec.eq_of_toNat_eq ?_
  simp only [BitVec.toNat_setWidth, BitVec.extractLsb'_toNat, Nat.shiftRight_zero]
  omega

theorem encode_decodeCommand (w : Word) : encode (decodeCommand w) = .command w := by
  cases h : reservedWord w with
  | true => rw [decodeCommand_of_reserved h]; rfl
  | false =>
    obtain ⟨r, hr, hop, he⟩ := decodeCommand_of_defined h
    have hrsvd : w.extractLsb' 8 24 = 0 := by
      by_contra hne
      exact Bool.false_ne_true (h.symm.trans (reservedWord_iff.2 (.inr hne)))
    rw [he, (commandRow_wf_encode hr).2, hop, opcode_setWidth hrsvd]

/-! ### Host accesses -/

/-- The access with a given TW (30_encoding.md R123): WE is its top bit, and only a write takes the WDATA. -/
def accessOf (tw : BitVec 9) (wdata : Word) : Access :=
  if tw.msb then .write (tw.setWidth 8) wdata else .read (tw.setWidth 8)

theorem accessOf_append (we : BitVec 1) (addr : BitVec 8) (w : Word) :
    accessOf (we ++ addr) w = if we.msb then .write addr w else .read addr := by
  have hwe : (we ++ addr).msb = we.msb := BitVec.msb_append
  have haddr : (we ++ addr).setWidth 8 = addr := BitVec.setWidth_append_eq_right
  rw [accessOf, hwe, haddr]

theorem accessOf_tw (a : Access) : accessOf a.tw a.wdata = a := by
  cases a with
  | read addr => exact accessOf_append 0 addr 0
  | write addr w => exact accessOf_append 1 addr w

/-- Only a command word can be ill-formed: a `reserved` one that is not reserved. -/
theorem wf_of_not_command {i : Instr} (h : isCommand i = false) : i.wf = true := by
  unfold Instr.wf
  split
  · cases h
  · rfl

theorem encode_accessRow {r : AccessRow} (hr : r ∈ accessRows) (w : Word) :
    encode (r.instr w) = .access (accessOf r.tw w) := by
  have hmap : accessRows.map (fun r => encode (r.instr w)) = accessRows.map fun r => .access (accessOf r.tw w) := rfl
  exact List.map_inj_left.1 hmap r hr

theorem decodeAccess_eq_ok {a : Access} {i : Instr} (h : decodeAccess a = .ok i) :
    ∃ r ∈ accessRows, r.tw = a.tw ∧ r.instr a.wdata = i := by
  unfold decodeAccess at h
  split at h
  · next r hfind =>
    obtain ⟨hr, htw⟩ := mem_and_key_of_find? hfind
    exact ⟨r, hr, htw, Except.ok.inj h⟩
  · cases h

/-! ### The two directions -/

/-- Settles O1: a reserved word decodes to itself. Every other encoding has a literal opcode or TW, whatever the write
data, so the search through the table evaluates, and it stops at the instruction's own row. -/
theorem decodeEncodeGivesTheInstructionBack : Obligations.DecodeEncodeGivesTheInstructionBack := by
  unfold Obligations.DecodeEncodeGivesTheInstructionBack
  intro i hwf
  cases i
  case reserved w => exact congrArg Except.ok (decodeCommand_of_reserved hwf)
  all_goals rfl

/-- Settles O2: what decodes comes from a row, and the row's instruction encodes to the bits that chose it. -/
theorem encodeDecodeGivesTheBitsBack : Obligations.EncodeDecodeGivesTheBitsBack := by
  unfold Obligations.EncodeDecodeGivesTheBitsBack
  intro e i h
  cases e with
  | command w =>
    obtain rfl : decodeCommand w = i := Except.ok.inj h
    exact ⟨decodeCommand_wf w, encode_decodeCommand w⟩
  | access a =>
    obtain ⟨r, hr, htw, rfl⟩ := decodeAccess_eq_ok h
    exact ⟨wf_of_not_command (isCommand_decodeAccess h), by rw [encode_accessRow hr, htw, accessOf_tw]⟩

/-- Settles O4: the reserved words are the ones without a row of the opcode map. -/
theorem reservedCommandWordsAreTheIllegalOnes : Obligations.ReservedCommandWordsAreTheIllegalOnes := by
  unfold Obligations.ReservedCommandWordsAreTheIllegalOnes
  exact fun _ => decodeCommand_eq_reserved_iff.trans reservedWord_iff

/-- Settles O5: the decoders evaluated on the words. -/
theorem specWordsDecodeToTheirInstructions : Obligations.SpecWordsDecodeToTheirInstructions := by
  unfold Obligations.SpecWordsDecodeToTheirInstructions
  exact ⟨by decide, by decide⟩

end Sys2Proof.Machine

/-! ## Progress

A step of a command that is neither Idle nor blocked changes the state: from a command's start it leaves the start, an
InPop takes a byte or ends the command's reading, an OutPush adds a byte (40_host_interface.md R194, R195). -/

namespace Sys2Proof.Machine

/-! ### Leaving the start -/

/-- `f` leaves the engine at no command's start. -/
def LeavesStart (f : State → State) : Prop := ∀ s, (f s).engine ≠ .running .start

theorem LeavesStart.finish : LeavesStart finish := fun _ => by simp
theorem LeavesStart.raise (e : ErrCode) (w : Word) : LeavesStart (raise e w) := fun _ => by simp
theorem LeavesStart.lutReadBody : LeavesStart lutReadBody := fun _ => LeavesStart.finish _

theorem LeavesStart.thenFinish (f : State → State) : LeavesStart fun s => Machine.finish (f s) :=
  fun _ => LeavesStart.finish _

theorem LeavesStart.fromStart {f : State → State} (hf : LeavesStart f) : LeavesStart (fromStart f) := by
  intro s
  rcases fromStart_cases f s with ⟨_, e⟩ | ⟨he, e⟩ <;> rw [e]
  · exact hf s
  · exact he

theorem LeavesStart.lutWriteBody : LeavesStart lutWriteBody := by
  intro s
  unfold Machine.lutWriteBody
  split
  · exact LeavesStart.finish _
  · exact LeavesStart.raise _ _ _

theorem LeavesStart.lutBuildBody : LeavesStart lutBuildBody := by
  intro s
  unfold Machine.lutBuildBody
  split
  · split
    · exact LeavesStart.raise _ _ _
    · exact LeavesStart.finish _
  · exact LeavesStart.raise _ _ _

theorem LeavesStart.treeLoadBegin {loaded : State → State} (hl : LeavesStart loaded) :
    LeavesStart (treeLoadBegin loaded) := by
  intro s
  unfold Machine.treeLoadBegin
  rcases treeLoadLoop_cases loaded 0 { s with brPos := 8, treeValid := false, arena := [], root := 0, stk := [] }
    with ⟨_, e⟩ | ⟨_, r, _, e⟩ | ⟨_, _, e⟩ <;> rw [e]
  · simp
  · exact hl _
  · exact LeavesStart.raise _ _ _

theorem LeavesStart.treeStoreNext (bytes : List Byte) : LeavesStart (treeStoreNext bytes) := by
  intro s
  cases bytes <;> simp [Machine.treeStoreNext]

theorem LeavesStart.checkMagic {cont : State → State} (hc : LeavesStart cont) : LeavesStart (checkMagic cont) := by
  intro s
  unfold Machine.checkMagic
  split
  · exact hc s
  · exact LeavesStart.raise _ _ _

theorem LeavesStart.decodeBegin : LeavesStart decodeBegin := by
  intro s
  unfold Machine.decodeBegin
  split
  · rcases decodeLoop_cases { s with symcount := 0, cur := s.root, dstate := .atRoot } with
      ⟨_, e⟩ | ⟨_, _, e⟩ | ⟨_, _, _, _, _, _, _, ⟨_, _, e⟩ | ⟨_, e⟩⟩
    all_goals exact (congrArg State.engine e).trans_ne (by simp)
  · exact LeavesStart.raise _ _ _

/-- The first step of any command leaves its start. -/
theorem command_leaves_start {i : Instr} {s t : State} (hi : isCommand i = true) (he : s.engine = .running .start)
    (h : exec i s = .next t) : t.engine ≠ .running .start := by
  cases i
  case nop => cases h; exact LeavesStart.finish.fromStart s
  case clear => cases h; exact (LeavesStart.thenFinish clearState).fromStart s
  case lutWrite => cases h; exact LeavesStart.lutWriteBody.fromStart s
  case lutRead => cases h; exact LeavesStart.lutReadBody.fromStart s
  case lutBuild => cases h; exact LeavesStart.lutBuildBody.fromStart s
  case brDiscard => cases h; exact (LeavesStart.thenFinish fun s => { s with brPos := 8 }).fromStart s
  case magicCheck => cases h; exact (LeavesStart.checkMagic LeavesStart.finish).fromStart s
  case reserved w => cases h; exact (LeavesStart.raise .badCommand w).fromStart s
  case treeLoad =>
    cases h
    rw [treeLoadStep_start he]
    exact LeavesStart.treeLoadBegin LeavesStart.finish s
  case treeStore =>
    cases h
    rw [treeStoreStep_start he]
    split
    · exact LeavesStart.treeStoreNext _ s
    · exact LeavesStart.raise _ _ s
  case encode =>
    cases h
    rw [encodeStep_start he]
    simp
  case readBit =>
    cases h
    rw [readBitStep_start he]
    rcases readBit_cases .bitIn s bitRead with ⟨_, e⟩ | ⟨_, e⟩ <;> rw [e]
    · simp
    · exact LeavesStart.finish _
  case decode =>
    cases h
    rw [decodeStep_start he]
    exact LeavesStart.decodeBegin s
  case decodeStream =>
    cases h
    rw [decodeStreamStep_start he]
    exact (LeavesStart.treeLoadBegin LeavesStart.decodeBegin).checkMagic s
  all_goals cases hi

/-! ### The two primitives, enabled -/

/-- `InPop` is enabled (40_host_interface.md R192). -/
def InReady (s : State) : Prop := s.inq ≠ [] ∨ s.inEos = true

theorem not_inReady {s : State} (hq : s.inq = []) (hi : s.inEos = false) : ¬ InReady s := by
  simp [InReady, hq, hi]

theorem ne_of_taken {s t : State} {b : Byte} {q : List Byte} (hq : s.inq = b :: q)
    (h : t.fifos = (q, s.outq, s.outbytes)) : t ≠ s := by
  rintro rfl
  exact List.cons_ne_self b q (hq.symm.trans (fifos_eq_iff.1 h).1)

/-- An enabled InPop takes a byte, or goes on at end of stream to another control point or to the command's end. -/
theorem onInPop_ne {s : State} {eos : State → State} {byte : Byte → State → State} (h : InReady s)
    (he : (eos s).engine ≠ s.engine) (hb : ∀ b, KeepsFifos (byte b)) : onInPop s eos byte ≠ s := by
  rcases onInPop_cases s eos byte with ⟨b, q, hq, e⟩ | ⟨_, _, e⟩ | ⟨hq, hi, _⟩
  · exact ne_of_taken hq ((congrArg State.fifos e).trans (hb b _))
  · exact fun hs => he (congrArg State.engine (e.symm.trans hs))
  · exact absurd h (not_inReady hq hi)

/-- An enabled OutPush adds a byte. -/
theorem onOutPush_ne {s : State} {b : Byte} {cont : State → State} (h : s.outq.length < s.outDepth)
    (hc : KeepsFifos cont) : onOutPush b s cont ≠ s := by
  intro hs
  have hf : s.fifos = (s.inq, s.outq ++ [b], s.outbytes + 1) :=
    (congrArg State.fifos (hs.symm.trans (onOutPush_room h b cont))).trans (hc _)
  have hl := congrArg List.length (fifos_eq_iff.1 hf).2.1
  simp at hl

/-! ### What runs after a primitive leaves the FIFOs -/

theorem KeepsFifos.alloc (n : Node) (k : Nat) {cont : NodeIdx → State → State} (hc : ∀ i, KeepsFifos (cont i)) :
    KeepsFifos fun s => alloc n k s cont := by
  intro s
  rcases alloc_cases n k s cont with ⟨_, e⟩ | ⟨_, e⟩ <;> simp only [e]
  · rfl
  · exact hc _ { s with arena := s.arena ++ [n] }

theorem KeepsFifos.push (n : NodeIdx) (k : Nat) {cont : State → State} (hc : KeepsFifos cont) :
    KeepsFifos fun s => push n k s cont := by
  intro s
  rcases push_cases n k s cont with ⟨_, e⟩ | ⟨_, e⟩ <;> simp only [e]
  · rfl
  · exact hc { s with stk := n :: s.stk }

theorem KeepsFifos.pop (k : Nat) {cont : NodeIdx → State → State} (hc : ∀ i, KeepsFifos (cont i)) :
    KeepsFifos fun s => pop k s cont := by
  intro s
  rcases pop_cases k s cont with ⟨_, e⟩ | ⟨n, rest, _, e⟩ <;> simp only [e]
  · rfl
  · exact hc n { s with stk := rest }

theorem KeepsFifos.treeInterior {loaded : State → State} (hl : KeepsFifos loaded) (k : Nat) :
    KeepsFifos (treeInterior loaded k) :=
  KeepsFifos.pop k fun _ => KeepsFifos.pop k fun _ => KeepsFifos.alloc _ k fun _ =>
    KeepsFifos.push _ k (KeepsFifos.treeLoadLoop hl _)

section
variable {s : State}

theorem treeTagStep_ne {loaded : State → State} {k : Nat} (hl : KeepsFifos loaded)
    (he : s.engine = .running (.treeTag k)) (h : InReady s) : treeTagStep loaded k s ≠ s := by
  refine onInPop_ne h (by simp [he]) fun b s => ?_
  split
  · split <;> rfl
  · split
    · exact KeepsFifos.treeInterior hl k s
    · rfl

theorem treeSymStep_ne {loaded : State → State} {k : Nat} (hl : KeepsFifos loaded)
    (he : s.engine = .running (.treeSym k)) (h : InReady s) : treeSymStep loaded k s ≠ s :=
  onInPop_ne h (by simp [he]) fun _ => KeepsFifos.alloc _ k fun _ =>
    KeepsFifos.push _ k (KeepsFifos.treeLoadLoop hl _)

theorem decodeInStep_ne (he : s.engine = .running .decodeIn) (h : InReady s) : decodeInStep s ≠ s := by
  rcases decodeInStep_cases s with ⟨b, q, hq, hcases⟩ | ⟨_, _, e⟩ | ⟨hq, hi, _⟩
  · refine ne_of_taken hq ?_
    rcases hcases with ⟨_, e⟩ | ⟨u, _, rfl, e⟩ <;> rw [e]
    · rfl
    · exact decodeLoop_fifos _
  · intro hs
    have hidle : s.engine = .idle := congrArg State.engine (hs.symm.trans e)
    exact absurd (he.symm.trans hidle) (by simp)
  · exact absurd h (not_inReady hq hi)

theorem decodeOutStep_ne (h : s.outq.length < s.outDepth) : decodeOutStep s ≠ s :=
  onOutPush_ne h fun s => decodeLoop_fifos { s with symcount := s.symcount + 1, cur := s.root, dstate := .atRoot }

/-! ### The engine's step -/

theorem inReady_of_waitIn {p : Point} (h : s.waitIn = false) (he : s.engine = .running p) (hp : p.isIn = true) :
    InReady s := by
  by_contra hn
  obtain ⟨hq, hi⟩ := not_or.1 hn
  have hw := waitIn_iff.2 ⟨p, he, hp, not_not.1 hq, Bool.not_eq_true _ ▸ hi⟩
  exact Bool.false_ne_true (h.symm.trans hw)

theorem room_of_waitOut {p : Point} (h : s.waitOut = false) (he : s.engine = .running p) (hp : p.isOut = true) :
    s.outq.length < s.outDepth := by
  by_contra hn
  have hw := waitOut_iff.2 ⟨p, he, hp, Nat.not_lt.1 hn⟩
  exact Bool.false_ne_true (h.symm.trans hw)

/-- A command at one of its control points that is not blocked has a step that changes the state. -/
theorem command_ne {t : State} {i : Instr} {p : Point} (hi : isCommand i = true) (he : s.engine = .running p)
    (hp : PointOk i s p) (hin : s.waitIn = false) (hout : s.waitOut = false) (h : exec i s = .next t) : t ≠ s := by
  have hready := inReady_of_waitIn hin he
  have hroom := room_of_waitOut hout he
  cases p
  case start =>
    rintro rfl
    exact command_leaves_start hi he h he
  case treeTag k =>
    obtain ⟨rfl | rfl, _⟩ := hp <;> cases h
    · exact (treeLoadStep_treeTag he).trans_ne (treeTagStep_ne KeepsFifos.finish he (hready rfl))
    · exact (decodeStreamStep_treeTag he).trans_ne (treeTagStep_ne KeepsFifos.decodeBegin he (hready rfl))
  case treeSym k =>
    obtain ⟨rfl | rfl, _⟩ := hp <;> cases h
    · exact (treeLoadStep_treeSym he).trans_ne (treeSymStep_ne KeepsFifos.finish he (hready rfl))
    · exact (decodeStreamStep_treeSym he).trans_ne (treeSymStep_ne KeepsFifos.decodeBegin he (hready rfl))
  case treeOut b rest =>
    obtain ⟨rfl, _⟩ := hp
    cases h
    exact (treeStoreStep_treeOut he).trans_ne (onOutPush_ne (hroom rfl) (KeepsFifos.treeStoreNext rest))
  case encIn =>
    obtain rfl := hp
    cases h
    refine (encodeStep_encIn he).trans_ne (onInPop_ne (hready rfl) ?_ KeepsFifos.encodeByte)
    unfold encodeEnd
    split <;> simp [he]
  case encOut rest =>
    obtain ⟨rfl, _⟩ := hp
    cases h
    exact (encodeStep_encOut he).trans_ne
      (onOutPush_ne (hroom rfl) fun s => KeepsFifos.putBits rest (clearPacker s))
  case encFlush =>
    obtain ⟨rfl, _⟩ := hp
    cases h
    exact (encodeStep_encFlush he).trans_ne (onOutPush_ne (hroom rfl) KeepsFifos.clearPacker.thenFinish)
  case bitIn =>
    obtain ⟨rfl, _⟩ := hp
    cases h
    exact (readBitStep_bitIn he).trans_ne (onInPop_ne (hready rfl) (by simp [bitAtEos, he])
      fun b s => KeepsFifos.bitRead _ { s with brByte := b, brPos := 1 })
  case decodeIn =>
    obtain ⟨rfl | rfl, _⟩ := hp <;> cases h
    · exact (decodeStep_decodeIn he).trans_ne (decodeInStep_ne he (hready rfl))
    · exact (decodeStreamStep_decodeIn he).trans_ne (decodeInStep_ne he (hready rfl))
  case decodeOut =>
    obtain ⟨rfl | rfl, _⟩ := hp <;> cases h
    · exact (decodeStep_decodeOut he).trans_ne (decodeOutStep_ne (hroom rfl))
    · exact (decodeStreamStep_decodeOut he).trans_ne (decodeOutStep_ne (hroom rfl))

theorem engineTurn_busy (h : s.busy = true) : engineTurn s = exec (decodeCommand s.cmdword) s := if_pos h

theorem engineTurn_idle (h : s.busy = false) : engineTurn s = .next s := if_neg (by simp [h])

end

/-- Settles O52: the invariant puts the engine at a control point of the latched command, whose step there moves. -/
theorem enabledEngineStepMovesTheEngine : Obligations.EnabledEngineStepMovesTheEngine := by
  unfold Obligations.EnabledEngineStepMovesTheEngine
  intro s hinv hb hin hout
  obtain ⟨p, he⟩ := busy_eq_true.1 hb
  obtain ⟨t, ht⟩ := exec_next (decodeCommand s.cmdword) s
  exact ⟨t, (engineTurn_busy hb).trans ht,
    command_ne (isCommand_decodeCommand _) he (hinv.point p he) hin hout ht⟩

end Sys2Proof.Machine

/-! ## Host accesses while a command runs -/

namespace Sys2Proof.Machine

/-! ### The operations while BUSY = 1 -/

section
variable {s : State}

theorem readEngineOwned_busy (h : s.busy = true) (v : Word) :
    readEngineOwned v s = .next { s with rdata := Config.busyRead s.draws, draws := s.draws + 1 } := by
  simp [readEngineOwned, h]

theorem writeOperand_busy (h : s.busy = true) (s' : State) : writeOperand s' s = .next s := by
  simp [writeOperand, h]

theorem writeCmd_busy (h : s.busy = true) (w : Word) : writeCmd w s = .next { s with cmdOvr := true } := by
  simp [writeCmd, h]

theorem writeInCtrl_busy (h : s.busy = true) (w : Word) :
    writeInCtrl w s = .next { s with inEos := s.inEos || w.getLsbD 0 } := by
  simp [writeInCtrl, h]

end

/-! ### The frame -/

/-- From `s` to `t` nothing of a running command changes: at most INQ, by a push, OUTQ, by a pop, IN_EOS, by setting it,
and what belongs to the host alone. -/
structure KeepsCommand (s t : State) : Prop where
  frame : t = { s with
    inq := t.inq, outq := t.outq, inEos := t.inEos, irqEn := t.irqEn, irqPend := t.irqPend, cmdOvr := t.cmdOvr,
    inOvf := t.inOvf, nodeAddr := t.nodeAddr, rdata := t.rdata, draws := t.draws }
  inq   : t.inq = s.inq ∨ ∃ b, t.inq = s.inq ++ [b]
  outq  : t.outq = s.outq ∨ ∃ b, s.outq = b :: t.outq
  inEos : s.inEos = true → t.inEos = true

theorem pushInData_keepsCommand {w : Word} {s t : State} (h : pushInData w s = .next t) : KeepsCommand s t := by
  rcases pushInData_cases w s with ⟨_, _, e⟩ | ⟨_, e⟩ <;> cases e.symm.trans h
  · exact ⟨rfl, .inr ⟨_, rfl⟩, .inl rfl, id⟩
  · exact ⟨rfl, .inl rfl, .inl rfl, id⟩

theorem popOutData_keepsCommand {s t : State} (h : popOutData s = .next t) : KeepsCommand s t := by
  rcases popOutData_cases s with ⟨b, q, hq, e⟩ | ⟨_, e⟩ <;> cases e.symm.trans h
  · exact ⟨rfl, .inl rfl, .inr ⟨b, hq⟩, id⟩
  · exact ⟨rfl, .inl rfl, .inl rfl, id⟩

/-- A host access changes nothing of a running command. -/
theorem access_keepsCommand {i : Instr} {s t : State} (hi : isCommand i = false) (hb : s.busy = true)
    (h : exec i s = .next t) : KeepsCommand s t := by
  cases i
  case nop | clear | lutWrite | lutRead | lutBuild | treeLoad | treeStore | encode | readBit | brDiscard |
      magicCheck | decode | decodeStream | reserved => cases hi
  case rdErrcode | rdErrpos | rdSymcountLo | rdSymcountHi | rdOutbytesLo | rdOutbytesHi | rdTreeInfo | rdDecState |
      rdBrState | rdBitResult | rdLutLen | rdLutBits0 | rdLutBits1 | rdLutBits2 | rdLutBits3 | rdLutBits4 |
      rdLutBits5 | rdLutBits6 | rdLutBits7 | rdNodeData =>
    cases (readEngineOwned_busy hb _).symm.trans h
    exact ⟨rfl, .inl rfl, .inl rfl, id⟩
  case wrTreeSize | wrFileSizeLo | wrFileSizeHi | wrHdrMagic | wrLutSym | wrLutLen | wrLutBits0 | wrLutBits1 |
      wrLutBits2 | wrLutBits3 | wrLutBits4 | wrLutBits5 | wrLutBits6 | wrLutBits7 =>
    cases (writeOperand_busy hb _).symm.trans h
    exact ⟨rfl, .inl rfl, .inl rfl, id⟩
  case rdOutData => exact popOutData_keepsCommand h
  case wrInData => exact pushInData_keepsCommand h
  case wrCmd w =>
    cases (writeCmd_busy hb w).symm.trans h
    exact ⟨rfl, .inl rfl, .inl rfl, id⟩
  case wrInCtrl w =>
    cases (writeInCtrl_busy hb w).symm.trans h
    exact ⟨rfl, .inl rfl, .inl rfl, fun he => by simp [he]⟩
  -- The exact reads, the writes with no effect, and CTRL, IRQ_STATUS and NODE_ADDR.
  all_goals cases h; exact ⟨rfl, .inl rfl, .inl rfl, id⟩

/-! ### A push and a pop commute with a command's step

`exec_fed` says that more bytes behind INQ's, or before OUTQ's, are carried through the step of a command that is not
blocked. -/

theorem pushInData_room {s : State} (w : Word) (he : s.inEos = false) (hr : s.inq.length < s.inDepth) :
    pushInData w s = .next { s with inq := s.inq ++ [w.extractLsb' 0 8] } := by
  simp [pushInData, he, hr]

/-- What a read of OUT_DATA returns with the byte `b` (40_host_interface.md R184). -/
def outWord (b : Byte) : Word := (0 : BitVec 23) ++ (1 : BitVec 1) ++ b

theorem popOutData_byte {s : State} {b : Byte} {q : List Byte} (h : s.outq = b :: q) :
    popOutData s = .next { s with outq := q, rdata := outWord b } := by
  simp [popOutData, h, outWord]

section
variable {c : Instr} {s u : State}

/-- A command's step leaves no less room in INQ, and the end of the input unmarked. -/
theorem command_keeps_room (hc : isCommand c = true) (h : exec c s = .next u) (he : s.inEos = false)
    (hr : s.inq.length < s.inDepth) : u.inEos = false ∧ u.inq.length < u.inDepth := by
  obtain ⟨g, hg, _⟩ := command_hostOwned_staging hc h
  have hp : u.params = s.params := congrArg HostOwned.params hg
  have hd : u.inDepth = s.inDepth := by rw [State.inDepth, hp]; rfl
  refine ⟨(congrArg HostOwned.inEos hg).trans he, ?_⟩
  rcases (engineStepMovesAtMostOneByteEachWay c s u hc h).1 with hq | ⟨b, hq⟩
  · rwa [hq, hd]
  · rw [hq, List.length_cons] at hr
    omega

theorem push_commutes (w : Word) (hc : isCommand c = true) (h : exec c s = .next u) (hin : s.waitIn = false)
    (hout : s.waitOut = false) (he : s.inEos = false) (hr : s.inq.length < s.inDepth) :
    ∃ z, exec c { s with inq := s.inq ++ [w.extractLsb' 0 8] } = .next z ∧ pushInData w u = .next z := by
  obtain ⟨g, hg, _⟩ := command_hostOwned_staging hc h
  obtain ⟨he', hr'⟩ := command_keeps_room hc h he hr
  have hread : u.rdata = s.rdata := congrArg HostOwned.rdata hg
  refine ⟨_, exec_fed (p := [w.extractLsb' 0 8]) (q := []) (r := s.rdata) hc (.inr ⟨he, hin⟩) hout h, ?_⟩
  rw [pushInData_room w he' hr', State.fed, ← hread]
  rfl

theorem pop_commutes {b : Byte} {q : List Byte} (hc : isCommand c = true) (h : exec c s = .next u)
    (hout : s.waitOut = false) (hq : s.outq = b :: q) :
    ∃ z, exec c { s with outq := q, rdata := outWord b } = .next z ∧
      popOutData u = .next z := by
  obtain ⟨z, hz⟩ := exec_next c { s with outq := q, rdata := outWord b }
  obtain ⟨g, hg, _⟩ := command_hostOwned_staging hc hz
  have hread : z.rdata = outWord b := congrArg HostOwned.rdata hg
  have hback : State.fed { s with outq := q, rdata := outWord b } [] [b] s.rdata = s := by
    simp [State.fed, ← hq]
  have hfed := exec_fed (p := []) (q := [b]) (r := s.rdata) hc (.inl rfl) (by rw [hback]; exact hout) hz
  rw [hback] at hfed
  cases h.symm.trans hfed
  refine ⟨z, hz, ?_⟩
  rw [popOutData_byte (s := z.fed [] [b] s.rdata) rfl, ← hread]
  simp [State.fed]

end

/-- Settles O57: no access writes what a running command is made of; a push and a pop work at the ends of the FIFOs that
the command's step does not look at. -/
theorem hostAccessesKeepARunningCommand : Obligations.HostAccessesKeepARunningCommand := by
  unfold Obligations.HostAccessesKeepARunningCommand
  intro i s t hi h hb
  obtain ⟨hframe, hinq, houtq, heos⟩ := access_keepsCommand hi hb h
  refine ⟨hframe, hinq, houtq, heos, fun hin hout ha c u hc hu => ?_⟩
  rcases ha with ⟨⟨w, rfl⟩, he, hr⟩ | ⟨rfl, hne⟩
  · cases (pushInData_room w he hr).symm.trans h
    exact push_commutes w hc hu hin hout he hr
  · obtain ⟨b, q, hq⟩ := List.exists_cons_of_ne_nil hne
    cases (popOutData_byte hq).symm.trans h
    exact pop_commutes hc hu hout hq

end Sys2Proof.Machine

/-! ## The engine's turn -/

namespace Sys2Proof.Machine

theorem step_engine {s : State} {rest : List Input} (h : s.inputs = .engine :: rest) :
    step s = engineTurn { s with inputs := rest } := by
  simp [step, h]

/-- Settles O7: the turn is the engine's when no input is left or the first one is its turn. -/
theorem stepOnTheEnginesTurn : Obligations.StepOnTheEnginesTurn := by
  unfold Obligations.StepOnTheEnginesTurn
  intro s
  refine ⟨fun hb => ⟨fun hs => ?_, fun rest hs => ?_⟩, fun hb => ⟨fun hs => ?_, fun rest hs => ?_⟩⟩
  · rw [step_silent hs, engineTurn_busy hb]
  · rw [step_engine hs]
    exact engineTurn_busy hb
  · rw [step_silent hs, engineTurn_idle hb]
  · rw [step_engine hs]
    exact engineTurn_idle hb

end Sys2Proof.Machine

/-! ## The registers the host reads and writes

Each access is an operation of its register's kind (40_host_interface.md section 1), so each statement follows from what
that operation does; a statement about a list of registers is settled register by register. -/

namespace Sys2Proof.Machine

section
variable {s : State}

theorem readEngineOwned_idle (h : s.busy = false) (v : Word) : readEngineOwned v s = .next { s with rdata := v } := by
  simp [readEngineOwned, h]

theorem writeOperand_idle (h : s.busy = false) (s' : State) : writeOperand s' s = .next s' := by
  simp [writeOperand, h]

theorem writeCmd_idle (h : s.busy = false) (w : Word) : writeCmd w s = .next (accept w s) := by
  simp [writeCmd, h]

theorem pushInData_dropped (w : Word) (h : s.inEos = true ∨ s.inDepth ≤ s.inq.length) :
    pushInData w s = .next { s with inOvf := true } := by
  simp [pushInData, h]

end

/-! ### Registers without effect -/

/-- Settles O11: these registers have the read that returns 0 or the write that is ignored. -/
theorem writeOnlyReadsAndReadOnlyWritesDoNothing : Obligations.WriteOnlyReadsAndReadOnlyWritesDoNothing := by
  unfold Obligations.WriteOnlyReadsAndReadOnlyWritesDoNothing
  refine ⟨fun i hi s => ?_, fun f hf w s => ?_⟩
  · show exec i s = readZero s
    fin_cases hi <;> rfl
  · show exec (f w) s = writeIgnored s
    fin_cases hf <;> rfl

/-- Settles O12: every unmapped word has the read that returns 0 and the write that is ignored. -/
theorem unmappedAddressesReadZeroAndIgnoreWrites : Obligations.UnmappedAddressesReadZeroAndIgnoreWrites := by
  unfold Obligations.UnmappedAddressesReadZeroAndIgnoreWrites
  refine ⟨fun i hi s => ?_, fun f hf w s => ?_⟩
  · show exec i s = readZero s
    fin_cases hi <;> rfl
  · show exec (f w) s = writeIgnored s
    fin_cases hf <;> rfl

/-! ### Registers exact at all times -/

/-- Settles O13: every meaning is the register's own; a Boolean's word is its bit, zero-extended. -/
theorem controlAndInterruptRegisters : Obligations.ControlAndInterruptRegisters := by
  unfold Obligations.ControlAndInterruptRegisters
  intro w s
  have hstatus : exec (.wrIrqStatus w) s = .next { s with irqPend := s.irqPend && !w.getLsbD 0 } := rfl
  refine ⟨rfl, ?_, fun hw => ?_, fun hw => ?_, ?_, Bool.and_eq_true_iff⟩
  · rw [zero_append]; rfl
  · rw [hstatus, hw, Bool.not_true, Bool.and_false]
  · rw [hstatus, hw, Bool.not_false, Bool.and_true]
  · rw [zero_append]; rfl

/-- Settles O14: STATUS is read exactly, and CUR_OP is the latched word's low byte. -/
theorem statusReadReturnsItsFields : Obligations.StatusReadReturnsItsFields := by
  unfold Obligations.StatusReadReturnsItsFields
  exact fun _ => rfl

/-- Settles O20: the reads are exact, and a field behind zeros is the field, zero-extended. -/
theorem configurationReadsAreExact : Obligations.ConfigurationReadsAreExact := by
  unfold Obligations.ConfigurationReadsAreExact
  intro s
  simp only [zero_append]
  exact ⟨rfl, rfl, rfl, rfl, rfl, rfl⟩

/-! ### CMD, IN_DATA and IN_CTRL -/

/-- Settles O16: an accepted word is latched and starts the engine, a dropped one leaves only CMD_OVR. -/
theorem cmdWriteIsAcceptedOrDropped : Obligations.CmdWriteIsAcceptedOrDropped := by
  unfold Obligations.CmdWriteIsAcceptedOrDropped
  exact fun w s => ⟨fun hb => writeCmd_idle hb w, fun hb => writeCmd_busy hb w, rfl, rfl⟩

/-- Settles O17: there is room below IN_DEPTH while the end is not marked. -/
theorem inDataWritePushesOrDrops : Obligations.InDataWritePushesOrDrops := by
  unfold Obligations.InDataWritePushesOrDrops
  exact fun w s => ⟨fun he hr => pushInData_room w he hr, fun h => pushInData_dropped w (h.imp_right Eq.ge)⟩

/-- Settles O18: while Idle the three other actions come first; SET_EOS is the last at any time. -/
theorem inCtrlWriteFlushesAndMarksTheEnd : Obligations.InCtrlWriteFlushesAndMarksTheEnd := by
  unfold Obligations.InCtrlWriteFlushesAndMarksTheEnd
  intro w s
  have hset : ∀ e b : Bool, (e || b) = if b = true then true else e := by decide
  have hclr : ∀ e b : Bool, (e && !b) = if b = true then false else e := by decide
  refine ⟨fun hb => ?_, fun hb => ?_⟩
  · rcases writeInCtrl_cases w s with ⟨hb', _⟩ | ⟨_, e⟩
    · exact absurd (hb.symm.trans hb') (by simp)
    · rw [hset, hclr, hclr] at e
      exact e
  · exact (writeInCtrl_busy hb w).trans (by rw [hset])

/-! ### Operand registers -/

/-- Settles O19: an operand write is dropped while BUSY = 1; while Idle LUT_BITSn replaces its own 32 bits. -/
theorem operandRegisterWrites : Obligations.OperandRegisterWrites := by
  unfold Obligations.OperandRegisterWrites
  refine ⟨fun f hf w s hb => ?_, fun w s hb => ⟨?_, ?_, fun n hn m hm j hj => ?_⟩⟩
  · fin_cases hf <;> exact writeOperand_busy hb _
  · exact ⟨writeOperand_idle hb _, writeOperand_idle hb _, writeOperand_idle hb _, writeOperand_idle hb _,
      writeOperand_idle hb _, writeOperand_idle hb _⟩
  · exact ⟨writeOperand_idle hb _, writeOperand_idle hb _, writeOperand_idle hb _, writeOperand_idle hb _,
      writeOperand_idle hb _, writeOperand_idle hb _, writeOperand_idle hb _, writeOperand_idle hb _⟩
  · have hdiv : (32 * m + j) / 32 = m := by omega
    have hmod : (32 * m + j) % 32 = j := by omega
    rw [setLutWord_getLsbD _ _ _ (by omega), hdiv, hmod]

/-! ### Engine-owned registers -/

/-- Settles O21: while Idle each reads as its own format's word. -/
theorem engineOwnedReadsWhileIdle : Obligations.EngineOwnedReadsWhileIdle := by
  unfold Obligations.EngineOwnedReadsWhileIdle
  intro s hb
  have hread := readEngineOwned_idle hb
  rw [zero_append, zero_append s.lutLen]
  exact ⟨⟨hread _, hread _, hread _, hread _, hread _, hread _, hread _, hread _, hread _, hread _, hread _⟩,
    ⟨hread _, hread _, hread _, hread _, hread _, hread _, hread _, hread _⟩, hread _⟩

/-- Settles O22: each draws its value. -/
theorem engineOwnedReadsWhileBusyHaveNoSideEffect : Obligations.EngineOwnedReadsWhileBusyHaveNoSideEffect := by
  unfold Obligations.EngineOwnedReadsWhileBusyHaveNoSideEffect
  intro i hi s hb
  refine ⟨Config.busyRead s.draws, ?_⟩
  fin_cases hi <;> exact readEngineOwned_busy hb _

/-! ### OUT_DATA and FIFO_STATUS -/

theorem outWord_eq_or (b : Byte) : outWord b = 0x100#32 ||| b.setWidth 32 := rfl

theorem popOutData_empty {s : State} (h : s.outq = []) : popOutData s = .next { s with rdata := 0 } := by
  simp [popOutData, h]

/-- Settles O23: OUT_DATA pops, FIFO_STATUS reads exactly. -/
theorem outDataAndFifoStatusReads : Obligations.OutDataAndFifoStatusReads := by
  unfold Obligations.OutDataAndFifoStatusReads
  intro s
  refine ⟨fun b q hq => ?_, popOutData_empty, rfl⟩
  rw [← outWord_eq_or]
  exact popOutData_byte hq

end Sys2Proof.Machine

/-! ## The commands without control points -/

namespace Sys2Proof.Machine

/-- Settles O26: both run from their start to `finish()`. -/
theorem nopAndBrDiscardFinish : Obligations.NopAndBrDiscardFinish := by
  unfold Obligations.NopAndBrDiscardFinish
  exact fun s he => ⟨congrArg _ (fromStart_start he _), congrArg _ (fromStart_start he _)⟩

/-- Settles O27: CLEAR runs from its start, and the empty table has no code for any symbol. -/
theorem clearEmptiesTheBlock : Obligations.ClearEmptiesTheBlock := by
  unfold Obligations.ClearEmptiesTheBlock
  intro s he
  refine ⟨finish (clearState s), congrArg _ (fromStart_start he _), rfl, fun _ => rfl, rfl, rfl⟩

/-- Settles O28: such a word is decoded to the reserved command, which raises at its start. -/
theorem reservedCommandEndsWithBadCommand : Obligations.ReservedCommandEndsWithBadCommand := by
  unfold Obligations.ReservedCommandEndsWithBadCommand
  intro s he hw
  have hexec : exec (.reserved s.cmdword) s = .next (raise .badCommand s.cmdword s) :=
    congrArg _ (fromStart_start he _)
  refine ⟨hexec, ?_⟩
  rw [engineTurn_busy (busy_eq_true.2 ⟨_, he⟩), decodeCommand_of_reserved (reservedWord_iff.2 hw), hexec]

end Sys2Proof.Machine

/-! ## The code table commands

LUT_BUILD's table is the list of the tree's leaves written down in the walk's order, so that it reads as the last leaf
of each symbol. -/

namespace Sys2Proof.Machine

/-! ### LUT_READ and LUT_WRITE -/

/-- Settles O30: LUT_READ copies the entry and finishes. -/
theorem lutReadCopiesTheEntry : Obligations.LutReadCopiesTheEntry := by
  unfold Obligations.LutReadCopiesTheEntry
  exact fun s he => congrArg _ (fromStart_start he _)

theorem lutWriteBody_store {s : State} (h : s.lutLen.toNat ≤ 256) : lutWriteBody s =
    finish { s with lut := s.lut.set s.lutSym ⟨s.lutLen, s.lutBits &&& mask s.lutLen.toNat⟩ } := if_pos h

theorem lutWriteBody_badLen {s : State} (h : 256 < s.lutLen.toNat) :
    lutWriteBody s = raise .lutBadLen (s.lutLen.setWidth 32) s := if_neg (Nat.not_le.2 h)

/-- Masking keeps the bits below `n` (41_code_table.md R225). -/
theorem and_mask_getLsbD (bits : BitVec 256) {n : Nat} (h : n ≤ 256) (i : Nat) :
    (bits &&& mask n).getLsbD i = (decide (i < n) && bits.getLsbD i) := by
  rw [BitVec.getLsbD_and, mask_getLsbD, Bool.and_comm]
  by_cases hi : i < n
  · simp [hi, show i < 256 by omega]
  · simp [hi]

/-- Settles O29: the masked code is written to the table, whose laws say what each symbol then reads as. -/
theorem lutWriteStoresTheMaskedCode : Obligations.LutWriteStoresTheMaskedCode := by
  unfold Obligations.LutWriteStoresTheMaskedCode
  intro s he hw
  have hexec : exec .lutWrite s = .next (lutWriteBody s) := congrArg _ (fromStart_start he _)
  refine ⟨fun hn => ?_, fun hn => by rw [hexec, lutWriteBody_badLen hn]⟩
  have hsame := CodeTable.get_set_same s.lutSym ⟨s.lutLen, s.lutBits &&& mask s.lutLen.toNat⟩ hw
  rw [hexec, lutWriteBody_store hn]
  refine ⟨_, rfl, rfl, CodeTable.wf_set _ _ hw, ?_, fun i => ?_, fun c hc => CodeTable.get_set_other _ hc⟩
  · rw [finish_lut, hsame]
  · rw [finish_lut, hsame, and_mask_getLsbD _ hn]

/-! ### LUT_BUILD -/

/-- The table in which the paths are recorded in order. -/
def recordPaths (ps : List (Byte × List Bool)) : CodeTable :=
  ps.foldl (fun tab p => tab.set p.1 (Code.ofPath p.2)) []

/-- What the paths say of the symbol `c`: the code of its last one. -/
def lastCode (ps : List (Byte × List Bool)) (c : Byte) : Code :=
  (ps.reverse.find? (fun p => p.1 == c)).elim Code.empty fun p => Code.ofPath p.2

theorem codeOf_eq_lastCode (t : HuffTree) (c : Byte) : t.codeOf c = lastCode t.paths c := by
  unfold HuffTree.codeOf lastCode
  cases t.paths.reverse.find? (fun p => p.1 == c) <;> rfl

theorem recordPaths_concat (ps : List (Byte × List Bool)) (p : Byte × List Bool) :
    recordPaths (ps ++ [p]) = (recordPaths ps).set p.1 (Code.ofPath p.2) := by
  simp [recordPaths]

theorem lastCode_concat (ps : List (Byte × List Bool)) (p : Byte × List Bool) (c : Byte) :
    lastCode (ps ++ [p]) c = if p.1 = c then Code.ofPath p.2 else lastCode ps c := by
  by_cases h : p.1 = c <;> simp [lastCode, h]

/-- The recorded table is canonical, and reads as the last path of each symbol. -/
theorem recordPaths_spec (ps : List (Byte × List Bool)) :
    (recordPaths ps).wf = true ∧ ∀ c, (recordPaths ps).get c = lastCode ps c := by
  induction ps using List.reverseRecOn with
  | nil => exact ⟨rfl, fun _ => rfl⟩
  | append_singleton ps p ih =>
    obtain ⟨hw, hget⟩ := ih
    rw [recordPaths_concat]
    refine ⟨CodeTable.wf_set _ _ hw, fun c => ?_⟩
    rw [lastCode_concat]
    by_cases h : p.1 = c
    · subst h
      rw [if_pos rfl, CodeTable.get_set_same _ _ hw]
    · rw [if_neg h, CodeTable.get_set_other _ (Ne.symm h), hget]

/-- The root of a held tree of two leaves or more is an interior node. -/
theorem Holds.root_inner {s : State} {t : HuffTree} (h : Holds s t) (ht : 2 ≤ t.leaves) :
    (s.node s.root).leaf = false := by
  cases t with
  | leaf c => simp [HuffTree.leaves] at ht
  | node l r =>
    have hn := h.placed.inner_node
    have e : (HuffTree.node l r).size - 1 = 0 + l.size + r.size := by simp only [HuffTree.size]; omega
    rw [h.root, e, hn]

theorem Holds.codeWalk {s : State} {t : HuffTree} (h : Holds s t) :
    codeWalk s nodeCap s.root [] [] = recordPaths t.paths := by
  have hf : t.leaves ≤ nodeCap := h.leaves.trans (by decide)
  simpa [h.root, recordPaths] using h.placed.codeWalk hf [] []

/-- LUT_BUILD with a tree of two leaves or more records its paths (41_code_table.md R240). -/
theorem Holds.lutBuildBody {s : State} {t : HuffTree} (h : Holds s t) (ht : 2 ≤ t.leaves) :
    lutBuildBody s = finish { s with lut := recordPaths t.paths } := by
  simp [Machine.lutBuildBody, h.valid, h.root_inner ht, h.codeWalk]

/-- Settles O31: the two checks come first; the walk of the held tree records its paths in order. -/
theorem lutBuildRecordsEveryLeafPath : Obligations.LutBuildRecordsEveryLeafPath := by
  unfold Obligations.LutBuildRecordsEveryLeafPath
  intro s he
  have hexec : exec .lutBuild s = .next (lutBuildBody s) := congrArg _ (fromStart_start he _)
  refine ⟨fun hv => ?_, fun hv hl => ?_, fun t h ht => ?_⟩
  · simp [hexec, lutBuildBody, hv]
  · simp [hexec, lutBuildBody, hv, hl]
  · obtain ⟨hw, hget⟩ := recordPaths_spec t.paths
    rw [hexec, h.lutBuildBody ht]
    exact ⟨_, rfl, rfl, hw, fun c => (hget c).trans (codeOf_eq_lastCode t c).symm⟩

end Sys2Proof.Machine

/-! ## DECODE over a whole bit stream

From the loop head at the root each path leads to its leaf, whose OutPush leads to the loop head at the root again. The
codes of a table built from the tree are paths of the tree, so DECODE of codes is DECODE of paths. -/

namespace Sys2Proof.Machine

/-- `s` after DECODE has read the paths `xs`, pushed their symbols and finished (45_decoder.md R365, R367). -/
def State.decoded (s : State) (xs : List (Byte × List Bool)) : State :=
  { s.afterBits (xs.flatMap Prod.snd).length with
    outq := s.outq ++ xs.map Prod.fst, outbytes := s.outbytes + BitVec.ofNat 64 xs.length
    symcount := s.fileSize, dstate := .done, cur := s.root, engine := .idle, done := true, irqPend := true }

/-- DECODE's loop stands at the root of the held tree `t` with the symbols of `xs` still to come: the count says so,
there is room for them, and the bits before the reader begin with their paths. -/
structure AtRoot (t : HuffTree) (s : State) (xs : List (Byte × List Bool)) (more : List Bool) : Prop where
  holds   : Holds s t
  leaves  : 2 ≤ t.leaves
  latched : DecodeLatched s
  silent  : s.inputs = []
  cur     : s.cur = s.root
  paths   : ∀ x ∈ xs, x ∈ t.paths
  short   : xs.length < 2 ^ 64
  count   : s.symcount + BitVec.ofNat 64 xs.length = s.fileSize
  room    : s.outq.length + xs.length ≤ s.outDepth
  pend    : s.pendingBits = xs.flatMap Prod.snd ++ more

/-- `s` at the loop head again, after the `m` bits of the path of `c` are read and `c` is pushed
(45_decoder.md R365). -/
def State.emitted (s : State) (c : Byte) (m : Nat) : State :=
  { s.afterBits m with
    outq := s.outq ++ [c], outbytes := s.outbytes + 1, symcount := s.symcount + 1, cur := s.root, dstate := .atRoot
    engine := .running .decodeOut }

theorem emitted_decoded (s : State) (x : Byte × List Bool) (xs : List (Byte × List Bool)) :
    (s.emitted x.1 x.2.length).decoded xs = s.decoded (x :: xs) := by
  have hbits := afterBits_add s x.2.length (xs.flatMap Prod.snd).length
  rw [State.decoded, State.decoded, List.flatMap_cons, List.length_append, ← hbits, List.map_cons, List.length_cons,
    ← count_succ, ← List.singleton_append, ← List.append_assoc]
  rfl

/-- The OutPush of the leaf `c`, with room, leads to the loop head. -/
theorem step_emit {s : State} {c : Byte} {ds : DState} {i : NodeIdx} (m : Nat) (hl : DecodeLatched s)
    (hi : s.inputs = []) (hr : s.outq.length < s.outDepth) (hc : (s.node i).sym = c) :
    step { s.afterBits m with cur := i, dstate := ds, engine := .running .decodeOut } =
      .next (decodeLoop (bufferedBits (s.emitted c m)) (s.emitted c m)) := by
  subst hc
  rw [step_decodeOut (by exact hl) (by exact hi) rfl, decodeOutStep, onOutPush_room (by exact hr)]
  rfl

/-- The path of the next symbol is followed to its leaf and the symbol pushed (45_decoder.md R365, R366). -/
theorem AtRoot.emit {t : HuffTree} {s : State} {x : Byte × List Bool} {xs : List (Byte × List Bool)}
    {more : List Bool} (h : AtRoot t s (x :: xs) more) : AtRoot t (s.emitted x.1 x.2.length) xs more ∧
      ∃ n, steps n (decodeLoop (bufferedBits s) s) = .next
        (decodeLoop (bufferedBits (s.emitted x.1 x.2.length)) (s.emitted x.1 x.2.length)) := by
  obtain ⟨c, path⟩ := x
  have hshort := h.short
  have hroom := h.room
  have hcount := h.count
  rw [List.length_cons] at hshort hroom hcount
  obtain ⟨hleaf, hinner⟩ := h.holds.placed.walk (h.paths _ List.mem_cons_self)
  rw [Nat.zero_add, ← h.holds.root, ← h.cur] at hleaf hinner
  have hne : path ≠ [] := by
    rintro rfl
    have hroot := h.holds.root_inner h.leaves
    rw [← h.cur, show s.node s.cur = _ from hleaf] at hroot
    cases hroot
  have hsym : s.symcount ≠ s.fileSize := by bv_omega
  obtain ⟨n, u, hn, ⟨ds, hu⟩, hpend⟩ := run_path path s (xs.flatMap Prod.snd ++ more) h.silent h.latched hne
    hinner (by rw [hleaf]) (by rw [h.pend, List.flatMap_cons, List.append_assoc]) hsym
  subst hu
  refine ⟨{ h with
    holds := ⟨h.holds.valid, h.holds.arena, h.holds.root, h.holds.leaves⟩, cur := rfl
    paths := fun y hy => h.paths y (List.mem_cons_of_mem _ hy), short := by omega
    count := (count_succ _ _).trans hcount, room := ?_, pend := hpend }, n + 1, ?_⟩
  · show (s.outq ++ [c]).length + xs.length ≤ s.outDepth
    rw [List.length_append, List.length_singleton]
    omega
  · exact steps_trans hn ((steps_one _).trans (step_emit _ h.latched h.silent (by omega) (by rw [hleaf])))

/-- DECODE's loop emits the symbols still to come and finishes (45_decoder.md R365, R367). -/
theorem AtRoot.run {t : HuffTree} {xs : List (Byte × List Bool)} {more : List Bool} : ∀ {s : State},
    AtRoot t s xs more → ∃ n, steps n (decodeLoop (bufferedBits s) s) = .next (s.decoded xs) := by
  induction xs with
  | nil =>
    intro s h
    have hdone : s.symcount = s.fileSize := by simpa using h.count
    refine ⟨0, ?_⟩
    rw [steps_zero, decodeLoop_done _ hdone, State.decoded, List.flatMap_nil, List.length_nil, afterBits_zero,
      ← hdone, ← h.cur]
    simp [finish]
  | cons x xs ih =>
    intro s h
    obtain ⟨hv, m, hm⟩ := h.emit
    obtain ⟨n, hn⟩ := ih hv
    rw [emitted_decoded] at hn
    exact ⟨m + n, steps_trans hm hn⟩

/-- DECODE of paths of the held tree, from its start (45_decoder.md R365). -/
theorem decode_run {t : HuffTree} {s : State} {xs : List (Byte × List Bool)} {more : List Bool} (hb : Begins 0x0B s)
    (ht : Holds s t) (h2 : 2 ≤ t.leaves) (hx : ∀ x ∈ xs, x ∈ t.paths) (hs : xs.length < 2 ^ 64)
    (hf : s.fileSize = BitVec.ofNat 64 xs.length) (hr : s.outq.length + xs.length ≤ s.outDepth)
    (hp : s.pendingBits = xs.flatMap Prod.snd ++ more) : ∃ n, steps n s = .next (s.decoded xs) := by
  obtain ⟨he, hw, hi⟩ := hb
  let v : State := { s with symcount := 0, cur := s.root, dstate := .atRoot }
  have hv : AtRoot t v xs more :=
    { holds := ⟨ht.valid, ht.arena, ht.root, ht.leaves⟩, leaves := h2, latched := .inl hw, silent := hi, cur := rfl
      paths := hx, short := hs, count := (BitVec.zero_add _).trans hf.symm, room := hr, pend := hp }
  have hstep : step s = .next (decodeLoop (bufferedBits v) v) := by
    rw [step_command (i := .decode) hi he (by rw [hw]; rfl)]
    show Host.Outcome.next (decodeStep s) = _
    rw [decodeStep_start he, decodeBegin, if_pos ht.valid]
    rfl
  obtain ⟨n, hn⟩ := hv.run
  exact ⟨n + 1, (steps_succ hstep n).trans hn⟩

/-! ### The packed stream before an empty reader -/

theorem packed_length (bits : List Bool) : (packed bits).length = (bits.length + 7) / 8 := by simp [packed]

/-- An empty reader before the packed form of `bits` has these bits before it, and then some. -/
theorem pendingBits_packed {s : State} {bits : List Bool} {rest : List Byte} (h8 : s.brPos = 8)
    (hq : s.inq = packed bits ++ rest) : ∃ more, s.pendingBits = bits ++ more := by
  obtain ⟨pad, -, hpad⟩ := packed_bits bits
  exact ⟨_, by rw [pendingBits_empty h8, hq, List.flatMap_append, hpad, List.append_assoc]⟩

/-- To read `bits` from their packed form an empty reader takes exactly the packed bytes. -/
theorem afterBits_packed_inq {s : State} {bits : List Bool} {rest : List Byte} (h8 : s.brPos = 8)
    (hq : s.inq = packed bits ++ rest) : (s.afterBits bits.length).inq = rest := by
  show s.inq.drop ((bits.length - bufferedBits s + 7) / 8) = rest
  rw [bufferedBits_eq_zero.2 h8, Nat.sub_zero, ← packed_length, hq, List.drop_left]

/-! ### Codes and paths -/

/-- The code of a symbol that has one is the path of a leaf of that symbol (41_code_table.md R240). -/
theorem mem_paths_of_codeOf {t : HuffTree} (ht : t.leaves ≤ 256) {c : Byte} (h : (t.codeOf c).len ≠ 0) :
    (c, (t.codeOf c).toBits) ∈ t.paths := by
  rw [codeOf_eq_lastCode, lastCode] at h ⊢
  cases hf : t.paths.reverse.find? (fun p => p.1 == c) with
  | none => simp [hf, Code.empty] at h
  | some p =>
    have hmem : p ∈ t.paths := List.mem_reverse.1 (List.mem_of_find?_eq_some hf)
    have hc : p.1 = c := by simpa using List.find?_some hf
    have hlen := t.paths_length_lt p hmem
    rw [Option.elim_some, Code.toBits_ofPath (by omega), ← hc]
    exact hmem

/-- The symbols `xs` with the codes the table has for them. -/
def withCodes (lut : CodeTable) (xs : List Byte) : List (Byte × List Bool) := xs.map fun x => (x, (lut.get x).toBits)

theorem withCodes_length (lut : CodeTable) (xs : List Byte) : (withCodes lut xs).length = xs.length := by
  simp [withCodes]

theorem withCodes_symbols (lut : CodeTable) (xs : List Byte) : (withCodes lut xs).map Prod.fst = xs := by
  simp [withCodes, Function.comp_def]

theorem withCodes_bits (lut : CodeTable) (xs : List Byte) :
    (withCodes lut xs).flatMap Prod.snd = xs.flatMap fun x => (lut.get x).toBits := by
  simp [withCodes, List.flatMap_map]

theorem withCodes_paths {t : HuffTree} (ht : t.leaves ≤ 256) {lut : CodeTable} (hlut : ∀ c, lut.get c = t.codeOf c)
    {xs : List Byte} (hx : ∀ x ∈ xs, (lut.get x).len ≠ 0) : ∀ p ∈ withCodes lut xs, p ∈ t.paths := by
  intro p hp
  obtain ⟨x, hmem, rfl⟩ := List.mem_map.1 hp
  have hlen := hx x hmem
  rw [hlut] at hlen ⊢
  exact mem_paths_of_codeOf ht hlen

/-- Settles O46: the codes are paths of the tree, and the bits before the reader begin with them in both clauses. -/
theorem decodeInvertsEncode : Obligations.DecodeInvertsEncode := by
  unfold Obligations.DecodeInvertsEncode
  intro t s xs hb ht h2 hlut hx hs hf hr bits
  have hrun : ∀ more, s.pendingBits = bits ++ more → ∃ n, steps n s = .next (s.decoded (withCodes s.lut xs)) := by
    intro more hp
    rw [← withCodes_length s.lut xs] at hs hf hr
    exact decode_run hb ht h2 (withCodes_paths ht.leaves hlut hx) hs hf hr (hp.trans (by rw [withCodes_bits]))
  have hdec : s.decoded (withCodes s.lut xs) = { s.afterBits bits.length with
      outq := s.outq ++ xs, outbytes := s.outbytes + BitVec.ofNat 64 xs.length
      symcount := s.fileSize, dstate := .done, cur := s.root, engine := .idle, done := true, irqPend := true } := by
    rw [State.decoded, withCodes_bits, withCodes_symbols, withCodes_length]
  rw [hdec] at hrun
  refine ⟨hrun, fun rest h8 hq => ?_⟩
  obtain ⟨more, hp⟩ := pendingBits_packed h8 hq
  obtain ⟨n, hn⟩ := hrun more hp
  exact ⟨n, _, hn, rfl, rfl, rfl, rfl, afterBits_packed_inq h8 hq⟩

end Sys2Proof.Machine

/-! ## The tree codec

TREE_LOAD keeps a forest: the trees whose roots are on the stack, their nodes in the arena in token order, their tokens
the bytes taken so far (42_tree_codec.md R262, R264). A Leaf token adds a tree and an Interior token joins the two top
ones, so the dump of a tree is what ends with one item and nothing else does. TREE_STORE pushes the dump byte by byte. -/

namespace Sys2Proof.Machine

/-! ### The tree-load primitives within their bounds (R263) -/

section
variable {loaded : State → State} {k : Nat} {s : State} {q : List Byte}

theorem alloc_full (h : s.arena.length = 511) (n : Node) (k : Nat) (cont : NodeIdx → State → State) :
    alloc n k s cont = raise .treeNodeOverflow (treePos k) s := if_pos h

theorem alloc_room (h : s.arena.length ≠ 511) (n : Node) (k : Nat) (cont : NodeIdx → State → State) :
    alloc n k s cont = cont (BitVec.ofNat 9 s.arena.length) { s with arena := s.arena ++ [n] } := if_neg h

theorem push_full (h : s.stk.length = 256) (n : NodeIdx) (k : Nat) (cont : State → State) :
    push n k s cont = raise .treeStackOverflow (treePos k) s := if_pos h

theorem push_room (h : s.stk.length ≠ 256) (n : NodeIdx) (k : Nat) (cont : State → State) :
    push n k s cont = cont { s with stk := n :: s.stk } := if_neg h

theorem pop_empty (h : s.stk = []) (k : Nat) (cont : NodeIdx → State → State) :
    pop k s cont = raise .treeStackUnderflow (treePos k) s := by
  simp [pop, h]

theorem pop_cons {n : NodeIdx} {rest : List NodeIdx} (h : s.stk = n :: rest) (k : Nat)
    (cont : NodeIdx → State → State) : pop k s cont = cont n { s with stk := rest } := by
  simp [pop, h]

/-! ### The loop head -/

theorem treeLoadLoop_more (h : k < s.treeLen) : treeLoadLoop loaded k s = atPoint (.treeTag k) s := if_pos h

theorem treeLoadLoop_root {r : NodeIdx} (h : s.treeLen ≤ k) (hr : s.stk = [r]) :
    treeLoadLoop loaded k s = loaded { s with root := r, stk := [], treeValid := true } := by
  rw [treeLoadLoop, if_neg (Nat.not_lt.2 h), treeLoadEnd, hr]

theorem treeLoadLoop_notSingleRoot (h : s.treeLen ≤ k) (hr : s.sp ≠ 1) :
    treeLoadLoop loaded k s = raise .treeNotSingleRoot (BitVec.ofNat 32 s.sp) s := by
  rcases treeLoadLoop_cases loaded k s with ⟨hk, _⟩ | ⟨_, r, hs, _⟩ | ⟨_, _, e⟩
  · omega
  · exact absurd (congrArg List.length hs) hr
  · exact e

/-! ### One tag -/

theorem treeTagStep_eos (hq : s.inq = []) (he : s.inEos = true) :
    treeTagStep loaded k s = raise .treeEos (treePos k) s := onInPop_eos hq he _ _

theorem treeTagStep_leafTruncated (hq : s.inq = tokenLeaf :: q) (hk : k + 1 = s.treeLen) :
    treeTagStep loaded k s = raise .treeLeafTruncated (treePos k) { s with inq := q } := by
  rw [treeTagStep, onInPop_byte hq, if_pos rfl]
  exact if_pos hk

theorem treeTagStep_leaf (hq : s.inq = tokenLeaf :: q) (hk : k + 1 ≠ s.treeLen) :
    treeTagStep loaded k s = atPoint (.treeSym k) { s with inq := q } := by
  rw [treeTagStep, onInPop_byte hq, if_pos rfl]
  exact if_neg hk

theorem treeTagStep_interior (hq : s.inq = tokenInterior :: q) :
    treeTagStep loaded k s = treeInterior loaded k { s with inq := q } := by
  rw [treeTagStep, onInPop_byte hq, if_neg (by decide), if_pos rfl]

theorem treeTagStep_badToken {b : Byte} (hq : s.inq = b :: q) (hl : b ≠ tokenLeaf) (hi : b ≠ tokenInterior) :
    treeTagStep loaded k s = raise .treeBadToken (treePos k) { s with inq := q } := by
  rw [treeTagStep, onInPop_byte hq, if_neg hl, if_neg hi]

theorem treeInterior_underflow (h : s.stk.length < 2) :
    treeInterior loaded k s = raise .treeStackUnderflow (treePos k) { s with stk := [] } := by
  unfold treeInterior
  match hs : s.stk with
  | [] => rw [pop_empty hs, ← hs]
  | [r] => rw [pop_cons hs, pop_empty rfl]
  | _ :: _ :: _ => simp [hs] at h

section
variable {r l : NodeIdx} {rest : List NodeIdx}

theorem treeInterior_nodeOverflow (hs : s.stk = r :: l :: rest) (ha : s.arena.length = 511) :
    treeInterior loaded k s = raise .treeNodeOverflow (treePos k) { s with stk := rest } := by
  rw [treeInterior, pop_cons hs, pop_cons rfl, alloc_full (by exact ha)]

theorem treeInterior_join (hs : s.stk = r :: l :: rest) (ha : s.arena.length ≠ 511) (hr : rest.length ≠ 256) :
    treeInterior loaded k s = treeLoadLoop loaded (k + 1) { s with
      arena := s.arena ++ [Node.mkInterior l r], stk := BitVec.ofNat 9 s.arena.length :: rest } := by
  rw [treeInterior, pop_cons hs, pop_cons rfl, alloc_room (by exact ha), push_room (by exact hr)]

end

/-! ### One symbol -/

theorem treeSymStep_eos (hq : s.inq = []) (he : s.inEos = true) :
    treeSymStep loaded k s = raise .treeEos (treePos (k + 1)) s := onInPop_eos hq he _ _

section
variable {b : Byte} (hq : s.inq = b :: q)
include hq

theorem treeSymStep_nodeOverflow (ha : s.arena.length = 511) :
    treeSymStep loaded k s = raise .treeNodeOverflow (treePos k) { s with inq := q } := by
  rw [treeSymStep, onInPop_byte hq, alloc_full (by exact ha)]

theorem treeSymStep_stackOverflow (ha : s.arena.length ≠ 511) (hs : s.stk.length = 256) :
    treeSymStep loaded k s =
      raise .treeStackOverflow (treePos k) { s with inq := q, arena := s.arena ++ [Node.mkLeaf b] } := by
  rw [treeSymStep, onInPop_byte hq, alloc_room (by exact ha), push_full (by exact hs)]

theorem treeSymStep_leaf (ha : s.arena.length ≠ 511) (hs : s.stk.length ≠ 256) :
    treeSymStep loaded k s = treeLoadLoop loaded (k + 2) { s with
      inq := q, arena := s.arena ++ [Node.mkLeaf b], stk := BitVec.ofNat 9 s.arena.length :: s.stk } := by
  rw [treeSymStep, onInPop_byte hq, alloc_room (by exact ha), push_room (by exact hs)]

end

/-! ### The two commands that load a tree -/

theorem exec_treeTag {i : Instr} (hi : i ∈ [Instr.treeLoad, .decodeStream]) (he : s.engine = .running (.treeTag k)) :
    ∃ loaded, exec i s = .next (treeTagStep loaded k s) := by
  simp only [List.mem_cons, List.not_mem_nil, or_false] at hi
  rcases hi with rfl | rfl
  · exact ⟨finish, congrArg _ (treeLoadStep_treeTag he)⟩
  · exact ⟨decodeBegin, congrArg _ (decodeStreamStep_treeTag he)⟩

theorem exec_treeSym {i : Instr} (hi : i ∈ [Instr.treeLoad, .decodeStream]) (he : s.engine = .running (.treeSym k)) :
    ∃ loaded, exec i s = .next (treeSymStep loaded k s) := by
  simp only [List.mem_cons, List.not_mem_nil, or_false] at hi
  rcases hi with rfl | rfl
  · exact ⟨finish, congrArg _ (treeLoadStep_treeSym he)⟩
  · exact ⟨decodeBegin, congrArg _ (decodeStreamStep_treeSym he)⟩

end

/-- Settles O32: each clause is one case of the step at a tag. -/
theorem treeLoadTakesATag : Obligations.TreeLoadTakesATag := by
  unfold Obligations.TreeLoadTakesATag
  intro i hi k s he
  obtain ⟨loaded, hexec⟩ := exec_treeTag hi he
  rw [hexec]
  refine ⟨fun hq heos => congrArg _ (treeTagStep_eos hq heos), fun b q hq => ⟨?_, ?_, ?_, ?_, ?_, ?_⟩⟩
  · rintro rfl hk
    exact congrArg _ (treeTagStep_leafTruncated hq hk)
  · rintro rfl hk
    exact congrArg _ (treeTagStep_leaf hq hk)
  · rintro rfl hs
    rw [treeTagStep_interior hq, treeInterior_underflow (by exact hs)]
    rfl
  · rintro r l rest rfl hs ha
    rw [treeTagStep_interior hq, treeInterior_nodeOverflow (by exact hs) (by exact ha)]
    rfl
  · rintro r l rest rfl hs ha hr hk
    rw [treeTagStep_interior hq, treeInterior_join (by exact hs) (by exact ha.ne) hr.ne,
      treeLoadLoop_more (by exact hk)]
    rfl
  · exact fun hleaf hinterior => congrArg _ (treeTagStep_badToken hq hleaf hinterior)

/-- Settles O33: each clause is one case of the step at a symbol. -/
theorem treeLoadTakesASymbol : Obligations.TreeLoadTakesASymbol := by
  unfold Obligations.TreeLoadTakesASymbol
  intro i hi k s he
  obtain ⟨loaded, hexec⟩ := exec_treeSym hi he
  rw [hexec]
  refine ⟨fun hq heos => congrArg _ (treeSymStep_eos hq heos), fun b q hq => ⟨fun ha => ?_, fun ha hs => ?_, ?_⟩⟩
  · exact congrArg _ (treeSymStep_nodeOverflow hq ha)
  · exact congrArg _ (treeSymStep_stackOverflow hq ha.ne hs)
  · intro ha hs hk
    rw [treeSymStep_leaf hq ha.ne hs.ne, treeLoadLoop_more (by exact hk)]
    rfl

/-- Settles O34: the loop head is reached with no item at the start, and with one more item than lay below after the
last token. -/
theorem treeLoadBeginsAndEnds : Obligations.TreeLoadBeginsAndEnds := by
  unfold Obligations.TreeLoadBeginsAndEnds
  intro s
  refine ⟨fun he hT => ?_, fun he hT => ?_, fun k b q hq ha => ⟨?_, fun he hk hs => ?_⟩⟩
  · have hpos : 0 < s.treeLen := Nat.pos_of_ne_zero fun h => hT (BitVec.eq_of_toNat_eq h)
    exact congrArg _ ((treeLoadStep_start he).trans (treeLoadLoop_more (by exact hpos)))
  · have hzero : s.treeLen ≤ 0 := (congrArg BitVec.toNat hT).le
    exact congrArg _ ((treeLoadStep_start he).trans (treeLoadLoop_notSingleRoot (by exact hzero) Nat.zero_ne_one))
  · rintro r l rest he rfl hk hs hr
    have hstep : exec .treeLoad s = .next (treeLoadLoop finish (k + 1) { s with
        inq := q, arena := s.arena ++ [Node.mkInterior l r], stk := BitVec.ofNat 9 s.arena.length :: rest }) := by
      refine congrArg _ ((treeLoadStep_treeTag he).trans ?_)
      rw [treeTagStep_interior hq, treeInterior_join (by exact hs) (by exact ha.ne) hr.ne]
    rw [hstep]
    refine ⟨?_, fun hne => ?_⟩
    · rintro rfl
      exact congrArg _ (treeLoadLoop_root (by exact hk.ge) rfl)
    · exact congrArg _ (treeLoadLoop_notSingleRoot (by exact hk.ge) (by simpa [State.sp] using hne))
  · have hstep : exec .treeLoad s = .next (treeLoadLoop finish (k + 2) { s with
        inq := q, arena := s.arena ++ [Node.mkLeaf b], stk := BitVec.ofNat 9 s.arena.length :: s.stk }) :=
      congrArg _ ((treeLoadStep_treeSym he).trans (treeSymStep_leaf hq ha.ne hs.ne))
    rw [hstep]
    refine ⟨fun hnil => ?_, fun hne => ?_⟩
    · exact congrArg _ (treeLoadLoop_root (by exact hk.ge) (congrArg (List.cons _) hnil))
    · exact congrArg _ (treeLoadLoop_notSingleRoot (by exact hk.ge) (by simpa [State.sp] using hne))

/-! ### TREE_LOAD of a dump -/

theorem step_treeLoad_start {s : State} (h : Begins 0x05 s) : step s = .next (treeLoadBegin finish s) := by
  obtain ⟨he, hw, hi⟩ := h
  rw [step_command (i := .treeLoad) hi he (by rw [hw]; rfl)]
  exact congrArg _ (treeLoadStep_start he)

/-- Settles O35: the run over the dump leaves its tree alone on the stack, at the end of TREE_SIZE bytes. -/
theorem treeLoadAcceptsEveryDump : Obligations.TreeLoadAcceptsEveryDump := by
  unfold Obligations.TreeLoadAcceptsEveryDump
  intro t s rest hb ht hT hq
  have hstart := step_treeLoad_start hb
  obtain ⟨-, hw, hi⟩ := hb
  have hsize := t.size_eq
  have hT' : s.treeLen = t.tokens.length := hT
  obtain ⟨n, e, hrun⟩ := run_tokens finish t
    { s with brPos := 8, treeValid := false, arena := [], root := 0, stk := [] } 0 rest hi (.inl ⟨hw, rfl⟩) hq
    ((Nat.zero_add _).trans hT'.symm).le (by show 0 + t.size ≤ 511; omega)
    (by show 0 + t.leaves ≤ 256; omega)
  refine ⟨n + 1, (steps_succ hstart n).trans (hrun.trans ?_)⟩
  refine (congrArg _ (treeLoadLoop_root (by exact (hT'.trans (Nat.zero_add _).symm).le) (by exact rfl))).trans ?_
  simp [finish]

/-! ### The forest that TREE_LOAD keeps -/

/-- The nodes of the trees on the stack, top first, as they stand in the arena. -/
def forestNodes : List HuffTree → List Node
  | [] => []
  | t :: ts => forestNodes ts ++ t.nodes (forestNodes ts).length

/-- The stack that holds the roots of the trees, top first. -/
def forestRoots : List HuffTree → List NodeIdx
  | [] => []
  | t :: ts => BitVec.ofNat 9 ((forestNodes ts).length + t.size - 1) :: forestRoots ts

/-- The tokens of the trees, the lowest tree's first. -/
def forestTokens : List HuffTree → List Byte
  | [] => []
  | t :: ts => forestTokens ts ++ t.tokens

/-- TREE_LOAD, begun with `q` in INQ and TREE_SIZE = `T`, has taken the tokens of the trees `ts` and the bytes `tag` of
the token it is in, and keeps these trees. -/
structure Stacked (q : List Byte) (T : BitVec 16) (ts : List HuffTree) (tag : List Byte) (s : State) : Prop where
  silent  : s.inputs = []
  latched : s.cmdword = 0x05
  running : s.done = false
  size    : s.treeSize = T
  taken   : q = forestTokens ts ++ tag ++ s.inq
  arena   : s.arena = forestNodes ts
  stk     : s.stk = forestRoots ts
  bound   : s.arena.length ≤ 511

/-- Where that TREE_LOAD can stand after its first step. -/
inductive LoadPoint (q : List Byte) (T : BitVec 16) (s : State) : Prop
  | tag (ts : List HuffTree) (h : Stacked q T ts [] s)
      (point : s.engine = .running (.treeTag (forestTokens ts).length)) (more : (forestTokens ts).length < T.toNat)
  | sym (ts : List HuffTree) (h : Stacked q T ts [tokenLeaf] s)
      (point : s.engine = .running (.treeSym (forestTokens ts).length))
      (more : (forestTokens ts).length + 1 < T.toNat)
  | failed (silent : s.inputs = []) (idle : s.engine = .idle) (fails : s.done = false)
  | loaded (t : HuffTree) (silent : s.inputs = []) (idle : s.engine = .idle) (holds : Holds s t)
      (taken : q = t.tokens ++ s.inq) (all : T.toNat = t.tokens.length)

section
variable {q q' : List Byte} {T : BitVec 16} {ts : List HuffTree} {tag : List Byte} {s : State}

theorem Stacked.alloc_bound (h : Stacked q T ts tag s) (ha : s.arena.length ≠ 511) (n : Node) :
    (s.arena ++ [n]).length ≤ 511 := by
  have := h.bound
  rw [List.length_append, List.length_singleton]
  omega

/-- The symbol of a Leaf token puts one more tree on the stack (R262). -/
theorem Stacked.leaf {b : Byte} (h : Stacked q T ts [tokenLeaf] s) (hq : s.inq = b :: q')
    (ha : s.arena.length ≠ 511) : Stacked q T (.leaf b :: ts) [] { s with
      inq := q', stk := BitVec.ofNat 9 s.arena.length :: s.stk, arena := s.arena ++ [Node.mkLeaf b] } :=
  { h with
    taken := by simp [h.taken, hq, forestTokens, HuffTree.tokens, tokenLeaf]
    arena := by rw [h.arena]; rfl
    stk := by rw [h.stk, h.arena]; rfl
    bound := h.alloc_bound ha _ }

/-- An Interior token joins the two top trees (R262, R267). -/
theorem Stacked.interior {r l : HuffTree} {nr nl : NodeIdx} {rest : List NodeIdx}
    (h : Stacked q T (r :: l :: ts) [] s) (hs : s.stk = nr :: nl :: rest) (hq : s.inq = tokenInterior :: q')
    (ha : s.arena.length ≠ 511) : Stacked q T (.node l r :: ts) [] { s with
      inq := q', stk := BitVec.ofNat 9 s.arena.length :: rest, arena := s.arena ++ [Node.mkInterior nl nr] } := by
  have hstk := hs.symm.trans h.stk
  simp only [forestRoots, List.cons.injEq] at hstk
  obtain ⟨rfl, rfl, rfl⟩ := hstk
  exact { h with
    taken := by simp [h.taken, hq, forestTokens, HuffTree.tokens, tokenInterior]
    arena := by simp [h.arena, forestNodes, HuffTree.nodes, Node.mkInterior]
    stk := by simp [h.arena, forestRoots, forestNodes, HuffTree.size, ← Nat.add_assoc]
    bound := h.alloc_bound ha _ }

theorem Stacked.raise (h : Stacked q T ts tag s) (e : ErrCode) (pos : Word) {t : State} (hi : t.inputs = s.inputs)
    (hd : t.done = s.done) : LoadPoint q T (raise e pos t) :=
  .failed (hi.trans h.silent) rfl (hd.trans h.running)

/-- A forest of one tree is that tree held, once its root is ROOT. -/
theorem Stacked.holds {t : HuffTree} (h : Stacked q T [t] tag s) {r : NodeIdx} (hr : s.stk = [r]) :
    Holds (finish { s with root := r, stk := [], treeValid := true }) t where
  valid := rfl
  arena := h.arena
  root := by
    have hroot := hr.symm.trans h.stk
    simp only [forestRoots, forestNodes, List.length_nil, Nat.zero_add, List.cons.injEq, and_true] at hroot
    exact hroot
  leaves := by
    have hlen := h.bound
    simp only [h.arena, forestNodes, List.nil_append, HuffTree.nodes_length] at hlen
    have := t.size_eq
    omega

/-- At the loop head: the next tag, or all bytes taken with one tree or with another number of trees (R262). -/
theorem Stacked.loop (h : Stacked q T ts [] s) (hk : (forestTokens ts).length ≤ T.toNat) :
    LoadPoint q T (treeLoadLoop finish (forestTokens ts).length s) := by
  have hT : s.treeLen = T.toNat := congrArg BitVec.toNat h.size
  rcases treeLoadLoop_cases finish (forestTokens ts).length s with ⟨hlt, e⟩ | ⟨hge, r, hr, e⟩ | ⟨_, _, e⟩ <;> rw [e]
  · exact .tag ts { h with } rfl (hT ▸ hlt)
  · obtain ⟨t, rfl⟩ : ∃ t, ts = [t] := by
      rw [h.stk] at hr
      match ts, hr with
      | [t], _ => exact ⟨t, rfl⟩
    refine .loaded t h.silent rfl (h.holds hr) ?_ (Nat.le_antisymm (hT ▸ hge) hk)
    simpa [forestTokens] using h.taken
  · exact h.raise _ _ rfl rfl

/-- From a tag, whatever byte stands there (R262). -/
theorem Stacked.tagStep (h : Stacked q T ts [] s) (he : s.engine = .running (.treeTag (forestTokens ts).length))
    (hk : (forestTokens ts).length < T.toNat) : LoadPoint q T (treeTagStep finish (forestTokens ts).length s) := by
  have hT : s.treeLen = T.toNat := congrArg BitVec.toNat h.size
  rcases treeTagStep_cases finish (forestTokens ts).length s with ⟨_, _, e⟩ | ⟨_, _, e⟩ | ⟨b, q', hq, hcases⟩
  · rw [e]; exact .tag ts h he hk
  · rw [e]; exact h.raise _ _ rfl rfl
  rcases hcases with ⟨_, _, e⟩ | ⟨rfl, hk1, e⟩ | ⟨_, _, e⟩ | ⟨nr, nl, rest, rfl, hs, hj⟩ | ⟨_, _, e⟩
  · rw [e]; exact h.raise _ _ rfl rfl
  · rw [e]
    refine .sym ts { h with taken := ?_ } rfl (Nat.lt_of_le_of_ne hk (hT ▸ hk1))
    simp [h.taken, hq]
  · rw [e]; exact h.raise _ _ rfl rfl
  · rcases hj with ⟨_, e⟩ | ⟨_, _, e⟩ | ⟨hn, _, e⟩ <;> rw [e]
    · exact h.raise _ _ rfl rfl
    · exact h.raise _ _ rfl rfl
    · obtain ⟨r, l, ts', rfl⟩ : ∃ r l ts', ts = r :: l :: ts' := by
        have hstk := h.stk.symm.trans hs
        match ts, hstk with
        | r :: l :: ts', _ => exact ⟨r, l, ts', rfl⟩
      have hlen : (forestTokens (r :: l :: ts')).length + 1 = (forestTokens (.node l r :: ts')).length := by
        simp [forestTokens, HuffTree.tokens, Nat.add_assoc]
      rw [hlen]
      exact (h.interior hs hq hn).loop (hlen ▸ hk)
  · rw [e]; exact h.raise _ _ rfl rfl

/-- From a symbol, whatever it is (R262). -/
theorem Stacked.symStep (h : Stacked q T ts [tokenLeaf] s)
    (he : s.engine = .running (.treeSym (forestTokens ts).length)) (hk : (forestTokens ts).length + 1 < T.toNat) :
    LoadPoint q T (treeSymStep finish (forestTokens ts).length s) := by
  rcases treeSymStep_cases finish (forestTokens ts).length s with ⟨_, _, e⟩ | ⟨_, _, e⟩ | ⟨b, q', hq, hcases⟩
  · rw [e]; exact .sym ts h he hk
  · rw [e]; exact h.raise _ _ rfl rfl
  rcases hcases with ⟨_, e⟩ | ⟨_, _, e⟩ | ⟨hn, _, e⟩ <;> rw [e]
  · exact h.raise _ _ rfl rfl
  · exact h.raise _ _ rfl rfl
  · have hlen : (forestTokens ts).length + 2 = (forestTokens (.leaf b :: ts)).length := by
      simp [forestTokens, HuffTree.tokens]
    rw [hlen]
    exact (h.leaf hq hn).loop (hlen ▸ hk)

/-- The first step of TREE_LOAD leaves no tree on the stack. -/
theorem Begins.loadPoint (h : Begins 0x05 s) (hd : s.done = false) :
    LoadPoint s.inq s.treeSize (treeLoadBegin finish s) := by
  obtain ⟨-, hw, hi⟩ := h
  have hnil : Stacked s.inq s.treeSize [] []
      { s with brPos := 8, treeValid := false, arena := [], root := 0, stk := [] } :=
    ⟨hi, hw, hd, rfl, rfl, rfl, rfl, Nat.zero_le _⟩
  exact hnil.loop (Nat.zero_le _)

theorem LoadPoint.step (h : LoadPoint q T s) : ∃ t, step s = .next t ∧ LoadPoint q T t := by
  cases h with
  | tag ts h he hk => exact ⟨_, step_treeTag (.inl ⟨h.latched, rfl⟩) h.silent he, h.tagStep he hk⟩
  | sym ts h he hk => exact ⟨_, step_treeSym (.inl ⟨h.latched, rfl⟩) h.silent he, h.symStep he hk⟩
  | failed hi he hd => exact ⟨s, (steps_one s).symm.trans (steps_idle hi he 1), .failed hi he hd⟩
  | loaded t hi he ht hq hT => exact ⟨s, (steps_one s).symm.trans (steps_idle hi he 1), .loaded t hi he ht hq hT⟩

theorem LoadPoint.steps {n : Nat} : ∀ {s u : State}, LoadPoint q T s → steps n s = .next u → LoadPoint q T u := by
  induction n with
  | zero => intro s u h hu; cases hu; exact h
  | succ n ih =>
    intro s u h hu
    obtain ⟨t, hst, ht⟩ := h.step
    exact ih ht ((steps_succ hst n).symm.trans hu)

/-- Only a held tree ends in DONE. -/
theorem LoadPoint.holds_of_done (h : LoadPoint q T s) (hd : s.done = true) :
    ∃ t : HuffTree, Holds s t ∧ q = t.tokens ++ s.inq ∧ T.toNat = t.tokens.length := by
  cases h with
  | tag ts h => simp [h.running] at hd
  | sym ts h => simp [h.running] at hd
  | failed _ _ hf => simp [hf] at hd
  | loaded t _ _ ht hq hT => exact ⟨t, ht, hq, hT⟩

end

/-- Settles O36: every step keeps the forest, and DONE is set only with one tree on the stack and all bytes taken. -/
theorem treeLoadAcceptsOnlyDumps : Obligations.TreeLoadAcceptsOnlyDumps := by
  unfold Obligations.TreeLoadAcceptsOnlyDumps
  intro s u n hb hd hn hu
  cases n with
  | zero =>
    cases hn
    simp [hd] at hu
  | succ n =>
    rw [steps_succ (step_treeLoad_start hb)] at hn
    exact ((hb.loadPoint hd).steps hn).holds_of_done hu

/-! ### TREE_STORE -/

theorem step_treeStore {s : State} {p : Point} (hw : s.cmdword = 0x06) (hi : s.inputs = [])
    (he : s.engine = .running p) : step s = exec .treeStore s :=
  step_command hi he (by rw [hw]; rfl)

theorem treeStore_push {s : State} {b : Byte} {rest : List Byte} (he : s.engine = .running (.treeOut b rest))
    (hr : s.outq.length < s.outDepth) : exec .treeStore s =
      .next (treeStoreNext rest { s with outq := s.outq ++ [b], outbytes := s.outbytes + 1 }) :=
  congrArg _ ((treeStoreStep_treeOut he).trans (onOutPush_room hr _ _))

/-- Settles O37: without a tree the first step raises; an OutPush with room goes on with the bytes left. -/
theorem treeStoreBeginsAndPushes : Obligations.TreeStoreBeginsAndPushes := by
  unfold Obligations.TreeStoreBeginsAndPushes
  intro s b c rest
  refine ⟨fun he hv => ?_, treeStore_push, treeStore_push⟩
  exact congrArg _ ((treeStoreStep_start he).trans (if_neg (by simp [hv])))

/-- The bytes of the walk are pushed one by one (R280). -/
theorem run_treeStore (bytes : List Byte) : ∀ s : State, s.inputs = [] → s.cmdword = 0x06 →
    s.outq.length + bytes.length ≤ s.outDepth → ∃ n, steps n (treeStoreNext bytes s) = .next (finish { s with
      outq := s.outq ++ bytes, outbytes := s.outbytes + BitVec.ofNat 64 bytes.length }) := by
  induction bytes with
  | nil => intro s _ _ _; exact ⟨0, by simp [steps_zero, treeStoreNext]⟩
  | cons b bytes ih =>
    intro s hi hw hr
    rw [List.length_cons] at hr
    have hstep : step (treeStoreNext (b :: bytes) s) = .next (treeStoreNext bytes { s with
        outq := s.outq ++ [b], outbytes := s.outbytes + 1, engine := .running (.treeOut b bytes) }) :=
      (step_treeStore (by exact hw) (by exact hi) rfl).trans
        (treeStore_push rfl (by show s.outq.length < s.outDepth; omega))
    have hroom : (s.outq ++ [b]).length + bytes.length ≤ s.outDepth := by
      rw [List.length_append, List.length_singleton]
      omega
    obtain ⟨n, hn⟩ := ih { s with
        outq := s.outq ++ [b], outbytes := s.outbytes + 1, engine := .running (.treeOut b bytes) } hi hw hroom
    refine ⟨n + 1, (steps_succ hstep n).trans (hn.trans ?_)⟩
    rw [List.length_cons, ← count_succ]
    simp [finish]

/-- Settles O38: the walk of a held tree is its token stream, and all of it is pushed. -/
theorem treeStoreWritesTheDump : Obligations.TreeStoreWritesTheDump := by
  unfold Obligations.TreeStoreWritesTheDump
  intro t s hb ht hr
  obtain ⟨he, hw, hi⟩ := hb
  have hbytes : postBytes s nodeCap s.root = t.tokens := by
    have hf : t.leaves ≤ nodeCap := ht.leaves.trans (by decide)
    simpa [ht.root] using ht.placed.postBytes hf
  have hstep : step s = .next (treeStoreNext t.tokens s) :=
    (step_treeStore hw hi he).trans (congrArg _ ((treeStoreStep_start he).trans (by rw [if_pos ht.valid, hbytes])))
  obtain ⟨n, hn⟩ := run_treeStore t.tokens s hi hw hr
  exact ⟨n + 1, (steps_succ hstep n).trans hn⟩

end Sys2Proof.Machine

/-! ## ENCODE

Between two input bytes WBYTE holds the bits of the codes so far that fill no byte; with the codes still to come they
pack into the output still to come (43_encoder_bitpacker.md R301, R303 to R305). -/

namespace Sys2Proof.Machine

/-! ### An input byte and the end of stream -/

theorem encodeByte_miss {s : State} {c : Byte} (h : (s.lut.get c).len = 0) :
    encodeByte c s = raise .lutMiss (c.setWidth 32) (clearPacker s) := if_pos h

theorem encodeByte_code {s : State} {c : Byte} (h : (s.lut.get c).len ≠ 0) :
    encodeByte c s = putBits (s.lut.get c).toBits s := if_neg h

theorem encodeEnd_empty {s : State} (h : s.wpos = 0) : encodeEnd s = finish s := if_pos h

theorem encodeEnd_partial {s : State} (h : s.wpos ≠ 0) : encodeEnd s = atPoint .encFlush s := if_neg h

/-! ### Its steps -/

section
variable {s : State} {c : Byte} {q : List Byte}

theorem encode_start (he : s.engine = .running .start) : exec .encode s =
    .next (atPoint .encIn (clearPacker { s with brPos := 8, symcount := 0 })) :=
  congrArg _ (encodeStep_start he)

theorem encode_eos (he : s.engine = .running .encIn) (hq : s.inq = []) (hi : s.inEos = true) :
    exec .encode s = .next (encodeEnd s) :=
  congrArg _ ((encodeStep_encIn he).trans (onInPop_eos hq hi _ _))

theorem encode_byte (he : s.engine = .running .encIn) (hq : s.inq = c :: q) :
    exec .encode s = .next (encodeByte c { s with inq := q }) :=
  congrArg _ ((encodeStep_encIn he).trans (onInPop_byte hq _ _))

theorem encode_code (he : s.engine = .running .encIn) (hq : s.inq = c :: q) (hc : (s.lut.get c).len ≠ 0) :
    exec .encode s = .next (putBits (s.lut.get c).toBits { s with inq := q }) :=
  (encode_byte he hq).trans (congrArg _ (encodeByte_code hc))

theorem encode_push {rest : List Bool} (he : s.engine = .running (.encOut rest)) (hr : s.outq.length < s.outDepth) :
    exec .encode s = .next (putBits rest (clearPacker
      { s with outq := s.outq ++ [s.wbyte], outbytes := s.outbytes + 1 })) :=
  congrArg _ ((encodeStep_encOut he).trans (onOutPush_room hr _ _))

theorem encode_flush (he : s.engine = .running .encFlush) (hr : s.outq.length < s.outDepth) :
    exec .encode s = .next (finish (clearPacker
      { s with outq := s.outq ++ [s.wbyte], outbytes := s.outbytes + 1 })) :=
  congrArg _ ((encodeStep_encFlush he).trans (onOutPush_room hr _ _))

end

/-- Settles O39: each control point's step, the bits of a code by what `putBits` can do. -/
theorem encodeBeginsMissesAndEnds : Obligations.EncodeBeginsMissesAndEnds := by
  unfold Obligations.EncodeBeginsMissesAndEnds
  intro s
  refine ⟨encode_start, fun he hq hi h0 => ?_, fun he hq hi h0 => ?_, encode_flush, fun c q he hq hc => ?_,
    fun c q he hq hc => ?_, fun rest he hr => ?_⟩
  · rw [encode_eos he hq hi, encodeEnd_empty h0]
    rfl
  · rw [encode_eos he hq hi, encodeEnd_partial h0]
    rfl
  · rw [encode_byte he hq, encodeByte_miss (by exact hc)]
    rfl
  · obtain ⟨hfit, hfull⟩ := putBits_placed (s.lut.get c).toBits { s with inq := q }
    rw [encode_code he hq hc]
    exact ⟨fun h => by rw [hfit h, he], fun h => by rw [hfull h]⟩
  · obtain ⟨hfit, hfull⟩ := putBits_placed rest (clearPacker
      { s with outq := s.outq ++ [s.wbyte], outbytes := s.outbytes + 1 })
    simp only [clearPacker, Fin.val_zero, Nat.zero_add, Nat.sub_zero] at hfit hfull
    rw [encode_push he hr]
    exact ⟨fun h => congrArg _ (hfit h), fun h => congrArg _ (hfull h)⟩

/-! ### A whole input -/

/-- The bits of the symbols' codes, one code after the other. -/
def codeBits (lut : CodeTable) (xs : List Byte) : List Bool := xs.flatMap fun x => (lut.get x).toBits

theorem packed_length_le_append (xs ys : List Bool) : (packed xs).length ≤ (packed (xs ++ ys)).length := by
  rw [packed_length, packed_length, List.length_append]
  omega

/-- ENCODE awaits the input bytes `xs`, the last ones, with the bits `part` in the packer: each has a code, and there
is room for all that is still to be written. -/
structure Encodes (part : List Bool) (xs : List Byte) (s : State) : Prop where
  silent  : s.inputs = []
  latched : s.cmdword = 0x07
  point   : s.engine = .running .encIn
  input   : s.inq = xs
  eos     : s.inEos = true
  coded   : ∀ x ∈ xs, (s.lut.get x).len ≠ 0
  packer  : HoldsBits part s.wbyte s.wpos
  room    : s.outq.length + (packed (part ++ codeBits s.lut xs)).length ≤ s.outDepth

/-- `s` after ENCODE has taken its `n` last input bytes, written the bytes `out` and finished (R303, R305). -/
def State.encoded (s : State) (n : Nat) (out : List Byte) : State :=
  { s with
    symcount := s.symcount + BitVec.ofNat 64 n, wbyte := 0, wpos := 0, inq := [], outq := s.outq ++ out
    outbytes := s.outbytes + BitVec.ofNat 64 out.length, engine := .idle, done := true, irqPend := true }

/-- `s` after the code of one input byte is put into the packer: `q` is still to come, the bytes `full` that filled up
are pushed, and `wb` and `wp` stand in the packer (R301, R303). -/
def State.encodedByte (s : State) (q full : List Byte) (wb : Byte) (wp : Fin 8) : State :=
  { s with
    inq := q, outq := s.outq ++ full, outbytes := s.outbytes + BitVec.ofNat 64 full.length, wbyte := wb, wpos := wp
    symcount := s.symcount + 1 }

/-- What is written for the next byte and for those after it, in one. -/
theorem encodedByte_encoded (s : State) (q full out : List Byte) (wb : Byte) (wp : Fin 8) (n : Nat) :
    (s.encodedByte q full wb wp).encoded n out = s.encoded (n + 1) (full ++ out) := by
  simp only [State.encoded, State.encodedByte, count_succ, List.append_assoc, List.length_append,
    BitVec.ofNat_add full.length, ← BitVec.add_assoc]

section
variable {part : List Bool} {c : Byte} {xs : List Byte} {s : State}

theorem step_encode {p : Point} (hw : s.cmdword = 0x07) (hi : s.inputs = []) (he : s.engine = .running p) :
    step s = exec .encode s :=
  step_command hi he (by rw [hw]; rfl)

/-- At end of stream the bits left in the packer make the last byte, if there are any (R305). -/
theorem Encodes.finish (h : Encodes part [] s) : ∃ n, steps n s = .next (s.encoded 0 (packed part)) := by
  have hroom := h.room
  simp only [codeBits, List.flatMap_nil, List.append_nil] at hroom
  have hstep : step s = .next (encodeEnd s) :=
    (step_encode h.latched h.silent h.point).trans (encode_eos h.point h.input h.eos)
  have hpos := h.packer.pos
  have hbyte := h.packer.byte
  by_cases h0 : part = []
  · subst h0
    have hw0 : s.wpos = 0 := Fin.ext hpos
    have hb0 : s.wbyte = 0 := hbyte.trans (by decide)
    refine ⟨1, (steps_one s).trans (hstep.trans ?_)⟩
    rw [encodeEnd_empty hw0]
    simp [State.encoded, packed_nil, Machine.finish, hw0, hb0, h.input]
  · have hw0 : s.wpos ≠ 0 := fun e => h0 (List.eq_nil_of_length_eq_zero (hpos.symm.trans (congrArg Fin.val e)))
    have hout : packed part = [s.wbyte] := by rw [packed_short h0 h.packer.lt.le, hbyte]
    rw [hout, List.length_singleton] at hroom
    rw [encodeEnd_partial hw0] at hstep
    have hflush := (step_encode (s := atPoint .encFlush s) (by exact h.latched) (by exact h.silent) rfl).trans
      (encode_flush rfl (by exact hroom))
    refine ⟨2, (steps_succ hstep 1).trans ((steps_one _).trans (hflush.trans ?_))⟩
    simp [State.encoded, hout, Machine.finish, clearPacker, atPoint, h.input]

/-- The code of the next byte is put into the packer, and the bytes that fill up are pushed (R301, R303). -/
theorem Encodes.next (h : Encodes part (c :: xs) s) : ∃ n full part' wb wp,
    steps n s = .next (s.encodedByte xs full wb wp) ∧ Encodes part' xs (s.encodedByte xs full wb wp) ∧
      packed (part ++ codeBits s.lut (c :: xs)) = full ++ packed (part' ++ codeBits s.lut xs) := by
  have hroom := h.room
  have hbits : part ++ codeBits s.lut (c :: xs) = part ++ (s.lut.get c).toBits ++ codeBits s.lut xs :=
    (List.append_assoc ..).symm
  have hstep : step s = .next (putBits (s.lut.get c).toBits { s with inq := xs }) :=
    (step_encode h.latched h.silent h.point).trans (encode_code h.point h.input (h.coded c List.mem_cons_self))
  rw [hbits] at hroom
  obtain ⟨n, full, part', wb, wp, hrun, hp, hpacked⟩ := run_putBits (s.lut.get c).toBits { s with inq := xs } part
    h.silent h.latched h.packer ((Nat.add_le_add_left (packed_length_le_append _ _) _).trans hroom)
  refine ⟨n + 1, full, part', wb, wp, (steps_succ hstep n).trans (hrun.trans ?_), ?_, by rw [hbits, hpacked]⟩
  · rw [State.encodedByte, h.point]
  · have hcoded := fun x hx => h.coded x (List.mem_cons_of_mem c hx)
    refine { h with input := rfl, coded := hcoded, packer := hp, room := ?_ }
    rw [hpacked, List.length_append, ← Nat.add_assoc, ← List.length_append] at hroom
    exact hroom

/-- ENCODE takes the input to its end and writes the packed codes (R303 to R305). -/
theorem Encodes.run : ∀ {part : List Bool} {s : State}, Encodes part xs s →
    ∃ n, steps n s = .next (s.encoded xs.length (packed (part ++ codeBits s.lut xs))) := by
  induction xs with
  | nil =>
    intro part s h
    obtain ⟨n, hn⟩ := h.finish
    exact ⟨n, by simpa [codeBits] using hn⟩
  | cons c xs ih =>
    intro part s h
    obtain ⟨m, full, part', wb, wp, hm, hu, hpacked⟩ := h.next
    obtain ⟨n, hn⟩ := ih hu
    rw [encodedByte_encoded] at hn
    refine ⟨m + n, (steps_trans hm hn).trans ?_⟩
    rw [hpacked]
    rfl

end

/-- Settles O40: from its start ENCODE awaits the whole input with an empty packer. -/
theorem encodePacksTheCodes : Obligations.EncodePacksTheCodes := by
  unfold Obligations.EncodePacksTheCodes
  intro s xs hb hq hi hc out hr
  obtain ⟨he, hw, hin⟩ := hb
  have hstep : step s = .next (atPoint .encIn (clearPacker { s with brPos := 8, symcount := 0 })) :=
    (step_encode hw hin he).trans (encode_start he)
  have hrun : Encodes [] xs (atPoint .encIn (clearPacker { s with brPos := 8, symcount := 0 })) :=
    { silent := hin, latched := hw, point := rfl, input := hq, eos := hi, coded := hc, packer := HoldsBits.nil
      room := hr }
  obtain ⟨n, hn⟩ := hrun.run
  refine ⟨n + 1, (steps_succ hstep n).trans (hn.trans ?_)⟩
  simp [State.encoded, atPoint, clearPacker, codeBits, out]

end Sys2Proof.Machine

/-! ## READ_BIT -/

namespace Sys2Proof.Machine

/-! ### The reader's two primitives, case by case (R331) -/

theorem readBit_empty {s : State} (h : s.brPos = 8) (p : Point) (cont : Bool → State → State) :
    readBit p s cont = atPoint p s :=
  if_pos h

theorem readBit_buffered {s : State} (h : s.brPos ≠ 8) (p : Point) (cont : Bool → State → State) :
    readBit p s cont = cont (s.brByte.getLsbD s.brPos.val) { s with brPos := s.brPos + 1 } :=
  if_neg h

theorem refillBit_byte {s : State} {b : Byte} {q : List Byte} (h : s.inq = b :: q) (eos : State → State)
    (cont : Bool → State → State) :
    refillBit s eos cont = cont (b.getLsbD 0) { s with inq := q, brByte := b, brPos := 1 } :=
  onInPop_byte h _ _

theorem refillBit_eos {s : State} (h : s.inq = []) (he : s.inEos = true) (eos : State → State)
    (cont : Bool → State → State) : refillBit s eos cont = eos s :=
  onInPop_eos h he _ _

theorem refillBit_blocked {s : State} (h : s.inq = []) (he : s.inEos = false) (eos : State → State)
    (cont : Bool → State → State) : refillBit s eos cont = s :=
  onInPop_blocked h he _ _

/-! ### READ_BIT at its two control points (R340) -/

theorem exec_readBit_start {s : State} (h : s.engine = .running .start) :
    exec .readBit s = .next (readBit .bitIn s bitRead) :=
  congrArg _ (readBitStep_start h)

theorem exec_readBit_bitIn {s : State} (h : s.engine = .running .bitIn) :
    exec .readBit s = .next (refillBit s bitAtEos bitRead) :=
  congrArg _ (readBitStep_bitIn h)

/-- Settles O41: at the start the reader's fill decides, at the InPop the input stream does. -/
theorem readBitReturnsTheNextBit : Obligations.ReadBitReturnsTheNextBit := by
  unfold Obligations.ReadBitReturnsTheNextBit
  intro s
  refine ⟨fun he hp => ?buffered, fun he hp => ?empty, fun b q he hq => ?byte, fun he hq hi => ?eos,
    fun he hq hi => ?blocked⟩
  case buffered => rw [exec_readBit_start he, readBit_buffered hp]; rfl
  case empty => rw [exec_readBit_start he, readBit_empty hp]; rfl
  case byte => rw [exec_readBit_bitIn he, refillBit_byte hq]; rfl
  case eos => rw [exec_readBit_bitIn he, refillBit_eos hq hi]; rfl
  case blocked => rw [exec_readBit_bitIn he, refillBit_blocked hq hi]

end Sys2Proof.Machine

/-! ## The decoder

DECODE's steps go by what its loop can do; DECODE_STREAM goes on from a complete tree with DECODE's first step, where
TREE_LOAD finishes (45_decoder.md R380). -/

namespace Sys2Proof.Machine

/-! ### MAGIC_CHECK -/

theorem checkMagic_ok {s : State} (h : s.hdrMagic = s.params.magic) (cont : State → State) :
    checkMagic cont s = cont s := if_pos h

theorem checkMagic_bad {s : State} (h : s.hdrMagic ≠ s.params.magic) (cont : State → State) :
    checkMagic cont s = raise .badMagic s.hdrMagic s := if_neg h

/-- Settles O42: its one step is the check, with `finish()` behind it. -/
theorem magicCheckComparesAllBits : Obligations.MagicCheckComparesAllBits := by
  unfold Obligations.MagicCheckComparesAllBits
  intro s he
  have hexec : exec .magicCheck s = .next (checkMagic finish s) := congrArg _ (fromStart_start he _)
  rw [hexec]
  exact ⟨fun hm => congrArg _ (checkMagic_ok hm _), fun hm => congrArg _ (checkMagic_bad hm _)⟩

/-! ### DECODE at its control points (R365) -/

section
variable {s : State}

theorem exec_decode_start (he : s.engine = .running .start) : exec .decode s = .next (decodeBegin s) :=
  congrArg _ (decodeStep_start he)

theorem exec_decode_decodeIn (he : s.engine = .running .decodeIn) : exec .decode s = .next (decodeInStep s) :=
  congrArg _ (decodeStep_decodeIn he)

theorem exec_decode_decodeOut (he : s.engine = .running .decodeOut) : exec .decode s = .next (decodeOutStep s) :=
  congrArg _ (decodeStep_decodeOut he)

/-- `s` with no symbol of the file decoded yet, at the root of its tree. -/
def State.decodingFirst (s : State) : State := { s with symcount := 0, cur := s.root, dstate := .atRoot }

/-- `s` after the symbol of the current leaf is pushed and counted, at the root again. -/
def State.decodingNext (s : State) : State :=
  { s with
    outq := s.outq ++ [(s.node s.cur).sym], outbytes := s.outbytes + 1, symcount := s.symcount + 1, cur := s.root
    dstate := .atRoot }

theorem decodeBegin_noTree (hv : s.treeValid = false) : decodeBegin s = raise .noTree 0 s := by
  simp [decodeBegin, hv]

theorem decodeBegin_tree (hv : s.treeValid = true) :
    decodeBegin s = decodeLoop (bufferedBits s.decodingFirst) s.decodingFirst := if_pos hv

theorem decodeOutStep_room (hr : s.outq.length < s.outDepth) :
    decodeOutStep s = decodeLoop (bufferedBits s.decodingNext) s.decodingNext := onOutPush_room hr _ _

theorem decodeInStep_eos (hq : s.inq = []) (hi : s.inEos = true) :
    decodeInStep s = raise .decodeEos (s.dstate.code.setWidth 32) s := refillBit_eos hq hi _ _

end

/-- Settles O43: the start and each OutPush with room lead to the loop head at the root, where the count, the root and
the buffered bits decide. -/
theorem decodeBeginsEmitsAndEnds : Obligations.DecodeBeginsEmitsAndEnds := by
  unfold Obligations.DecodeBeginsEmitsAndEnds
  intro s
  have hbegin : s.engine = .running .start → s.treeValid = true →
      exec .decode s = .next (decodeLoop (bufferedBits s.decodingFirst) s.decodingFirst) :=
    fun he hv => (exec_decode_start he).trans (congrArg _ (decodeBegin_tree hv))
  have hpush : s.engine = .running .decodeOut → s.outq.length < s.outDepth →
      exec .decode s = .next (decodeLoop (bufferedBits s.decodingNext) s.decodingNext) :=
    fun he hr => (exec_decode_decodeOut he).trans (congrArg _ (decodeOutStep_room hr))
  refine ⟨fun he hv => ?noTree, fun he hv hf => ?nothing, fun he hv hf hl => ?degenerate, fun he hv hf hl => ?walks,
    fun he hr hc => ?last, fun he hr hc => ⟨fun hl => ?next, fun hl => ?leafRoot⟩, fun he hq hi => ?eos⟩
  case noTree => rw [exec_decode_start he, decodeBegin_noTree hv]
  case nothing => exact (hbegin he hv).trans (congrArg _ (decodeLoop_done _ hf.symm))
  case degenerate => exact (hbegin he hv).trans (congrArg _ (decodeLoop_degenerate _ hf.symm hl))
  case walks =>
    have hwalk := decodeLoop_walks s.decodingFirst hf.symm hl
    exact ⟨fun h8 => (hbegin he hv).trans (congrArg _ (hwalk.empty (buffered_empty h8))), _, hbegin he hv, hwalk⟩
  case last => exact (hpush he hr).trans (congrArg _ (decodeLoop_done _ hc))
  case next => exact ⟨_, hpush he hr, decodeLoop_walks s.decodingNext hc hl⟩
  case leafRoot => exact (hpush he hr).trans (congrArg _ (decodeLoop_degenerate _ hc hl))
  case eos => rw [exec_decode_decodeIn he, decodeInStep_eos hq hi]

/-! ### DECODE's InPop (R366) -/

/-- With its first bit taken, the reader has the other bits of the byte buffered. -/
theorem firstBits_succ {u : State} (h1 : u.brPos = 1) {k : Nat} (hk : k ≤ 7) :
    firstBits u.brByte (k + 1) = u.brByte.getLsbD 0 :: u.buffered.take k := by
  rw [firstBits, List.range_succ_eq_map, List.map_cons, State.buffered, h1, ← List.map_take, List.take_range]
  simp [Nat.min_eq_left hk, Nat.add_comm 1]

/-- `s` one level down with the first bit of the byte `b`, the other seven buffered. -/
def State.firstLevel (s : State) (b : Byte) (q : List Byte) : State :=
  { s with inq := q, brByte := b, brPos := 1, cur := s.child s.cur (b.getLsbD 0), dstate := .descending }

section
variable {s : State} {b : Byte} {q : List Byte}

/-- The node that the first `k + 1` bits of the byte lead to is `k` buffered bits below the first level. -/
theorem walk_firstBits (q : List Byte) {k : Nat} (hk : k ≤ 7) : s.walk s.cur (firstBits b (k + 1)) =
    (s.firstLevel b q).walk (s.firstLevel b q).cur ((s.firstLevel b q).buffered.take k) := by
  rw [show firstBits b (k + 1) = _ from firstBits_succ (u := s.firstLevel b q) rfl hk]
  exact walk_congr (by rfl) _ _

theorem decodeInStep_leaf (hq : s.inq = b :: q) (hl : (s.node (s.firstLevel b q).cur).leaf = true) :
    decodeInStep s = { s.firstLevel b q with dstate := s.dstate, engine := .running .decodeOut } :=
  (refillBit_byte hq _ _).trans (descend_leaf _ (by exact hl))

/-- Below an interior node the loop walks the seven buffered bits. -/
theorem decodeInStep_walks (hq : s.inq = b :: q) (hs : s.symcount ≠ s.fileSize)
    (hl : (s.node (s.firstLevel b q).cur).leaf = false) : WalksBuffered (s.firstLevel b q) (decodeInStep s) := by
  have hstep : decodeInStep s = decodeLoop 7 (s.firstLevel b q) :=
    (refillBit_byte hq _ _).trans (descend_inner _ (by exact hl))
  rw [hstep]
  exact decodeLoop_walks (s.firstLevel b q) hs hl

end

/-- Settles O44: the first bit of the byte is read at the InPop, the seven others by the loop. -/
theorem decodeWalksOneLevelPerBit : Obligations.DecodeWalksOneLevelPerBit := by
  unfold Obligations.DecodeWalksOneLevelPerBit
  intro s b q m he hq hs h1 h8 hinner
  obtain ⟨k, rfl⟩ : ∃ k, m = k + 1 := ⟨m - 1, by omega⟩
  let v : State := s.firstLevel b q
  have hlen : v.buffered.length = 7 := buffered_length v
  have hinner' : ∀ j, j < k → (s.node (v.walk v.cur (v.buffered.take j))).leaf = false := fun j hj => by
    rw [← walk_firstBits q (by omega)]
    exact hinner (j + 1) (by omega) (by omega)
  rw [exec_decode_decodeIn he, walk_firstBits q (by omega)]
  cases hl : (s.node v.cur).leaf with
  | true =>
    obtain rfl : k = 0 := by
      by_contra hne
      exact absurd (hl.symm.trans (hinner' 0 (by omega))) (by simp)
    exact ⟨fun _ => congrArg _ (decodeInStep_leaf hq hl), fun hk => by omega⟩
  | false =>
    have hwalks : WalksBuffered v (decodeInStep s) := decodeInStep_walks hq hs hl
    refine ⟨fun hleaf => ?_, fun hk hleaf => ?_⟩
    · have hk : k ≠ 0 := by
        rintro rfl
        exact absurd (hl.symm.trans hleaf) (by simp)
      have hdstate : (if k = 1 then v.dstate else .descending) = .descending := ite_self _
      rw [hwalks.leaf k (by omega) (by omega) (fun j _ => hinner' j) hleaf, hdstate,
        if_neg (show ¬ k + 1 = 1 by omega), Nat.add_comm k]
      rfl
    · obtain rfl : k = 7 := by omega
      have hall : ∀ j, 1 ≤ j → j ≤ v.buffered.length → (s.node (v.walk v.cur (v.buffered.take j))).leaf = false := by
        intro j _ hj
        rcases Nat.lt_or_eq_of_le (hlen ▸ hj) with hlt | rfl
        · exact hinner' j hlt
        · exact hleaf
      rw [hwalks.used (List.ne_nil_of_length_pos (hlen ▸ Nat.succ_pos 6)) hall, List.take_of_length_le hlen.le]
      rfl

/-! ### DECODE of a whole file -/

/-- What an empty reader holds after the bits of a packed stream are read. -/
theorem afterBits_packed {s : State} {bits : List Bool} {rest : List Byte} (h8 : s.brPos = 8)
    (hq : s.inq = packed bits ++ rest) : s.afterBits bits.length = { s with
      inq := rest, brByte := (packed bits).getLastD s.brByte
      brPos := Fin.ofNat 9 (if bits.length % 8 = 0 then 8 else bits.length % 8) } := by
  have hpos : (if bits.length ≤ 0 then s.brPos.val + bits.length else (bits.length - 1) % 8 + 1) =
      if bits.length % 8 = 0 then 8 else bits.length % 8 := by
    rw [h8]
    split <;> split <;> omega
  rw [State.afterBits, bufferedBits_eq_zero.2 h8, Nat.sub_zero, hpos, ← packed_length, hq, List.drop_left,
    List.take_left]

/-- Settles O45: the run of DECODE over the paths, and the reader's state after their packed form. -/
theorem decodeRecoversTheSymbols : Obligations.DecodeRecoversTheSymbols := by
  unfold Obligations.DecodeRecoversTheSymbols
  intro t s xs hb ht h2 hx hs hf hr bits
  have hrun : ∀ more, s.pendingBits = bits ++ more → ∃ n, steps n s = .next (s.decoded xs) :=
    fun more => decode_run hb ht h2 hx hs hf hr
  refine ⟨hrun, fun rest h8 hq => ?_⟩
  obtain ⟨more, hp⟩ := pendingBits_packed h8 hq
  obtain ⟨n, hn⟩ := hrun more hp
  exact ⟨n, by rw [hn, State.decoded, afterBits_packed h8 hq]⟩

/-! ### DECODE's first step ignores where it came from -/

/-- `f` does the same wherever the engine stands. -/
def IgnoresEngine (f : State → State) : Prop := ∀ s e, f { s with engine := e } = f s

theorem IgnoresEngine.atPoint (p : Point) : IgnoresEngine (atPoint p) := fun _ _ => rfl

theorem IgnoresEngine.decodeCheck {cont : State → State} (hc : IgnoresEngine cont) :
    IgnoresEngine (decodeCheck · cont) := by
  intro s e
  simp only [Machine.decodeCheck, hc s e]
  rfl

theorem IgnoresEngine.readBit {cont : Bool → State → State} (hc : ∀ b, IgnoresEngine (cont b)) (p : Point) :
    IgnoresEngine (readBit p · cont) := by
  intro s e
  by_cases h8 : s.brPos = 8
  · exact (readBit_empty (by exact h8) _ _).trans (readBit_empty h8 _ _).symm
  · exact ((readBit_buffered (by exact h8) _ _).trans (hc _ { s with brPos := s.brPos + 1 } e)).trans
      (readBit_buffered h8 _ _).symm

theorem IgnoresEngine.descend {loop : State → State} (hl : IgnoresEngine loop) (b : Bool) :
    IgnoresEngine (descend b · loop) := by
  intro s e
  cases hc : (s.node (s.child s.cur b)).leaf with
  | true => exact (descend_leaf _ (by exact hc)).trans (descend_leaf _ hc).symm
  | false =>
    exact ((descend_inner _ (by exact hc)).trans
      (hl { s with cur := s.child s.cur b, dstate := .descending } e)).trans (descend_inner _ hc).symm

theorem IgnoresEngine.decodeLoop (n : Nat) : IgnoresEngine (decodeLoop n) := by
  induction n with
  | zero => exact (IgnoresEngine.atPoint _).decodeCheck
  | succ n ih => exact (IgnoresEngine.readBit (fun b => ih.descend b) _).decodeCheck

theorem decodeBegin_engine {s : State} (hv : s.treeValid = true) (e : Engine) :
    decodeBegin { s with engine := e } = decodeBegin s := by
  rw [decodeBegin_tree hv, decodeBegin_tree (s := { s with engine := e }) hv]
  exact IgnoresEngine.decodeLoop _ s.decodingFirst e

/-! ### A step of the tree load, whatever runs after a complete tree (R380) -/

theorem treeInterior_stackOverflow {loaded : State → State} {k : Nat} {s : State} {r l : NodeIdx}
    {rest : List NodeIdx} (hs : s.stk = r :: l :: rest) (ha : s.arena.length ≠ 511) (hr : rest.length = 256) :
    treeInterior loaded k s = raise .treeStackOverflow (treePos k)
      { s with stk := rest, arena := s.arena ++ [Node.mkInterior l r] } := by
  rw [treeInterior, pop_cons hs, pop_cons rfl, alloc_room (by exact ha), push_full (by exact hr)]

/-- From `s` the step `f` either ends with TREE_VALID as it was, whatever runs after a complete tree, or completes a
tree and does what runs after it, with DONE and IRQ_PEND as they were. -/
inductive LoadStep (s : State) (f : (State → State) → State) : Prop
  | goesOn (t : State) (eq : ∀ loaded, f loaded = t) (valid : t.treeValid = s.treeValid)
  | completes (u : State) (eq : ∀ loaded, f loaded = loaded u) (valid : u.treeValid = true) (done : u.done = s.done)
      (irqPend : u.irqPend = s.irqPend)

theorem LoadStep.of_eq {s t : State} {f : (State → State) → State} (h : LoadStep t f)
    (hv : t.treeValid = s.treeValid) (hd : t.done = s.done) (hp : t.irqPend = s.irqPend) : LoadStep s f := by
  cases h with
  | goesOn v h hv' => exact .goesOn v h (hv'.trans hv)
  | completes u h hu hd' hp' => exact .completes u h hu (hd'.trans hd) (hp'.trans hp)

theorem loadStep_treeLoadLoop (k : Nat) (s : State) : LoadStep s (treeLoadLoop · k s) := by
  by_cases hk : k < s.treeLen
  · exact .goesOn _ (fun _ => treeLoadLoop_more hk) rfl
  have hk' := Nat.not_lt.1 hk
  by_cases hs : s.sp = 1
  · obtain ⟨r, hr⟩ := List.length_eq_one_iff.1 hs
    exact .completes _ (fun _ => treeLoadLoop_root hk' hr) rfl rfl rfl
  · exact .goesOn _ (fun _ => treeLoadLoop_notSingleRoot hk' hs) rfl

/-- With no item on the stack no tree is complete, so what runs after one does not matter. -/
theorem treeLoadLoop_stk_nil {s : State} (hs : s.stk = []) (k : Nat) (f g : State → State) :
    treeLoadLoop f k s = treeLoadLoop g k s := by
  by_cases hk : k < s.treeLen
  · rw [treeLoadLoop_more hk, treeLoadLoop_more hk]
  · have hsp : s.sp ≠ 1 := by simp [State.sp, hs]
    rw [treeLoadLoop_notSingleRoot (Nat.not_lt.1 hk) hsp, treeLoadLoop_notSingleRoot (Nat.not_lt.1 hk) hsp]

theorem loadStep_treeInterior (k : Nat) (s : State) : LoadStep s (treeInterior · k s) := by
  match hs : s.stk with
  | [] => exact .goesOn _ (fun _ => treeInterior_underflow (by simp [hs])) rfl
  | [_] => exact .goesOn _ (fun _ => treeInterior_underflow (by simp [hs])) rfl
  | r :: l :: rest =>
    by_cases ha : s.arena.length = 511
    · exact .goesOn _ (fun _ => treeInterior_nodeOverflow hs ha) rfl
    by_cases hr : rest.length = 256
    · exact .goesOn _ (fun _ => treeInterior_stackOverflow hs ha hr) rfl
    · simp only [treeInterior_join hs ha hr]
      exact (loadStep_treeLoadLoop _ _).of_eq rfl rfl rfl

/-- An InPop without a byte ends the step before any tree is complete. -/
theorem loadStep_onInPop_nil {s : State} (hq : s.inq = []) (eos : State → State)
    (he : (eos s).treeValid = s.treeValid) (byte : (State → State) → Byte → State → State) :
    LoadStep s fun loaded => onInPop s eos (byte loaded) := by
  cases hi : s.inEos with
  | true => exact .goesOn _ (fun _ => onInPop_eos hq hi _ _) he
  | false => exact .goesOn _ (fun _ => onInPop_blocked hq hi _ _) rfl

theorem loadStep_treeTagStep (k : Nat) (s : State) : LoadStep s (treeTagStep · k s) := by
  match hq : s.inq with
  | [] => exact loadStep_onInPop_nil hq _ rfl _
  | b :: q =>
    by_cases hL : b = tokenLeaf
    · subst hL
      by_cases hk : k + 1 = s.treeLen
      · exact .goesOn _ (fun _ => treeTagStep_leafTruncated hq hk) rfl
      · exact .goesOn _ (fun _ => treeTagStep_leaf hq hk) rfl
    by_cases hI : b = tokenInterior
    · subst hI
      simp only [treeTagStep_interior hq]
      exact (loadStep_treeInterior _ _).of_eq rfl rfl rfl
    · exact .goesOn _ (fun _ => treeTagStep_badToken hq hL hI) rfl

theorem loadStep_treeSymStep (k : Nat) (s : State) : LoadStep s (treeSymStep · k s) := by
  match hq : s.inq with
  | [] => exact loadStep_onInPop_nil hq _ rfl _
  | b :: q =>
    by_cases ha : s.arena.length = 511
    · exact .goesOn _ (fun _ => treeSymStep_nodeOverflow hq ha) rfl
    by_cases hs : s.stk.length = 256
    · exact .goesOn _ (fun _ => treeSymStep_stackOverflow hq ha hs) rfl
    · simp only [treeSymStep_leaf hq ha hs]
      exact (loadStep_treeLoadLoop _ _).of_eq rfl rfl rfl

/-- At TREE_LOAD's control points both commands do the same step of the tree load. -/
theorem exists_loadStep {s : State} {k : Nat}
    (he : s.engine = .running (.treeTag k) ∨ s.engine = .running (.treeSym k)) :
    ∃ f, LoadStep s f ∧ exec .treeLoad s = .next (f finish) ∧ exec .decodeStream s = .next (f decodeBegin) := by
  rcases he with he | he
  · exact ⟨_, loadStep_treeTagStep k s, congrArg _ (treeLoadStep_treeTag he),
      congrArg _ (decodeStreamStep_treeTag he)⟩
  · exact ⟨_, loadStep_treeSymStep k s, congrArg _ (treeLoadStep_treeSym he),
      congrArg _ (decodeStreamStep_treeSym he)⟩

/-! ### DECODE_STREAM at its start -/

section
variable {s : State}

theorem exec_decodeStream_start (he : s.engine = .running .start) :
    exec .decodeStream s = .next (checkMagic (treeLoadBegin decodeBegin) s) :=
  congrArg _ (decodeStreamStep_start he)

/-- With the right magic DECODE_STREAM begins as TREE_LOAD does (R380). -/
theorem exec_decodeStream_start_ok (he : s.engine = .running .start) (hm : s.hdrMagic = s.params.magic) :
    exec .decodeStream s = .next (treeLoadBegin decodeBegin s) :=
  (exec_decodeStream_start he).trans (congrArg _ (checkMagic_ok hm _))

end

/-- Settles O47: what runs after a complete tree is the one difference between the two commands' tree steps. -/
theorem decodeStreamRunsItsParts : Obligations.DecodeStreamRunsItsParts := by
  unfold Obligations.DecodeStreamRunsItsParts
  intro s
  refine ⟨fun he hm => ?badMagic, fun he hm => ?magic, fun k t he hv ht => ?load, fun he => ?decode⟩
  case badMagic => rw [exec_decodeStream_start he, checkMagic_bad hm]
  case magic =>
    have hbegin : treeLoadBegin decodeBegin s = treeLoadBegin finish s := treeLoadLoop_stk_nil rfl _ _ _
    exact (exec_decodeStream_start_ok he hm).trans (congrArg _ (hbegin.trans (treeLoadStep_start he).symm))
  case load =>
    obtain ⟨f, hf, hload, hstream⟩ := exists_loadStep he
    cases hload.symm.trans ht
    rw [hstream]
    cases hf with
    | goesOn t h hv' =>
      rw [h, h]
      refine ⟨fun _ => rfl, fun hvt => ?_⟩
      rw [hv', hv] at hvt
      cases hvt
    | completes u h hvu hd hp =>
      rw [h, h]
      refine ⟨fun hvt => ?_, fun _ => ⟨u, rfl, hd, hp, ?_⟩⟩
      · cases hvu.symm.trans hvt
      · exact congrArg _ (decodeBegin_engine hvu _).symm
  case decode =>
    rcases he with he | he
    · exact congrArg _ ((decodeStreamStep_decodeIn he).trans (decodeStep_decodeIn he).symm)
    · exact congrArg _ ((decodeStreamStep_decodeOut he).trans (decodeStep_decodeOut he).symm)

/-! ### DECODE_STREAM of a whole stream -/

/-- `s` with the tree `t` just loaded and the bytes `q` still in INQ (R264, R266). -/
def State.loaded (s : State) (t : HuffTree) (q : List Byte) (e : Engine) : State :=
  { s with
    brPos := 8, treeValid := true, arena := t.nodes 0, root := BitVec.ofNat 9 (t.size - 1), stk := [], inq := q
    engine := e }

theorem State.loaded_holds (s : State) {t : HuffTree} (ht : t.leaves ≤ 256) (q : List Byte) (e : Engine) :
    Holds (s.loaded t q e) t := ⟨rfl, rfl, rfl, ht⟩

/-- DECODE_STREAM of a dump comes to DECODE's first step with its tree loaded (R380). -/
theorem run_decodeStream_load {t : HuffTree} {s : State} {q : List Byte} (hb : Begins 0x0C s)
    (hm : s.hdrMagic = s.params.magic) (ht : t.leaves ≤ 256) (hT : s.treeLen = t.tokens.length)
    (hq : s.inq = t.tokens ++ q) : ∃ n e, steps n s = .next (decodeBegin (s.loaded t q e)) := by
  obtain ⟨he, hw, hi⟩ := hb
  have hsize := t.size_eq
  have hstart : step s = .next (treeLoadBegin decodeBegin s) :=
    (step_command hi he (by rw [hw]; rfl)).trans (exec_decodeStream_start_ok he hm)
  obtain ⟨n, e, hrun⟩ := run_tokens decodeBegin t
    { s with brPos := 8, treeValid := false, arena := [], root := 0, stk := [] } 0 q hi (.inr ⟨hw, rfl⟩) hq
    ((Nat.zero_add _).trans hT.symm).le (by show 0 + t.size ≤ 511; omega) (by show 0 + t.leaves ≤ 256; omega)
  refine ⟨n + 1, e, (steps_succ hstart n).trans (hrun.trans ?_)⟩
  refine (congrArg _ (treeLoadLoop_root (by exact (hT.trans (Nat.zero_add _).symm).le) (by exact rfl))).trans ?_
  simp [State.loaded]

/-- DECODE's first step with a held tree and what follows it, whichever command does it (R365, R380). -/
theorem run_decodeBegin {t : HuffTree} {s : State} {xs : List (Byte × List Bool)} {more : List Bool}
    (hw : DecodeLatched s) (hi : s.inputs = []) (ht : Holds s t) (h2 : 2 ≤ t.leaves) (hx : ∀ x ∈ xs, x ∈ t.paths)
    (hs : xs.length < 2 ^ 64) (hf : s.fileSize = BitVec.ofNat 64 xs.length)
    (hr : s.outq.length + xs.length ≤ s.outDepth) (hp : s.pendingBits = xs.flatMap Prod.snd ++ more) :
    ∃ n, steps n (decodeBegin s) = .next (s.decoded xs) := by
  have hroot : AtRoot t s.decodingFirst xs more :=
    { holds := ⟨ht.valid, ht.arena, ht.root, ht.leaves⟩, leaves := h2, latched := hw, silent := hi, cur := rfl
      paths := hx, short := hs, count := (BitVec.zero_add _).trans hf.symm, room := hr, pend := hp }
  obtain ⟨n, hn⟩ := hroot.run
  exact ⟨n, by rw [decodeBegin_tree ht.valid]; exact hn⟩

/-- Settles O48: the tree bytes load the tree, and the payload is the packed form of the paths, before an empty
reader. -/
theorem decodeStreamDecodesAWholeStream : Obligations.DecodeStreamDecodesAWholeStream := by
  unfold Obligations.DecodeStreamDecodesAWholeStream
  intro t s xs rest hb hm h2 ht hT hx hs hf hq hr
  rw [List.append_assoc] at hq
  obtain ⟨m, e, hload⟩ := run_decodeStream_load hb hm ht hT hq
  obtain ⟨-, hw, hi⟩ := hb
  have hholds := s.loaded_holds ht (packed (xs.flatMap Prod.snd) ++ rest) e
  obtain ⟨more, hp⟩ := pendingBits_packed (s := s.loaded t _ e) rfl rfl
  obtain ⟨n, hn⟩ := run_decodeBegin (s := s.loaded t _ e) (.inr hw) hi hholds h2 hx hs hf hr hp
  refine ⟨m + n, _, steps_trans hload hn, rfl, rfl, rfl, ?_, rfl, ?_, rfl, rfl⟩
  · exact ⟨hholds.valid, hholds.arena, hholds.root, ht⟩
  · exact afterBits_packed_inq rfl rfl

end Sys2Proof.Machine

/-! ## How a command ends

An engine step stops at a control point, by `finish()` or by `raise`, and only these two write ERR, ERRCODE, ERRPOS and
IRQ_PEND (40_host_interface.md R195, R196; 60_exceptions.md R402, R420). `Stops` says so; each operation of a command is
followed to where it stops, with the errors it may raise on the way. -/

namespace Sys2Proof.Machine

/-- Settles O25: OUT_INVALID is kept or set, as OUTBYTES is 0 or not. -/
theorem raiseRecordsTheError : Obligations.RaiseRecordsTheError := by
  unfold Obligations.RaiseRecordsTheError
  intro e pos s
  refine ⟨?_, rfl⟩
  by_cases h : s.outbytes = 0
  · simp [raise, h]
  · rw [if_pos h]
    simpa [raise] using .inr h

/-! ### Where an engine step stops -/

/-- What the end of a command writes, but for DONE, OUT_INVALID and the engine. -/
structure EndRegs where
  err     : Bool
  errcode : ErrCode
  errpos  : Word
  irqPend : Bool

/-- The registers a command's end writes as a state holds them. -/
def State.endRegs (s : State) : EndRegs where
  err     := s.err
  errcode := s.errcode
  errpos  := s.errpos
  irqPend := s.irqPend

/-- An engine step from a state with the end registers `r` stops in `t`: at a control point, by `finish()`, or by a
`raise` of an error in `E`. -/
inductive Stops (E : List ErrCode) : State → EndRegs → Prop
  | goesOn {t : State} {r : EndRegs} (p : Point) (he : t.engine = .running p) (hr : t.endRegs = r) : Stops E t r
  | finishes {t : State} {r : EndRegs} (he : t.engine = .idle) (hr : t.endRegs = { r with irqPend := true }) :
    Stops E t r
  | raises {r : EndRegs} {e : ErrCode} (he : e ∈ E) (pos : Word) (u : State) : Stops E (raise e pos u) r

section
variable {E F : List ErrCode} {r : EndRegs} {s t : State}

theorem Stops.mono (h : Stops E t r) (hE : E ⊆ F) : Stops F t r := by
  cases h with
  | goesOn p he hr => exact .goesOn p he hr
  | finishes he hr => exact .finishes he hr
  | raises he pos u => exact .raises (hE he) pos u

/-- ERR, ERRCODE and ERRPOS stay, or the command ends with an error of the list. -/
theorem Stops.errors (h : Stops E t s.endRegs) :
    (t.err = s.err ∧ t.errcode = s.errcode ∧ t.errpos = s.errpos) ∨
    (t.err = true ∧ t.engine = .idle ∧ t.errcode ∈ E) := by
  cases h with
  | goesOn p he hr => exact .inl ⟨congrArg EndRegs.err hr, congrArg EndRegs.errcode hr, congrArg EndRegs.errpos hr⟩
  | finishes he hr => exact .inl ⟨congrArg EndRegs.err hr, congrArg EndRegs.errcode hr, congrArg EndRegs.errpos hr⟩
  | raises he pos u => exact .inr ⟨rfl, rfl, he⟩

/-- ERR is set by a `raise` alone, which marks the output when there is any (60_exceptions.md R402). -/
theorem Stops.error_marks_output (h : Stops E t s.endRegs) (hs : s.err = false) (ht : t.err = true)
    (ho : t.outbytes ≠ 0) : t.errcode ∈ E ∧ t.outInvalid = true := by
  cases h with
  | goesOn p he hr => exact absurd (hs.symm.trans ((congrArg EndRegs.err hr).symm.trans ht)) (by simp)
  | finishes he hr => exact absurd (hs.symm.trans ((congrArg EndRegs.err hr).symm.trans ht)) (by simp)
  | raises he pos u =>
    rw [raise_outbytes] at ho
    exact ⟨he, by simpa using .inr ho⟩

/-! ### The operations of the commands -/

/-- From every state `f` runs to where an engine step stops. -/
def StopsWith (E : List ErrCode) (f : State → State) : Prop := ∀ s, Stops E (f s) s.endRegs

theorem StopsWith.finish : StopsWith E finish := fun _ => .finishes rfl rfl

theorem StopsWith.raise {e : ErrCode} (he : e ∈ E) (pos : Word) : StopsWith E (raise e pos) :=
  fun s => .raises he pos s

theorem StopsWith.fromStart {f : State → State} (hf : StopsWith E f) (s : State) :
    fromStart f s = s ∨ Stops E (fromStart f s) s.endRegs := by
  rcases fromStart_cases f s with ⟨_, e⟩ | ⟨_, e⟩ <;> rw [e]
  · exact .inr (hf s)
  · exact .inl rfl

theorem onInPop_stops {eos : State → State} {byte : Byte → State → State} (he : StopsWith E eos)
    (hb : ∀ b, StopsWith E (byte b)) (s : State) :
    onInPop s eos byte = s ∨ Stops E (onInPop s eos byte) s.endRegs := by
  rcases onInPop_cases s eos byte with ⟨b, q, _, e⟩ | ⟨_, _, e⟩ | ⟨_, _, e⟩ <;> rw [e]
  · exact .inr (hb b { s with inq := q })
  · exact .inr (he s)
  · exact .inl rfl

theorem onOutPush_stops {cont : State → State} (b : Byte) (s : State)
    (hc : Stops E (cont { s with outq := s.outq ++ [b], outbytes := s.outbytes + 1 }) s.endRegs) :
    onOutPush b s cont = s ∨ Stops E (onOutPush b s cont) s.endRegs := by
  rcases onOutPush_cases b s cont with ⟨_, e⟩ | ⟨_, e⟩ <;> rw [e]
  · exact .inr hc
  · exact .inl rfl

theorem StopsWith.lutWriteBody : StopsWith [.lutBadLen] lutWriteBody := by
  intro s
  unfold Machine.lutWriteBody
  split
  · exact .finishes rfl rfl
  · exact .raises (by simp) _ s

theorem StopsWith.lutBuildBody : StopsWith [.noTree, .degenerateTree] lutBuildBody := by
  intro s
  unfold Machine.lutBuildBody
  split
  · split
    · exact .raises (by simp) _ s
    · exact .finishes rfl rfl
  · exact .raises (by simp) _ s

theorem readBitStep_stops (s : State) : readBitStep s = s ∨ Stops E (readBitStep s) s.endRegs := by
  unfold readBitStep
  split
  · rcases readBit_cases .bitIn s bitRead with ⟨_, e⟩ | ⟨_, e⟩ <;> rw [e]
    · exact .inr (.goesOn _ rfl rfl)
    · exact .inr (.finishes rfl rfl)
  · exact onInPop_stops (fun _ => .finishes rfl rfl) (fun _ _ => .finishes rfl rfl) s
  · exact .inl rfl

/-! ### TREE_LOAD and TREE_STORE -/

section
variable {loaded : State → State}

theorem treeLoadLoop_stops (hE : mayRaise .treeLoad ⊆ E)
    (hl : ∀ s : State, s.treeValid = true → Stops E (loaded s) s.endRegs) (k : Nat) :
    StopsWith E (treeLoadLoop loaded k) := by
  intro s
  rcases treeLoadLoop_cases loaded k s with ⟨_, e⟩ | ⟨_, r, _, e⟩ | ⟨_, _, e⟩ <;> rw [e]
  · exact .goesOn _ rfl rfl
  · exact hl { s with root := r, stk := [], treeValid := true } rfl
  · exact .raises (hE (by simp)) _ s

theorem treeLoadBegin_stops (hE : mayRaise .treeLoad ⊆ E)
    (hl : ∀ s : State, s.treeValid = true → Stops E (loaded s) s.endRegs) : StopsWith E (treeLoadBegin loaded) :=
  fun s => treeLoadLoop_stops hE hl 0 { s with brPos := 8, treeValid := false, arena := [], root := 0, stk := [] }

theorem treeTagStep_stops (hE : mayRaise .treeLoad ⊆ E)
    (hl : ∀ s : State, s.treeValid = true → Stops E (loaded s) s.endRegs) (k : Nat) (s : State) :
    treeTagStep loaded k s = s ∨ Stops E (treeTagStep loaded k s) s.endRegs := by
  rcases treeTagStep_cases loaded k s with ⟨_, _, e⟩ | ⟨_, _, e⟩ | ⟨b, q, _, hcases⟩
  · exact .inl e
  · rw [e]; exact .inr (.raises (hE (by simp)) _ _)
  refine .inr ?_
  rcases hcases with ⟨_, _, e⟩ | ⟨_, _, e⟩ | ⟨_, _, e⟩ | ⟨r, l, rest, _, _, hj⟩ | ⟨_, _, e⟩
  · rw [e]; exact .raises (hE (by simp)) _ _
  · rw [e]; exact .goesOn _ rfl rfl
  · rw [e]; exact .raises (hE (by simp)) _ _
  · rcases hj with ⟨_, e⟩ | ⟨_, _, e⟩ | ⟨_, _, e⟩ <;> rw [e]
    · exact .raises (hE (by simp)) _ _
    · exact .raises (hE (by simp)) _ _
    · exact treeLoadLoop_stops hE hl (k + 1) _
  · rw [e]; exact .raises (hE (by simp)) _ _

theorem treeSymStep_stops (hE : mayRaise .treeLoad ⊆ E)
    (hl : ∀ s : State, s.treeValid = true → Stops E (loaded s) s.endRegs) (k : Nat) (s : State) :
    treeSymStep loaded k s = s ∨ Stops E (treeSymStep loaded k s) s.endRegs := by
  rcases treeSymStep_cases loaded k s with ⟨_, _, e⟩ | ⟨_, _, e⟩ | ⟨b, q, _, hcases⟩
  · exact .inl e
  · rw [e]; exact .inr (.raises (hE (by simp)) _ _)
  refine .inr ?_
  rcases hcases with ⟨_, e⟩ | ⟨_, _, e⟩ | ⟨_, _, e⟩ <;> rw [e]
  · exact .raises (hE (by simp)) _ _
  · exact .raises (hE (by simp)) _ _
  · exact treeLoadLoop_stops hE hl (k + 2) _

end

theorem treeLoadStep_stops (s : State) :
    treeLoadStep s = s ∨ Stops (mayRaise .treeLoad) (treeLoadStep s) s.endRegs := by
  unfold treeLoadStep
  split
  · exact .inr (treeLoadBegin_stops (List.Subset.refl _) (fun s _ => StopsWith.finish s) s)
  · exact treeTagStep_stops (List.Subset.refl _) (fun s _ => StopsWith.finish s) _ s
  · exact treeSymStep_stops (List.Subset.refl _) (fun s _ => StopsWith.finish s) _ s
  · exact .inl rfl

theorem StopsWith.treeStoreNext (bytes : List Byte) : StopsWith E (treeStoreNext bytes) := by
  intro s
  cases bytes with
  | nil => exact .finishes rfl rfl
  | cons b rest => exact .goesOn _ rfl rfl

theorem treeStoreStep_stops (s : State) : treeStoreStep s = s ∨ Stops [.noTree] (treeStoreStep s) s.endRegs := by
  unfold treeStoreStep
  split
  · split
    · exact .inr (StopsWith.treeStoreNext _ s)
    · exact .inr (.raises (by simp) _ s)
  · exact onOutPush_stops _ s (StopsWith.treeStoreNext _ _)
  · exact .inl rfl

/-! ### MAGIC_CHECK, DECODE and DECODE_STREAM -/

theorem StopsWith.checkMagic {cont : State → State} (hE : .badMagic ∈ E) (hc : StopsWith E cont) :
    StopsWith E (checkMagic cont) := by
  intro s
  unfold Machine.checkMagic
  split
  · exact hc s
  · exact .raises hE _ s

/-- DECODE's loop raises nothing but DEGENERATE_TREE, and that only when it begins at a leaf (45_decoder.md R369). -/
theorem decodeLoop_stops {s : State} (hE : (s.node s.cur).leaf = true → .degenerateTree ∈ E) :
    Stops E (decodeLoop (bufferedBits s) s) s.endRegs := by
  rcases decodeLoop_cases s with ⟨_, e⟩ | ⟨_, hl, e⟩ | ⟨_, _, _, _, _, _, _, ⟨_, _, e⟩ | ⟨_, e⟩⟩ <;> rw [e]
  · exact .finishes rfl rfl
  · exact .raises (hE hl) _ s
  · exact .goesOn _ rfl rfl
  · exact .goesOn _ rfl rfl

theorem decodeBegin_stops {s : State} (hv : s.treeValid = false → .noTree ∈ E) (hE : .degenerateTree ∈ E) :
    Stops E (decodeBegin s) s.endRegs := by
  unfold decodeBegin
  split
  · exact decodeLoop_stops (s := { s with symcount := 0, cur := s.root, dstate := .atRoot }) fun _ => hE
  · next h => exact .raises (hv (by simpa using h)) _ s

/-- At DECODE's InPop the only error is DECODE_EOS: the loop goes on from an interior node. -/
theorem decodeInStep_stops (s : State) :
    decodeInStep s = s ∨ Stops [.decodeEos] (decodeInStep s) s.endRegs := by
  rcases decodeInStep_cases s with ⟨b, q, _, ⟨_, e⟩ | ⟨u, hl, rfl, e⟩⟩ | ⟨_, _, e⟩ | ⟨_, _, e⟩
  · rw [e]; exact .inr (.goesOn _ rfl rfl)
  · rw [e]; exact .inr (decodeLoop_stops fun h => absurd (hl.symm.trans h) Bool.false_ne_true)
  · rw [e]; exact .inr (.raises (by simp) _ s)
  · exact .inl e

/-- After DECODE's OutPush the loop begins at the root. -/
theorem decodeOutStep_stops {s : State} (hE : (s.node s.root).leaf = true → .degenerateTree ∈ E) :
    decodeOutStep s = s ∨ Stops E (decodeOutStep s) s.endRegs :=
  onOutPush_stops _ s (decodeLoop_stops (s := State.decodingNext _) hE)

theorem decodeStep_stops (s : State) :
    decodeStep s = s ∨ Stops (mayRaise .decode) (decodeStep s) s.endRegs := by
  unfold decodeStep
  split
  · exact .inr (decodeBegin_stops (fun _ => by simp) (by simp))
  · exact (decodeInStep_stops s).imp_right (·.mono (by simp))
  · exact decodeOutStep_stops fun _ => by simp
  · exact .inl rfl

theorem decodeStreamStep_stops (s : State) :
    decodeStreamStep s = s ∨ Stops (mayRaise .decodeStream) (decodeStreamStep s) s.endRegs := by
  have hE : mayRaise .treeLoad ⊆ mayRaise .decodeStream := by simp
  have hl : ∀ s : State, s.treeValid = true → Stops (mayRaise .decodeStream) (decodeBegin s) s.endRegs :=
    fun s hv => decodeBegin_stops (by simp [hv]) (by simp)
  unfold decodeStreamStep
  split
  · exact .inr (StopsWith.checkMagic (by simp) (treeLoadBegin_stops hE hl) s)
  · exact treeTagStep_stops hE hl _ s
  · exact treeSymStep_stops hE hl _ s
  · exact (decodeInStep_stops s).imp_right (·.mono (by simp))
  · exact decodeOutStep_stops fun _ => by simp
  · exact .inl rfl

/-! ### ENCODE -/

theorem StopsWith.putBits (bits : List Bool) : StopsWith E (putBits bits) := by
  intro s
  obtain ⟨hfit, hfull⟩ := putBits_placed bits s
  rcases Nat.lt_or_ge (s.wpos.val + bits.length) 8 with h | h
  · rw [hfit h]; exact .goesOn _ rfl rfl
  · rw [hfull h]; exact .goesOn _ rfl rfl

theorem StopsWith.encodeByte (c : Byte) : StopsWith [.lutMiss] (encodeByte c) := by
  intro s
  by_cases hc : (s.lut.get c).len = 0
  · rw [encodeByte_miss hc]; exact .raises (by simp) _ _
  · rw [encodeByte_code hc]; exact StopsWith.putBits _ s

theorem StopsWith.encodeEnd : StopsWith E encodeEnd := by
  intro s
  by_cases hw : s.wpos = 0
  · rw [encodeEnd_empty hw]; exact .finishes rfl rfl
  · rw [encodeEnd_partial hw]; exact .goesOn _ rfl rfl

theorem encodeStep_stops (s : State) : encodeStep s = s ∨ Stops [.lutMiss] (encodeStep s) s.endRegs := by
  unfold encodeStep
  split
  · exact .inr (.goesOn _ rfl rfl)
  · exact onInPop_stops StopsWith.encodeEnd StopsWith.encodeByte s
  · exact onOutPush_stops _ s (StopsWith.putBits _ (clearPacker _))
  · exact onOutPush_stops _ s (.finishes rfl rfl)
  · exact .inl rfl

end

/-! ### Every command -/

/-- A step of a command changes nothing, or stops at a control point or at the command's end, with no error but the
command's own. -/
theorem command_stops {i : Instr} {s t : State} (hi : isCommand i = true) (h : exec i s = .next t) :
    t = s ∨ Stops (mayRaise i) t s.endRegs := by
  cases i
  case nop => cases h; exact StopsWith.finish.fromStart s
  case clear => cases h; exact StopsWith.fromStart (fun _ => .finishes rfl rfl) s
  case lutWrite => cases h; exact StopsWith.lutWriteBody.fromStart s
  case lutRead => cases h; exact StopsWith.fromStart (fun _ => .finishes rfl rfl) s
  case lutBuild => cases h; exact StopsWith.lutBuildBody.fromStart s
  case treeLoad => cases h; exact treeLoadStep_stops s
  case treeStore => cases h; exact treeStoreStep_stops s
  case encode => cases h; exact encodeStep_stops s
  case readBit => cases h; exact readBitStep_stops s
  case brDiscard => cases h; exact StopsWith.fromStart (fun _ => .finishes rfl rfl) s
  case magicCheck => cases h; exact (StopsWith.checkMagic (by simp) StopsWith.finish).fromStart s
  case decode => cases h; exact decodeStep_stops s
  case decodeStream => cases h; exact decodeStreamStep_stops s
  case reserved w => cases h; exact (StopsWith.raise (by simp) w).fromStart s
  all_goals cases hi

/-- Settles O54: a step that changes ERR, ERRCODE or ERRPOS stops by a `raise` of one of the command's errors. -/
theorem eachCommandRaisesOnlyItsErrors : Obligations.EachCommandRaisesOnlyItsErrors := by
  unfold Obligations.EachCommandRaisesOnlyItsErrors
  intro i s t hi h
  rcases command_stops hi h with rfl | hstop
  · exact .inl ⟨rfl, rfl, rfl⟩
  · exact hstop.errors

/-! ### Errors after output -/

/-- Only a step from an OutPush changes OUTBYTES: any other step is the same with the output FIFO full, where no byte
can be pushed. -/
theorem command_outbytes {i : Instr} {s t : State} {p : Point} (hi : isCommand i = true)
    (he : s.engine = .running p) (hp : p.isOut = false) (h : exec i s = .next t) : t.outbytes = s.outbytes := by
  have hout : (s.fed [] (List.replicate s.outDepth 0) s.rdata).waitOut = false := by
    simp [State.fed, State.waitOut, he, hp]
  have hfed := exec_fed hi (.inl rfl) hout h
  rcases (engineStepMovesAtMostOneByteEachWay i _ _ hi hfed).2 with ⟨_, ho⟩ | ⟨b, hroom, _⟩
  · exact ho
  · simp [State.fed, State.outDepth] at hroom
    omega

theorem exec_decodeIn {i : Instr} {s : State} (hi : i = .decode ∨ i = .decodeStream)
    (he : s.engine = .running .decodeIn) : exec i s = .next (decodeInStep s) := by
  obtain rfl | rfl := hi
  · exact exec_decode_decodeIn he
  · exact congrArg _ (decodeStreamStep_decodeIn he)

theorem exec_decodeOut {i : Instr} {s : State} (hi : i = .decode ∨ i = .decodeStream)
    (he : s.engine = .running .decodeOut) : exec i s = .next (decodeOutStep s) := by
  obtain rfl | rfl := hi
  · exact exec_decode_decodeOut he
  · exact congrArg _ (decodeStreamStep_decodeOut he)

/-- In a state that meets the invariant an engine step of a command that has put out a byte raises no error but
DECODE_EOS and LUT_MISS: at a command's start, in TREE_LOAD and in READ_BIT nothing is put out yet, TREE_STORE raises at
its start alone, and the root of a running DECODE is no leaf. -/
theorem stops_after_output {s t : State} (hinv : BlockInv s) (hb : s.busy = true)
    (h : exec (decodeCommand s.cmdword) s = .next t) (ho : t.outbytes ≠ 0) :
    t = s ∨ Stops [.decodeEos, .lutMiss] t s.endRegs := by
  have hi := isCommand_decodeCommand s.cmdword
  obtain ⟨p, he⟩ := busy_eq_true.1 hb
  have hp := hinv.point p he
  have hsilent (hz : s.outbytes = 0) (hin : p.isOut = false) : t = s ∨ Stops [.decodeEos, .lutMiss] t s.endRegs :=
    absurd ((command_outbytes hi he hin h).trans hz) ho
  have hencode (hc : decodeCommand s.cmdword = .encode) : t = s ∨ Stops [.decodeEos, .lutMiss] t s.endRegs := by
    rw [hc] at h
    exact (command_stops rfl h).imp_right (·.mono (by simp))
  cases p with
  | start => exact hsilent hp rfl
  | treeTag k =>
    obtain ⟨_, _, _, hz, _⟩ := hp
    exact hsilent hz rfl
  | treeSym k =>
    obtain ⟨_, _, _, hz, _⟩ := hp
    exact hsilent hz rfl
  | bitIn =>
    obtain ⟨_, _, hz⟩ := hp
    exact hsilent hz rfl
  | treeOut b rest =>
    rw [hp.1] at h
    obtain rfl : treeStoreStep s = t := Host.Outcome.next.inj h
    rw [treeStoreStep_treeOut he]
    exact onOutPush_stops _ s (StopsWith.treeStoreNext _ _)
  | encIn => exact hencode hp
  | encOut rest => exact hencode hp.1
  | encFlush => exact hencode hp.1
  | decodeIn =>
    cases (exec_decodeIn hp.1 he).symm.trans h
    exact (decodeInStep_stops s).imp_right (·.mono (by simp))
  | decodeOut =>
    obtain ⟨hc, _, hd⟩ := hp
    cases (exec_decodeOut hc he).symm.trans h
    exact decodeOutStep_stops fun hl => absurd (hd.root_inner.symm.trans hl) Bool.false_ne_true

/-- Settles O55: while the command runs ERR is 0, so an ERR of 1 is this step's `raise`. -/
theorem onlyTwoErrorsComeAfterOutput : Obligations.OnlyTwoErrorsComeAfterOutput := by
  unfold Obligations.OnlyTwoErrorsComeAfterOutput
  intro s t hinv hb h herr ho
  obtain ⟨_, hs⟩ := hinv.running hb
  rw [engineTurn_busy hb] at h
  rcases stops_after_output hinv hb h ho with rfl | hstop
  · exact absurd (hs.symm.trans herr) (by simp)
  · simpa using hstop.error_marks_output hs herr ho

/-! ### The interrupt -/

/-- From `s` to `t` IRQ_PEND is set by a command's end alone, and not cleared (60_exceptions.md R420). -/
structure IrqFollows (s t : State) : Prop where
  set_by_end : s.irqPend = false → t.irqPend = true → s.busy = true ∧ t.busy = false
  end_sets   : s.busy = true → t.busy = false → t.irqPend = true
  kept       : s.irqPend = true → t.irqPend = true

section
variable {E : List ErrCode} {s t : State}

theorem IrqFollows.of_eq (hp : t.irqPend = s.irqPend) (hb : s.busy = true → t.busy = true) : IrqFollows s t where
  set_by_end h0 h1 := absurd (h0.symm.trans (hp.symm.trans h1)) Bool.false_ne_true
  end_sets h1 h0 := absurd (h0.symm.trans (hb h1)) Bool.false_ne_true
  kept h := hp.trans h

/-- The three clauses of the interrupt's rule, where the step is no exception to them. -/
theorem IrqFollows.clauses {A B : Prop} (h : IrqFollows s t) :
    (s.irqPend = false → t.irqPend = true → s.busy = true ∧ t.busy = false) ∧
    (s.busy = true → t.busy = false → A → t.irqPend = true) ∧
    (s.irqPend = true → t.irqPend = false → B) :=
  ⟨h.set_by_end, fun h1 h0 _ => h.end_sets h1 h0, fun h1 h0 => absurd (h0.symm.trans (h.kept h1)) Bool.false_ne_true⟩

theorem Stops.irqFollows (h : Stops E t s.endRegs) (hb : s.busy = true) : IrqFollows s t := by
  cases h with
  | goesOn p he hr => exact .of_eq (congrArg EndRegs.irqPend hr) fun _ => busy_eq_true.2 ⟨p, he⟩
  | finishes he hr =>
    have hp : t.irqPend = true := congrArg EndRegs.irqPend hr
    exact ⟨fun _ _ => ⟨hb, busy_eq_false.2 he⟩, fun _ _ => hp, fun _ => hp⟩
  | raises he pos u => exact ⟨fun _ _ => ⟨hb, rfl⟩, fun _ _ => rfl, fun _ => rfl⟩

theorem engineTurn_irqFollows (h : engineTurn s = .next t) : IrqFollows s t := by
  rcases engineTurn_cases s with ⟨hb, e⟩ | ⟨_, e⟩
  · rcases command_stops (isCommand_decodeCommand _) (e.symm.trans h) with rfl | hstop
    · exact .of_eq rfl id
    · exact hstop.irqFollows hb
  · cases e.symm.trans h
    exact .of_eq rfl id

theorem SameButRead.irqPend (h : SameButRead s t) : t.irqPend = s.irqPend := by
  unfold SameButRead at h
  rw [h]

theorem writeOperand_irqPend {s' : State} (hs : s'.irqPend = s.irqPend) (h : writeOperand s' s = .next t) :
    t.irqPend = s.irqPend := by
  rcases writeOperand_cases s' s with ⟨_, e⟩ | ⟨_, e⟩ <;> cases e.symm.trans h
  · exact hs
  · rfl

theorem popOutData_irqPend (h : popOutData s = .next t) : t.irqPend = s.irqPend := by
  rcases popOutData_cases s with ⟨_, _, _, e⟩ | ⟨_, e⟩ <;> cases e.symm.trans h <;> rfl

theorem writeCmd_irqPend {w : Word} (h : writeCmd w s = .next t) : t.irqPend = s.irqPend := by
  rcases writeCmd_cases w s with ⟨_, e⟩ | ⟨_, e⟩ <;> cases e.symm.trans h <;> rfl

theorem pushInData_irqPend {w : Word} (h : pushInData w s = .next t) : t.irqPend = s.irqPend := by
  rcases pushInData_cases w s with ⟨_, _, e⟩ | ⟨_, e⟩ <;> cases e.symm.trans h <;> rfl

theorem writeInCtrl_irqPend {w : Word} (h : writeInCtrl w s = .next t) : t.irqPend = s.irqPend := by
  rcases writeInCtrl_cases w s with ⟨_, e⟩ | ⟨_, e⟩ <;> cases e.symm.trans h <;> rfl

/-- Of the host's accesses only a write of IRQ_STATUS changes IRQ_PEND (40_host_interface.md R173). -/
theorem access_irqPend {i : Instr} (hi : isCommand i = false) (h : exec i s = .next t) :
    t.irqPend = s.irqPend ∨ ∃ w, i = .wrIrqStatus w ∧ t.irqPend = (s.irqPend && !w.getLsbD 0) := by
  cases i
  case nop | clear | lutWrite | lutRead | lutBuild | treeLoad | treeStore | encode | readBit | brDiscard |
      magicCheck | decode | decodeStream | reserved => cases hi
  case wrIrqStatus w => cases h; exact .inr ⟨w, rfl, rfl⟩
  all_goals refine .inl ?_
  case rdErrcode | rdErrpos | rdSymcountLo | rdSymcountHi | rdOutbytesLo | rdOutbytesHi | rdTreeInfo | rdDecState |
      rdBrState | rdBitResult | rdLutLen | rdLutBits0 | rdLutBits1 | rdLutBits2 | rdLutBits3 | rdLutBits4 |
      rdLutBits5 | rdLutBits6 | rdLutBits7 | rdNodeData => exact (readEngineOwned_frame h).irqPend
  case wrTreeSize | wrFileSizeLo | wrFileSizeHi | wrHdrMagic | wrLutSym | wrLutLen | wrLutBits0 | wrLutBits1 |
      wrLutBits2 | wrLutBits3 | wrLutBits4 | wrLutBits5 | wrLutBits6 | wrLutBits7 =>
    exact writeOperand_irqPend (by rfl) h
  case rdOutData => exact popOutData_irqPend h
  case wrCmd => exact writeCmd_irqPend h
  case wrInData => exact pushInData_irqPend h
  case wrInCtrl => exact writeInCtrl_irqPend h
  -- The exact reads, the writes with no effect, and CTRL and NODE_ADDR.
  all_goals cases h; rfl

/-- A host access ends no command. -/
theorem access_busy {i : Instr} (hi : isCommand i = false) (h : exec i s = .next t) (hb : s.busy = true) :
    t.busy = true := by
  rw [(access_keepsCommand hi hb h).frame]
  exact hb

theorem eq_write_of_decodeAccess {a : Access} {w : Word} (h : decodeAccess a = .ok (.wrIrqStatus w)) :
    a = .write 0x14 w :=
  (Encoded.access.inj (encodeDecodeGivesTheBitsBack (.access a) _ h).2).symm

end

/-- Settles O53: the engine's turn sets IRQ_PEND exactly where it ends a command; a host access ends none, and only a
write of 1 to IRQ_STATUS and reset clear the bit. -/
theorem irqPendFollowsCommandEnds : Obligations.IrqPendFollowsCommandEnds := by
  unfold Obligations.IrqPendFollowsCommandEnds
  intro s t h
  rcases step_cases h with ⟨_, he⟩ | ⟨rest, _, he⟩ | ⟨a, rest, i, hin, hd, he⟩ | ⟨rest, hin, rfl⟩
  · exact (engineTurn_irqFollows he).clauses
  · exact (engineTurn_irqFollows he).clauses
  · have hi := isCommand_decodeAccess hd
    rcases access_irqPend hi he with hp | ⟨w, rfl, hp⟩
    · exact (IrqFollows.of_eq hp (access_busy hi he)).clauses
    · refine ⟨fun h0 h1 => ?_, fun h1 h0 _ => ?_, fun h1 h0 => .inl ⟨w, rest, ?_, ?_⟩⟩
      · simp [hp, h0] at h1
      · exact absurd (h0.symm.trans (access_busy hi he h1)) Bool.false_ne_true
      · rw [hin, eq_write_of_decodeAccess hd]
      · simpa [hp, h1] using h0
  · exact ⟨fun _ h1 => absurd h1 Bool.false_ne_true, fun _ _ hr => absurd hin (hr rest), fun _ _ => .inr ⟨rest, hin⟩⟩

end Sys2Proof.Machine

/-! ## Reset

An Idle engine is blocked at no primitive, and the empty code table has no code; every other value of R450's table
stands in `State.reset` itself. A reset of the reset state gives it again, so it meets what every reset establishes. -/

namespace Sys2Proof.Machine

theorem waitIn_of_idle {s : State} (h : s.engine = .idle) : s.waitIn = false := by
  simp [State.waitIn, h]

theorem waitOut_of_idle {s : State} (h : s.engine = .idle) : s.waitOut = false := by
  simp [State.waitOut, h]

theorem step_reset {s : State} {rest : List Input} (h : s.inputs = .reset :: rest) :
    step s = .next (platformReset { s with inputs := rest }) := by
  simp [step, h]

@[simp] theorem platformReset_reset : platformReset State.reset = State.reset := rfl

/-- Settles O9: the engine is Idle, so neither WAIT bit is 1; the table is empty; the other values are the fields'. -/
theorem resetLeavesTheStatedValues : Obligations.ResetLeavesTheStatedValues := by
  unfold Obligations.ResetLeavesTheStatedValues
  have hidle : State.reset.engine = .idle := rfl
  exact ⟨⟨busy_reset, rfl, rfl, rfl, rfl, rfl, rfl, rfl, waitIn_of_idle hidle, waitOut_of_idle hidle, rfl, rfl⟩,
    ⟨rfl, rfl, rfl, rfl, rfl⟩, ⟨rfl, rfl, rfl, rfl, rfl, rfl⟩, ⟨rfl, rfl, rfl, rfl, rfl, rfl, rfl⟩,
    ⟨rfl, rfl, rfl, rfl, rfl, CodeTable.get_nil⟩, ⟨rfl, rfl, rfl, rfl, rfl, hidle⟩⟩

/-- Settles O10: the reset is taken off the inputs, and nothing else of the state is looked at. -/
theorem resetEventGivesTheResetState : Obligations.ResetEventGivesTheResetState := by
  unfold Obligations.ResetEventGivesTheResetState
  intro s rest h
  rw [step_reset h, platformReset]

/-- Settles O49: the state right after reset is what a reset of it gives, and every reset establishes the invariant. -/
theorem invariantHoldsAtReset : Obligations.InvariantHoldsAtReset := by
  unfold Obligations.InvariantHoldsAtReset
  rw [← platformReset_reset]
  exact platformReset_inv State.reset

end Sys2Proof.Machine
